-- ==== Sys2Proof/Word.lean ====
section
/-! DEFINITION. The word types of the block (00_scope.md R9, 10_state.md R11, 30_encoding.md R70, R73). -/

namespace Sys2Proof

/-- A byte: every chip register, table entry, mask, brightness, current, percentage and index (R9). -/
abbrev Byte := BitVec 8

/-- A command word `W` (R70). -/
abbrev CommandWord := BitVec 32

/-- A response word `{status, value}` (R73). -/
abbrev ResponseWord := BitVec 16

/-- `int32`, the transport's answer to a read (20_memory.md R44); its sign is `BitVec.toInt`'s. -/
abbrev TransportStatus := BitVec 32

end Sys2Proof
end

