-- ==== Sys2Proof/Syntax.lean ====
section
/-! DEFINITION. The commands, one constructor per row of spec/opcode_table.json (30_encoding.md R75), with the
operands of the row's format (R71). An operand is a byte (R72), but for the channel, which has two values (R78). -/

namespace Sys2Proof

/-- "one of the two independently drivable LED current paths (A, B)" (00_scope.md glossary). -/
inductive Channel where
  | A
  | B
deriving DecidableEq, Repr

/-- The seventeen commands of BME command set v1. -/
inductive Instr where
  /-- `RD addr` (40_regbus.md R93) -/
  | rd (addr : Byte)
  /-- `WR addr, value` (40_regbus.md R94) -/
  | wr (addr value : Byte)
  /-- `UPD addr, mask, value` (40_regbus.md R95) -/
  | upd (addr mask value : Byte)
  /-- `STAT` (41_chipcontroller.md R107) -/
  | stat
  /-- `INIT` (41_chipcontroller.md R100) -/
  | init
  /-- `SETCH ch, brt, cur` (41_chipcontroller.md R103) -/
  | setch (ch : Channel) (brt cur : Byte)
  /-- `GETCH ch` (41_chipcontroller.md R105) -/
  | getch (ch : Channel)
  /-- `SHUTDOWN` (41_chipcontroller.md R106) -/
  | shutdown
  /-- `PCT2RAW ch, pct` (42_brightnesscurve.md R121) -/
  | pct2raw (ch : Channel) (pct : Byte)
  /-- `FLSEL idx` (43_frontlight.md R133) -/
  | flsel (idx : Byte)
  /-- `FLAPPLY pct` (43_frontlight.md R132) -/
  | flapply (pct : Byte)
  /-- `FLIDX` (43_frontlight.md R134) -/
  | flidx
  /-- `BLSET ch, brt` (44_channelbackend.md R145) -/
  | blset (ch : Channel) (brt : Byte)
  /-- `BLGET ch` (44_channelbackend.md R146) -/
  | blget (ch : Channel)
  /-- `VSET pct` (44_channelbackend.md R147) -/
  | vset (pct : Byte)
  /-- `VGET` (44_channelbackend.md R148) -/
  | vget
  /-- `BLPCT ch, pct` (44_channelbackend.md R150) -/
  | blpct (ch : Channel) (pct : Byte)
deriving DecidableEq, Repr

end Sys2Proof
end

