-- ==== Sys2Proof/Config.lean ====
section
/-! DEFINITION. The named parameters of 00_scope.md R7 and the configuration `CFG` of 10_state.md R19: what the
source needs and gives no value for. A configuration is plain data; which ones are well-formed is WellFormed.lean's. -/

namespace Sys2Proof

/-- A pair of values, one for each channel: the `X[ch]` of R6, R7 and R19. -/
structure PerChannel (α : Type) where
  a : α
  b : α
deriving DecidableEq, Repr

/-- `CURVE_LEN` (R6): entries of a brightness curve. -/
abbrev CURVE_LEN : Nat := 77

/-- `FL_LEN` (R6): entries of a front-light table. -/
abbrev FL_LEN : Nat := 100

/-- `FL_TABLES` (R6): color-temperature variants. -/
abbrev FL_TABLES : Nat := 3

/-- The parameters of R7. The two ROMs are `curve` and `fl` (20_memory.md R52); an "empty" front-light combination
is ordinary content of `fl` (43_frontlight.md R136). -/
structure Config where
  /-- `CURVE[ch][k]`, `k` in 0..76 -/
  curve : PerChannel (Vector Byte CURVE_LEN)
  /-- `FL[t][ch][k]`, `t` in 0..2, `k` in 0..99 -/
  fl : Vector (PerChannel (Vector Byte FL_LEN)) FL_TABLES
  /-- `M_EN_A`, `M_EN_B`: the channel-enable bits of the control register -/
  mEn : PerChannel Byte
  /-- `M_LEDA`: the channel-A mode field of the control register -/
  mLeda : Byte
  /-- `M_LEDB`: the channel-B mode field of the control register -/
  mLedb : Byte
  /-- `A_FILTER`: the filter-strength register's address -/
  aFilter : Byte
  /-- `V_FILTER`: the byte INIT writes to it -/
  vFilter : Byte
  /-- `V_BOOST`: the byte INIT writes to the boost register -/
  vBoost : Byte
  /-- `CFG.ledaMode` -/
  ledaMode : Byte
  /-- `CFG.ledbMode` -/
  ledbMode : Byte
  /-- `CFG.pwmMode`; only bits [2:0] reach the chip -/
  pwmMode : Byte
  /-- `CFG.initBrt[ch]` -/
  initBrt : PerChannel Byte
  /-- `CFG.maxBrt[ch]` -/
  maxBrt : PerChannel Byte
  /-- `CFG.fullScale[ch]` -/
  fullScale : PerChannel Byte
deriving DecidableEq, Repr

end Sys2Proof
end

