-- ==== Sys2Proof/Machine/RegMap.lean ====
section
/-! DEFINITION. The values the source fixes (00_scope.md R6): the chip's register addresses (20_memory.md R51), the
field masks, the thresholds and the two front-light currents, each a named constant so that a corrected literal is a
one-line change (93_implementation_defined.md U12). -/

namespace Sys2Proof.Machine

/-- "valid address range ends at 0x1F" (R6, R41) -/
def ADDR_MAX : Byte := 0x1F
/-- control register (10_state.md R24) -/
def A_CTRL : Byte := 0x00
/-- config register (R25) -/
def A_CONFIG : Byte := 0x01
/-- boost register (R26) -/
def A_BOOST : Byte := 0x02
/-- brightness-A (R27) -/
def A_BRT_A : Byte := 0x03
/-- brightness-B (R27) -/
def A_BRT_B : Byte := 0x04
/-- current-A (R28) -/
def A_CUR_A : Byte := 0x05
/-- current-B (R28) -/
def A_CUR_B : Byte := 0x06
/-- interrupt-status, in no sequence (R29) -/
def A_INT_STATUS : Byte := 0x09
/-- interrupt-enable, in no sequence (R29) -/
def A_INT_EN : Byte := 0x0A
/-- fault, in no sequence (R29) -/
def A_FAULT : Byte := 0x0B
/-- PWM-out-low, in no sequence (R29) -/
def A_PWM_LO : Byte := 0x12
/-- PWM-out-high, in no sequence (R29) -/
def A_PWM_HI : Byte := 0x13

/-- the control register's sleep bit (R24) -/
def M_SLEEP : Byte := 0x80
/-- the config register's PWM-control field (R25) -/
def M_PWM : Byte := 0x07
/-- the current register's field (R28) -/
def M_CUR : Byte := 0x1F
/-- a current argument at or above this means "leave unchanged" (R6) -/
def CUR_KEEP : Byte := 0x20
/-- a raw brightness at or above this means channel on (R6) -/
def BRT_ON : Byte := 4
/-- the value the sleep-disable writes under `M_SLEEP`: the bit is cleared (41_chipcontroller.md R101,
92_eei_decisions.md D11; the reading 90_conflicts.md C4 sets aside is 0x80 here) -/
def V_SLEEP_OFF : Byte := 0x00
/-- channel A's current level in every front-light operation (43_frontlight.md R130) -/
def FL_CUR_A : Byte := 4
/-- channel B's current level in every front-light operation (R130) -/
def FL_CUR_B : Byte := 7
/-- the largest blended percentage (43_frontlight.md R131, D16) -/
def PCT_MAX : Byte := 100

/-- The addresses R6 names; `A_FILTER` must differ from each (R7). `ADDR_MAX` is the end of the range, not a
register (DEDUCED, notes/assumptions/12.md). -/
def namedAddresses : List Byte :=
  [A_CTRL, A_CONFIG, A_BOOST, A_BRT_A, A_BRT_B, A_CUR_A, A_CUR_B, A_INT_STATUS, A_INT_EN, A_FAULT, A_PWM_LO, A_PWM_HI]

end Sys2Proof.Machine
end

