-- ==== Sys2Proof/WellFormed.lean ====
section
/-! DEFINITION. The two well-formedness checks of the spec. A command WORD is legal when it matches a row of the
opcode map (30_encoding.md R75 to R78); the rows stand here as the spec's table gives them, apart from the decoder.
A CONFIGURATION is well-formed when it meets the constraints of 00_scope.md R7. (Every `Instr` term is well-formed:
its operands are bytes and a channel of two values, which is all R72 and R78 ask.) -/

namespace Sys2Proof

/-- A row of R75's table: a word `W` selects it when `(W & mask) == bits`. -/
structure OpcodeRow where
  mnemonic : String
  bits : CommandWord
  mask : CommandWord
deriving DecidableEq, Repr

/-- The opcode map of R75, in its order. -/
def opcodeRows : List OpcodeRow :=
  [ ⟨"RD", 0x01000000, 0xFF00FFFF⟩,
    ⟨"WR", 0x02000000, 0xFF00FF00⟩,
    ⟨"UPD", 0x03000000, 0xFF000000⟩,
    ⟨"STAT", 0x04000000, 0xFFFFFFFF⟩,
    ⟨"INIT", 0x10000000, 0xFFFFFFFF⟩,
    ⟨"SETCH", 0x11000000, 0xFFFE0000⟩,
    ⟨"GETCH", 0x12000000, 0xFFFEFFFF⟩,
    ⟨"SHUTDOWN", 0x13000000, 0xFFFFFFFF⟩ ] ++
  [ ⟨"PCT2RAW", 0x20000000, 0xFFFEFF00⟩,
    ⟨"FLSEL", 0x30000000, 0xFFFFFF00⟩,
    ⟨"FLAPPLY", 0x31000000, 0xFFFFFF00⟩,
    ⟨"FLIDX", 0x32000000, 0xFFFFFFFF⟩,
    ⟨"BLSET", 0x40000000, 0xFFFE00FF⟩,
    ⟨"BLGET", 0x41000000, 0xFFFEFFFF⟩,
    ⟨"VSET", 0x42000000, 0xFFFFFF00⟩,
    ⟨"VGET", 0x43000000, 0xFFFFFFFF⟩,
    ⟨"BLPCT", 0x44000000, 0xFFFEFF00⟩ ]

/-- The word selects the row. -/
def OpcodeRow.selects (r : OpcodeRow) (w : CommandWord) : Bool := w &&& r.mask == r.bits

/-- The word matches some row of the opcode map; every other word is illegal (R76). -/
def legalWord (w : CommandWord) : Bool := opcodeRows.any fun r => r.selects w

/-- Each entry is at most the next one. -/
def nonDecreasing : List Byte → Bool
  | [] => true
  | [_] => true
  | x :: y :: rest => x ≤ y && nonDecreasing (y :: rest)

/-- Both brightness curves are non-decreasing (R7, 42_brightnesscurve.md R122 (a)). -/
def Config.curvesMonotone (c : Config) : Bool :=
  nonDecreasing c.curve.a.toList && nonDecreasing c.curve.b.toList

/-- The two front-light entries the source gives: `FL[1][A][49] = 200`, `FL[1][B][49] = 128` (R7). -/
def Config.givenEntries (c : Config) : Bool :=
  c.fl[1].a[49] == 200 && c.fl[1].b[49] == 128

/-- The enable masks are non-zero, disjoint and clear of the sleep bit (R7). -/
def Config.enableMasksOk (c : Config) : Bool :=
  c.mEn.a != 0 && c.mEn.b != 0 && c.mEn.a &&& c.mEn.b == 0 &&
  c.mEn.a &&& Machine.M_SLEEP == 0 && c.mEn.b &&& Machine.M_SLEEP == 0

/-- The mode masks are disjoint and clear of the sleep bit (R7). -/
def Config.modeMasksOk (c : Config) : Bool :=
  c.mLeda &&& c.mLedb == 0 && c.mLeda &&& Machine.M_SLEEP == 0 && c.mLedb &&& Machine.M_SLEEP == 0

/-- `A_FILTER` differs from every address of R6 (R7). It may lie outside the valid range (10_state.md R30). -/
def Config.filterOk (c : Config) : Bool := !Machine.namedAddresses.contains c.aFilter

/-- The constraints of R7, "checked when a configuration is built". -/
def Config.wf (c : Config) : Bool :=
  c.curvesMonotone && c.givenEntries && c.enableMasksOk && c.modeMasksOk && c.filterOk

end Sys2Proof
end

