-- ==== Sys2Proof/Decode.lean ====
section
/-! DEFINITION. The decoder and the encoder (30_encoding.md R70 to R79). A command is one 32-bit word of four bytes
`{OP, A, B, C}`; the decoder is total and rejects by name. -/

namespace Sys2Proof

/-- Why a word is no command. The response is the same for each, `(ERR_ILLEGAL, 0x00)` (R76); which name a word with
several defects gets is this model's choice (DESIGN CHOICE, notes/assumptions/13.md). -/
inductive Reject where
  /-- `OP` is not in the table (R76) -/
  | unassignedOpcode
  /-- a field the format does not use is not zero (R77) -/
  | nonZeroField
  /-- the channel field is neither 0x00 nor 0x01 (R78) -/
  | badChannel
deriving DecidableEq, Repr

/-- What a word decodes to. -/
inductive Decoded where
  | command (i : Instr)
  | illegal (why : Reject)
deriving DecidableEq, Repr

/-- `OP = W[31:24]` (R70) -/
def fieldOp (w : CommandWord) : Byte := w.extractLsb' 24 8
/-- `A = W[23:16]` (R70) -/
def fieldA (w : CommandWord) : Byte := w.extractLsb' 16 8
/-- `B = W[15:8]` (R70) -/
def fieldB (w : CommandWord) : Byte := w.extractLsb' 8 8
/-- `C = W[7:0]` (R70) -/
def fieldC (w : CommandWord) : Byte := w.extractLsb' 0 8

/-- R77: the command, if the fields its format does not use are zero. -/
def whenZero (fieldsZero : Bool) (i : Instr) : Decoded :=
  if fieldsZero then .command i else .illegal .nonZeroField

/-- R78: the channel operand is field `A`, 0x00 for A and 0x01 for B; then R77 for the fields left over. -/
def whenChannel (a : Byte) (fieldsZero : Bool) (i : Channel → Instr) : Decoded :=
  if a = 0x00 then whenZero fieldsZero (i .A)
  else if a = 0x01 then whenZero fieldsZero (i .B)
  else .illegal .badChannel

/-- The decoder: R75's opcodes with R71's formats. -/
def decode (w : CommandWord) : Decoded :=
  let a := fieldA w
  let b := fieldB w
  let c := fieldC w
  match fieldOp w with
  | 0x01#8 => whenZero (b == 0 && c == 0) (.rd a)
  | 0x02#8 => whenZero (b == 0) (.wr a c)
  | 0x03#8 => whenZero true (.upd a b c)
  | 0x04#8 => whenZero (a == 0 && b == 0 && c == 0) .stat
  | 0x10#8 => whenZero (a == 0 && b == 0 && c == 0) .init
  | 0x11#8 => whenChannel a true fun ch => .setch ch b c
  | 0x12#8 => whenChannel a (b == 0 && c == 0) fun ch => .getch ch
  | 0x13#8 => whenZero (a == 0 && b == 0 && c == 0) .shutdown
  | 0x20#8 => whenChannel a (b == 0) fun ch => .pct2raw ch c
  | 0x30#8 => whenZero (a == 0 && b == 0) (.flsel c)
  | 0x31#8 => whenZero (a == 0 && b == 0) (.flapply c)
  | 0x32#8 => whenZero (a == 0 && b == 0 && c == 0) .flidx
  | 0x40#8 => whenChannel a (c == 0) fun ch => .blset ch b
  | 0x41#8 => whenChannel a (b == 0 && c == 0) fun ch => .blget ch
  | 0x42#8 => whenZero (a == 0 && b == 0) (.vset c)
  | 0x43#8 => whenZero (a == 0 && b == 0 && c == 0) .vget
  | 0x44#8 => whenChannel a (b == 0) fun ch => .blpct ch c
  | _ => .illegal .unassignedOpcode

/-- `{OP, A, B, C}`, `OP` in the high bits (R70). -/
def packWord (op a b c : Byte) : CommandWord := op ++ a ++ b ++ c

/-- The channel's code (R78). -/
def channelCode : Channel → Byte
  | .A => 0x00
  | .B => 0x01

/-- The encoder: R75's opcodes, R71's formats, zero in every field a format does not use (R77). -/
def encode : Instr → CommandWord
  | .rd addr => packWord 0x01 addr 0 0
  | .wr addr value => packWord 0x02 addr 0 value
  | .upd addr mask value => packWord 0x03 addr mask value
  | .stat => packWord 0x04 0 0 0
  | .init => packWord 0x10 0 0 0
  | .setch ch brt cur => packWord 0x11 (channelCode ch) brt cur
  | .getch ch => packWord 0x12 (channelCode ch) 0 0
  | .shutdown => packWord 0x13 0 0 0
  | .pct2raw ch pct => packWord 0x20 (channelCode ch) 0 pct
  | .flsel idx => packWord 0x30 0 0 idx
  | .flapply pct => packWord 0x31 0 0 pct
  | .flidx => packWord 0x32 0 0 0
  | .blset ch brt => packWord 0x40 (channelCode ch) brt 0
  | .blget ch => packWord 0x41 (channelCode ch) 0 0
  | .vset pct => packWord 0x42 0 0 pct
  | .vget => packWord 0x43 0 0 0
  | .blpct ch pct => packWord 0x44 (channelCode ch) 0 pct

/-- The command of a decoded word, if there is one. -/
def Decoded.toOption : Decoded → Option Instr
  | .command i => some i
  | .illegal _ => none

/-- The word of the low `nbits` bits of `w`, every bit above them zero. A command word is one parallel value, never
serialised into bytes (20_memory.md R42, D31), so the opcode table's bit numbers are the word's own. -/
def tableWord (nbits w : Nat) : CommandWord := BitVec.ofNat 32 (w % 2 ^ nbits)

/-- The instruction this decoder reads from a word numbered as spec/opcode_table.json numbers it. -/
def decodeTableWord (nbits w : Nat) : Option Instr := (decode (tableWord nbits w)).toOption

end Sys2Proof
end

