-- ==== Sys2Proof/Machine/Fixture.lean ====
section
/-! DEFINITION. The configuration the reset state holds: `CFG_TEST` of 95_test_vectors.md section 1 (DESIGN CHOICE,
notes/assumptions/1.md: the spec gives the parameters no value). Only `FL[1][A][49]` and `FL[1][B][49]` are the source's. -/

namespace Sys2Proof.Machine

/-- The table whose entry `k` is `f k`. -/
def tabulate (n : Nat) (f : Nat → Nat) : Vector Byte n :=
  ⟨((List.range n).map fun k => BitVec.ofNat 8 (f k)).toArray, by simp⟩

/-- `CFG_TEST`. -/
def cfgTest : Config where
  curve := { a := tabulate CURVE_LEN fun k => 4 + 3 * k, b := tabulate CURVE_LEN fun k => 2 + 2 * k }
  fl := #v[{ a := tabulate FL_LEN fun k => k + 1, b := tabulate FL_LEN fun _ => 0 },
           { a := tabulate FL_LEN fun k => min 255 (4 * k + 4), b := tabulate FL_LEN fun k => 2 * k + 30 },
           { a := tabulate FL_LEN fun _ => 0, b := tabulate FL_LEN fun k => k + 100 }]
  mEn := { a := 0x04, b := 0x02 }
  mLeda := 0x14
  mLedb := 0x0B
  aFilter := 0x10
  vFilter := 0x03
  vBoost := 0x38
  ledaMode := 0x04
  ledbMode := 0x02
  pwmMode := 0x00
  initBrt := { a := 0x00, b := 0x00 }
  maxBrt := { a := 0xFF, b := 0xFF }
  fullScale := { a := 0x0A, b := 0x0A }

end Sys2Proof.Machine
end

