-- ==== Sys2Proof/Machine/Memory.lean ====
section
/-! DEFINITION. The chip's register file as the reference target holds it, "a plain store `Reg : {0x00..0x1F} -> byte`"
(20_memory.md R48): a list of (address, byte) in one canonical form, addresses strictly rising, all at most 0x1F, no
entry equal to what an unlisted register reads as. -/

namespace Sys2Proof.Machine

/-- The store. -/
abbrev Memory := List Host.Cell

/-- What a register nothing has written reads as. The spec leaves power-up values unspecified (10_state.md R34,
70_reset_and_hazards.md R192); 0x00 is this model's (DESIGN CHOICE, notes/assumptions/3.md; unsafe). -/
def unlistedByte : Byte := 0x00

/-- One register's byte. -/
def readCell : Memory → Nat → Byte
  | [], _ => unlistedByte
  | (k, x) :: rest, a => if k = a then x else readCell rest a

/-- The store with a cell put in front, unless an unlisted register reads as the same byte. -/
def consCell (a : Nat) (v : Byte) (m : Memory) : Memory := if v = unlistedByte then m else (a, v) :: m

/-- The store with one register written; the other registers and the canonical form are kept. -/
def writeCell : Memory → Nat → Byte → Memory
  | [], a, v => consCell a v []
  | (k, x) :: rest, a, v =>
    if a < k then consCell a v ((k, x) :: rest)
    else if a = k then consCell a v rest
    else (k, x) :: writeCell rest a v

/-- The addresses are at least `low`, rise strictly and end at 0x1F or before, and no byte is the unlisted one. -/
def risingFrom (low : Nat) : Memory → Bool
  | [] => true
  | (k, x) :: rest => low ≤ k && k ≤ ADDR_MAX.toNat && x != unlistedByte && risingFrom (k + 1) rest

/-- The canonical form. -/
def Memory.wf (m : Memory) : Bool := risingFrom 0 m

end Sys2Proof.Machine
end

