-- ==== Sys2Proof/Machine/State.lean ====
section
/-! DEFINITION. The state of the block, of the chip behind the bus, and of the inputs that wait to be read: plain
data. Each field cites the rule that names it; INVENTORY.md lists them with their reset values. -/

namespace Sys2Proof.Machine

/-- The three settle delays (10_state.md R22, 70_reset_and_hazards.md R195). -/
inductive DelayKind where
  | rail
  | init
  | sleep
deriving DecidableEq, Repr

/-- How a RegisterBus operation ends (40_regbus.md R90 to R92). -/
inductive BusResult where
  | ok
  | fail
deriving DecidableEq, Repr

/-- How a RegisterBus read ends: with a byte, or failed (R90). -/
inductive ReadResult where
  | ok (byte : Byte)
  | fail
deriving DecidableEq, Repr

/-- The events of the trace (10_state.md R22). -/
inductive Event where
  /-- `Rail(1)` -/
  | rail1
  /-- `Delay(kind)` -/
  | delay (kind : DelayKind)
  /-- `Rd(addr, r)` -/
  | rd (addr : Byte) (r : ReadResult)
  /-- `Wr(addr, byte, r)` -/
  | wr (addr : Byte) (byte : Byte) (r : BusResult)
deriving DecidableEq, Repr

/-- One draw of the transport-with-target agent, for one transaction (20_memory.md R44 to R48; the form is the
model's, notes/assumptions/4.md). -/
structure Answer where
  /-- the transport fails the transaction (R46) -/
  fails : Bool
  /-- for a failed write: the register holds the new value, not the old one (R47) -/
  taken : Bool
  /-- for a read the transport does not fail: the status word it answers, or `none` where the reference target
  answers its register's byte (R44, R48) -/
  status : Option TransportStatus
deriving DecidableEq, Repr

/-- The reference target's answer: success. -/
def Answer.good : Answer := { fails := false, taken := false, status := none }

/-- A coming assertion of the reset input (70_reset_and_hazards.md R190; the form is the model's,
notes/assumptions/10.md). -/
inductive ResetInput where
  /-- no command is in progress -/
  | idle
  /-- during the next command, after `transactions` of its transactions are answered, with the following one in
  flight; `taken`: if that one is a write, it took effect -/
  | during (transactions : Nat) (taken : Bool)
deriving DecidableEq, Repr

/-- The machine. -/
structure State where
  /-- the parameters, written by no step (00_scope.md R7, 10_state.md R19; held here because `step` takes a State
  alone, notes/assumptions/1.md) -/
  cfg : Config
  /-- `CMD`, the command word being executed (R11) -/
  cmd : CommandWord
  /-- `RSP`, the response word (R11, 30_encoding.md R73) -/
  rsp : ResponseWord
  /-- `TMP`, the byte between the halves of a masked update (R11) -/
  tmp : Byte
  /-- `step`, the index of the next micro-step of the command (R13, R14) -/
  step : Nat
  /-- `busy` (R15) -/
  busy : Bool
  /-- `errlog`, sticky (R16) -/
  errlog : Bool
  /-- `rail_en` (R17) -/
  railEn : Bool
  /-- `attached` (R18) -/
  attached : Bool
  /-- `tbl_idx` (R20) -/
  tblIdx : Byte
  /-- `last_pct` (R21) -/
  lastPct : Byte
  /-- `trace`, oldest event first (R22) -/
  trace : List Event
  /-- the chip's registers, `Reg` (R23, 20_memory.md R48) -/
  chip : Memory
  /-- the words the host offers, the next one first (30_encoding.md R82) -/
  port : List CommandWord
  /-- the transport's draws for the coming transactions, the next one first (20_memory.md R46) -/
  answers : List Answer
  /-- its draw for every transaction after those -/
  answerRest : Answer
  /-- the reset input (70_reset_and_hazards.md R190) -/
  resetIn : Option ResetInput
deriving DecidableEq, Repr

/-- What stops the machine with a fault: nothing. Every error of the spec ends the command with a response and the
machine goes on (60_exceptions.md R160, R166, R169), so the type has no constructor. Safe: it adds no stop. -/
inductive Fault where
deriving DecidableEq, Repr

/-- What the model refuses. -/
inductive Refusal where
  /-- Raised by an arm of `exec` whose instruction has no meaning yet; no arm raises it. Safe. -/
  | notModelled (mnemonic : String)
  /-- Raised by `powerOn` for a configuration that breaks a constraint of 00_scope.md R7: "a configuration that
  breaks one is refused". No step raises it. Safe. -/
  | configuration
deriving DecidableEq, Repr

/-- The machine right after reset with the configuration `c` (10_state.md R34, 70_reset_and_hazards.md R191). `CMD`,
`RSP` and `TMP`, unspecified there, are 0 (DESIGN CHOICE, notes/assumptions/2.md); the chip's registers, unspecified
there, are unlisted (notes/assumptions/3.md); no input waits and the reference target answers (notes/assumptions/4.md). -/
def State.resetWith (c : Config) : State where
  cfg := c
  cmd := 0
  rsp := 0
  tmp := 0
  step := 0
  busy := false
  errlog := false
  railEn := false
  attached := false
  tblIdx := 0
  lastPct := 0
  trace := []
  chip := []
  port := []
  answers := []
  answerRest := Answer.good
  resetIn := none

/-- The machine right after reset, with the fixture configuration (DESIGN CHOICE, notes/assumptions/1.md). -/
def State.reset : State := State.resetWith cfgTest

end Sys2Proof.Machine
end

