-- ==== Sys2Proof/Machine/Flags.lean ====
section
/-! DEFINITION. The flags: the sticky error log (10_state.md R16), the byte STAT reads them in (41_chipcontroller.md
R107), and the choice of a channel's enable bit by the on/off threshold (R102). No operation of the block has
arithmetic condition codes (10_state.md section 4). -/

namespace Sys2Proof.Machine

/-- A `BusError` occurred: `errlog <- 1` (R16, 60_exceptions.md R161). -/
def State.logBusError (s : State) : State := { s with errlog := true }

/-- STAT's byte: `f[0] = attached`, `f[1] = errlog`, `f[2] = rail_en`, `f[7:3] = 0` (R107). -/
def statByte (s : State) : Byte :=
  0#5 ++ BitVec.ofBool s.railEn ++ BitVec.ofBool s.errlog ++ BitVec.ofBool s.attached

/-- What is written under a channel's enable mask: the mask itself when the raw brightness is at least 4, else 0
(R102). -/
def enableValue (mask brt : Byte) : Byte := if BRT_ON ≤ brt then mask else 0x00

end Sys2Proof.Machine
end

