-- ==== Sys2Proof/Machine/Operands.lean ====
section
/-! DEFINITION. What an operand selects: the register, mask or table of a channel (00_scope.md R9 "Channel") and the
entries of the two ROMs (20_memory.md R52). -/

namespace Sys2Proof.Machine

/-- The member of a pair that belongs to the channel. -/
def pick {α : Type} (p : PerChannel α) : Channel → α
  | .A => p.a
  | .B => p.b

/-- `A_BRT[ch]` -/
def brtAddr : Channel → Byte
  | .A => A_BRT_A
  | .B => A_BRT_B

/-- `A_CUR[ch]` -/
def curAddr : Channel → Byte
  | .A => A_CUR_A
  | .B => A_CUR_B

/-- `M_EN[ch]` -/
def enMask (c : Config) (ch : Channel) : Byte := pick c.mEn ch

/-- `M_EN_A | M_EN_B`, "combinable in one update" (43_frontlight.md R131) -/
def enMaskBoth (c : Config) : Byte := c.mEn.a ||| c.mEn.b

/-- `CURVE[ch][k]`. An index above 76 is never formed (R52); it would read 0x00. -/
def curveEntry (c : Config) (ch : Channel) (k : Nat) : Byte := (pick c.curve ch).getD k 0x00

/-- `FL[t][ch][k]`. A table above 2 or an index above 99 is never formed (R52); it would read 0x00. -/
def flEntry (c : Config) (t : Nat) (ch : Channel) (k : Nat) : Byte :=
  match c.fl[t]? with
  | some tables => (pick tables ch).getD k 0x00
  | none => 0x00

end Sys2Proof.Machine
end

