-- ==== Sys2Proof/Machine/Ops.lean ====
section
/-! DEFINITION. The operations every command is made of: the micro-steps (10_state.md R13), the transport primitives
(20_memory.md R44, R45), the RegisterBus operations (40_regbus.md R90 to R92), the two ways a sequence treats a failure
(10_state.md R14), the response (30_encoding.md R73) and the raising of an error (60_exceptions.md R166). -/

namespace Sys2Proof.Machine

/-! ### Micro-steps -/

/-- One micro-step done: `step` advances by one (R14). -/
def State.tick (s : State) : State := { s with step := s.step + 1 }

/-- `emit e` (10_state.md R22): the event goes to the end of the trace. -/
def State.emit (e : Event) (s : State) : State := { s with trace := s.trace ++ [e] }

/-- The read half of a masked update writes `TMP` (10_state.md R11). -/
def State.setTmp (b : Byte) (s : State) : State := { s with tmp := b }

/-- `tbl_idx <- v`, one micro-step. -/
def State.setTblIdx (v : Byte) (s : State) : State := { s with tblIdx := v }.tick

/-- `last_pct <- v`, one micro-step. -/
def State.setLastPct (v : Byte) (s : State) : State := { s with lastPct := v }.tick

/-- `attached <- v`, one micro-step. -/
def State.setAttached (v : Bool) (s : State) : State := { s with attached := v }.tick

/-- `rail_en <- 1 ; emit Rail(1)` (41_chipcontroller.md R100 step 1), one micro-step (notes/assumptions/9.md). -/
def State.enableRail (s : State) : State := ({ s with railEn := true }.emit .rail1).tick

/-! ### The transport (20_memory.md R44 to R48) -/

/-- The register `a` of the reference target. -/
def State.reg (s : State) (a : Byte) : Byte := readCell s.chip a.toNat

/-- The reference target takes a write: `Reg[a] <- v` (R48). -/
def State.setReg (a v : Byte) (s : State) : State := { s with chip := writeCell s.chip a.toNat v }

/-- The draw for the next transaction (R46). -/
def State.nextAnswer (s : State) : Answer := s.answers.headD s.answerRest

/-- The draw for the next transaction is used up; the transaction is one micro-step. -/
def State.useAnswer (s : State) : State := { s with answers := s.answers.tail }.tick

/-- The `int32` the transport answers to a read of `a`: -1 where it fails the read, the drawn status word where there
is one, else the target's byte (R44, R46, R48). -/
def readStatus (x : Answer) (byte : Byte) : TransportStatus :=
  if x.fails then -1 else x.status.getD (byte.setWidth 32)

/-- `BusRd(addr)`: the transport's answer, and the machine after it. A read changes no register (R47, R48). -/
def busRd (a : Byte) (s : State) : TransportStatus × State := (readStatus s.nextAnswer (s.reg a), s.useAnswer)

/-- `BusWr(addr, v)`: a write that succeeds sets the register; one that fails leaves the old value or the new one, as
drawn (R45, R47). -/
def busWr (a v : Byte) (s : State) : BusResult × State :=
  if s.nextAnswer.fails then (.fail, if s.nextAnswer.taken then s.useAnswer.setReg a v else s.useAnswer)
  else (.ok, s.useAnswer.setReg a v)

/-! ### RegisterBus (40_regbus.md) -/

/-- `MemRead(addr, 1)` (R90). An address above 0x1F fails with no transaction and no event (20_memory.md R41); a
negative status is a failure; else the low 8 bits are the data (R44). -/
def memRead (a : Byte) (s : State) : ReadResult × State :=
  if ADDR_MAX < a then (.fail, s.logBusError)
  else
    match busRd a s with
    | (status, s1) =>
      if status.toInt < 0 then (.fail, (s1.emit (.rd a .fail)).logBusError)
      else (.ok (status.setWidth 8), s1.emit (.rd a (.ok (status.setWidth 8))))

/-- `MemWrite(addr, 1, v)` (R91). -/
def memWrite (a v : Byte) (s : State) : BusResult × State :=
  if ADDR_MAX < a then (.fail, s.logBusError)
  else
    match busWr a v s with
    | (.ok, s1) => (.ok, s1.emit (.wr a v .ok))
    | (.fail, s1) => (.fail, (s1.emit (.wr a v .fail)).logBusError)

/-- "(previous value & ~mask) | (new value & mask)" (00_scope.md R9). -/
def maskedByte (old mask new : Byte) : Byte := (old &&& ~~~mask) ||| (new &&& mask)

/-- `MemUpdate(addr, mask, value)` (R92): a read then a write, always both, but no write after a failed read. -/
def memUpdate (a mask v : Byte) (s : State) : BusResult × State :=
  match memRead a s with
  | (.fail, s1) => (.fail, s1)
  | (.ok b, s1) => memWrite a (maskedByte b mask v) (s1.setTmp b)

/-! ### Sequences (10_state.md R13, R14) -/

/-- A part of a sequence: it works on the machine and ends well or fails. -/
abbrev Step := State → BusResult × State

/-- A settle delay: `emit Delay(kind)`, one micro-step that cannot fail (20_memory.md R54). -/
def settle (k : DelayKind) : Step := fun s => (.ok, (s.emit (.delay k)).tick)

/-- A ROM read, one micro-step that cannot fail and changes nothing else (20_memory.md R52). -/
def romRead : Step := fun s => (.ok, s.tick)

/-- An abort-at-first-failure sequence: "it runs to completion or fails at the step where the bus errors" (R14 (b)). -/
def abortSeq : List Step → Step
  | [], s => (.ok, s)
  | p :: rest, s =>
    match p s with
    | (.ok, s1) => abortSeq rest s1
    | (.fail, s1) => (.fail, s1)

/-- An aggregating sequence: "does not abort early, attempts all steps", and fails if any of them did (R14 (c)). -/
def aggregateSeq : List Step → Step
  | [], s => (.ok, s)
  | p :: rest, s =>
    match p s with
    | (.ok, s1) => aggregateSeq rest s1
    | (.fail, s1) => (.fail, (aggregateSeq rest s1).2)

/-! ### The response, and raising an error -/

/-- The status codes (30_encoding.md R74). -/
inductive Status where
  | ok
  | errBus
  | errInit
  | errRange
  | errIllegal
  | errState
deriving DecidableEq, Repr

/-- Their numbers (R74). -/
def statusCode : Status → Byte
  | .ok => 0x00
  | .errBus => 0x01
  | .errInit => 0x02
  | .errRange => 0x03
  | .errIllegal => 0x04
  | .errState => 0x05

/-- `{status, value}` (R73). -/
def responseWord (st : Status) (value : Byte) : ResponseWord := statusCode st ++ value

/-- The state after `respond(status, value)`: `RSP` written, `busy` cleared, the command ended (R73). With no command
in progress the step index is 0 again (DEDUCED, notes/assumptions/8.md). -/
def State.responded (st : Status) (value : Byte) (s : State) : State :=
  { s with rsp := responseWord st value, busy := false, step := 0 }

/-- `respond(status, value)`, the last micro-step of every command (R73). -/
def respond (st : Status) (value : Byte) (s : State) : Host.Outcome State Fault Refusal :=
  .next (s.responded st value)

/-- The five errors (60_exceptions.md R160). -/
inductive BlockError where
  | bus
  | init
  | range
  | illegal
  | state
deriving DecidableEq, Repr

/-- The error's status (R160, R161 to R165). -/
def errorStatus : BlockError → Status
  | .bus => .errBus
  | .init => .errInit
  | .range => .errRange
  | .illegal => .errIllegal
  | .state => .errState

/-- `raise E` with the best-effort value `v` (R166): the response carries the error's code, the command ends, nothing
is saved, masked, undone or transferred. It is the block's one way of taking an exception; there is no return from
one, and nothing to restore (R169). -/
def raise (e : BlockError) (v : Byte) (s : State) : Host.Outcome State Fault Refusal := respond (errorStatus e) v s

/-- The lifecycle gate of the commands that need `attached = 1` (60_exceptions.md R165). -/
def whenAttached (s : State) (command : Host.Outcome State Fault Refusal) : Host.Outcome State Fault Refusal :=
  if s.attached then command else raise .state 0x00 s

/-- The lifecycle gate of the command that needs `attached = 0` (R165). -/
def whenDetached (s : State) (command : Host.Outcome State Fault Refusal) : Host.Outcome State Fault Refusal :=
  if s.attached then raise .state 0x00 s else command

/-- The end of a command whose sequence ended with `p`: `(OK, okValue)`, or `BusError` with the best-effort value. -/
def finish (okValue failValue : Byte) (p : BusResult × State) : Host.Outcome State Fault Refusal :=
  match p with
  | (.ok, s) => respond .ok okValue s
  | (.fail, s) => raise .bus failValue s

/-- The end of a command that returns the byte it read, or `BusError` with "a best-effort zero" (60_exceptions.md
R161). -/
def finishRead (p : ReadResult × State) : Host.Outcome State Fault Refusal :=
  match p with
  | (.ok b, s) => respond .ok b s
  | (.fail, s) => raise .bus 0x00 s

end Sys2Proof.Machine
end

