-- ==== Sys2Proof/Machine/BrightnessCurve.lean ====
section
/-! DEFINITION. BrightnessCurve (42_brightnesscurve.md): the lookup and the command PCT2RAW. -/

namespace Sys2Proof.Machine

/-- `percentToRaw(ch, percent)` (R120): 0 for 0, clamped to the table's length above it. -/
def percentToRaw (c : Config) (ch : Channel) (percent : Byte) : Byte :=
  if percent = 0 then 0x00 else curveEntry c ch (min percent.toNat CURVE_LEN - 1)

/-- The ROM read of percentToRaw as a micro-step; `percent = 0` does not read the ROM (R121). -/
def curveRead (percent : Byte) (s : State) : State := if percent = 0 then s else (romRead s).2

/-- `PCT2RAW ch, pct` (R121): no bus, no flag, no failure. -/
def execPct2raw (ch : Channel) (pct : Byte) (s : State) : Host.Outcome State Fault Refusal :=
  respond .ok (percentToRaw s.cfg ch pct) (curveRead pct s)

end Sys2Proof.Machine
end

