-- ==== Sys2Proof/Machine/ChipController.lean ====
section
/-! DEFINITION. ChipController (41_chipcontroller.md): the sub-sequences sleep-disable, setChannelBrightness and
getChannelBrightness, and the commands INIT, SETCH, GETCH, SHUTDOWN, STAT. -/

namespace Sys2Proof.Machine

/-- Sleep-disable (R101): clear the sleep bit, then settle, the delay only if the update succeeded. -/
def sleepOff : Step := abortSeq [memUpdate A_CTRL M_SLEEP V_SLEEP_OFF, settle .sleep]

/-- `setChannelBrightness(ch, brt, cur)` (R102): sleep-disable, brightness, the current under its mask unless `cur` is
a sentinel, then the channel's enable bit. Abort at the first failure. -/
def setChannelBrightness (ch : Channel) (brt cur : Byte) : Step := fun s =>
  abortSeq
    ([sleepOff, memWrite (brtAddr ch) brt] ++
      (if cur < CUR_KEEP then [memUpdate (curAddr ch) M_CUR cur] else []) ++
      [memUpdate A_CTRL (enMask s.cfg ch) (enableValue (enMask s.cfg ch) brt)])
    s

/-- `getChannelBrightness(ch)` (R104): sleep-disable, then the brightness register; no read if the first failed. -/
def getChannelBrightness (ch : Channel) (s : State) : ReadResult × State :=
  match sleepOff s with
  | (.fail, s1) => (.fail, s1)
  | (.ok, s1) => memRead (brtAddr ch) s1

/-- The eleven steps of INIT's strict order from the filter write on, and the settle delay among them (R100). Channel
A precedes B; the currents are zeroed by unmasked writes. -/
def initSteps (c : Config) : List Step :=
  [ memWrite c.aFilter c.vFilter,
    memUpdate A_CONFIG M_PWM c.pwmMode,
    memWrite A_BOOST c.vBoost,
    memWrite A_CUR_A 0x00,
    memWrite A_CUR_B 0x00,
    memUpdate A_CTRL c.mLeda c.ledaMode,
    memUpdate A_CTRL c.mLedb c.ledbMode,
    settle .init,
    memWrite A_BRT_A c.initBrt.a,
    memWrite A_BRT_B c.initBrt.b ]

/-- The start of INIT (R100): ChipState created, the rail enabled and waited for. -/
def initStart (s : State) : State := (settle .rail ((s.setTblIdx 0).setLastPct 0).enableRail).2

/-- `INIT` (R100): aggregating. Any failed step makes it `InitError` and leaves `attached` at 0; nothing is undone. -/
def execInit (s : State) : Host.Outcome State Fault Refusal :=
  whenDetached s <|
    match aggregateSeq (initSteps s.cfg) (initStart s) with
    | (.fail, s1) => raise .init 0x00 s1
    | (.ok, s1) => respond .ok 0x00 (s1.setAttached true)

/-- `SETCH ch, brt, cur` (R103): a failure answers the brightness asked for. -/
def execSetch (ch : Channel) (brt cur : Byte) (s : State) : Host.Outcome State Fault Refusal :=
  whenAttached s (finish 0x00 brt (setChannelBrightness ch brt cur s))

/-- `GETCH ch` (R105). -/
def execGetch (ch : Channel) (s : State) : Host.Outcome State Fault Refusal :=
  whenAttached s (finishRead (getChannelBrightness ch s))

/-- SHUTDOWN's two writes (R106), A then B. -/
def shutdownSteps : List Step := [memWrite A_BRT_A 0x00, memWrite A_BRT_B 0x00]

/-- `SHUTDOWN` (R106): both writes are attempted, their results ignored. -/
def execShutdown (s : State) : Host.Outcome State Fault Refusal :=
  whenAttached s (respond .ok 0x00 ((aggregateSeq shutdownSteps s).2.setAttached false))

/-- `STAT` (R107). -/
def execStat (s : State) : Host.Outcome State Fault Refusal := respond .ok (statByte s) s

end Sys2Proof.Machine
end

