-- ==== Sys2Proof/Machine/FrontlightBlender.lean ====
section
/-! DEFINITION. FrontlightBlender (43_frontlight.md): applyPercentage and the commands FLSEL, FLAPPLY, FLIDX. -/

namespace Sys2Proof.Machine

/-- How applyPercentage ends (R131). -/
inductive ApplyResult where
  | ok
  | rangeFail
  | busFail
deriving DecidableEq, Repr

/-- A sequence's end as applyPercentage's. -/
def applied (p : BusResult × State) : ApplyResult × State :=
  match p with
  | (.ok, s) => (.ok, s)
  | (.fail, s) => (.busFail, s)

/-- The explicit full-off (R131): both channels to brightness 0 and current 0, no force-enable. -/
def fullOffSteps : List Step := [setChannelBrightness .A 0x00 0x00, setChannelBrightness .B 0x00 0x00]

/-- The blend at a non-zero percentage (R131): two ROM reads, A at current 4, B at current 7, then the force-enable of
both channels in one masked update. -/
def blendSteps (c : Config) (tblIdx percent : Byte) : List Step :=
  [ romRead,
    romRead,
    setChannelBrightness .A (flEntry c tblIdx.toNat .A (percent.toNat - 1)) FL_CUR_A,
    setChannelBrightness .B (flEntry c tblIdx.toNat .B (percent.toNat - 1)) FL_CUR_B,
    memUpdate A_CTRL (enMaskBoth c) (enMaskBoth c) ]

/-- `applyPercentage(percent)` (R131): the two range checks, then `last_pct`, then the bus. -/
def applyPercentage (percent : Byte) (s : State) : ApplyResult × State :=
  if 3 ≤ s.tblIdx then (.rangeFail, s)
  else if PCT_MAX < percent then (.rangeFail, s)
  else if percent = 0 then applied (abortSeq fullOffSteps (s.setLastPct percent))
  else applied (abortSeq (blendSteps s.cfg s.tblIdx percent) (s.setLastPct percent))

/-- The end of a command that applies `pct` (R132, 44_channelbackend.md R147). -/
def finishApply (pct : Byte) (p : ApplyResult × State) : Host.Outcome State Fault Refusal :=
  match p with
  | (.ok, s) => respond .ok 0x00 s
  | (.rangeFail, s) => raise .range 0x00 s
  | (.busFail, s) => raise .bus pct s

/-- `FLAPPLY pct` (R132). -/
def execFlapply (pct : Byte) (s : State) : Host.Outcome State Fault Refusal :=
  whenAttached s (finishApply pct (applyPercentage pct s))

/-- selectTable on a valid index (R133): the index is stored and the last percentage re-applied through the new table;
the re-application's result is discarded. -/
def selectTable (idx : Byte) (s : State) : State := (applyPercentage s.lastPct (s.setTblIdx idx)).2

/-- `FLSEL idx` (R133). -/
def execFlsel (idx : Byte) (s : State) : Host.Outcome State Fault Refusal :=
  whenAttached s (if 3 ≤ idx then raise .range 0x00 s else respond .ok 0x00 (selectTable idx s))

/-- `FLIDX` (R134). -/
def execFlidx (s : State) : Host.Outcome State Fault Refusal := whenAttached s (respond .ok s.tblIdx s)

end Sys2Proof.Machine
end

