-- ==== Sys2Proof/Machine/ChannelBackend.lean ====
section
/-! DEFINITION. ChannelBackend (44_channelbackend.md): the commands BLSET, BLGET, VSET, VGET, BLPCT. -/

namespace Sys2Proof.Machine

/-- The A or B backend's setBrightness (R145): the maximum brightness is checked before the bus is touched, then the
channel is set at the backend's full-scale current; `okValue` is the success response's value. -/
def backendSet (ch : Channel) (brt okValue : Byte) (s : State) : Host.Outcome State Fault Refusal :=
  if pick s.cfg.maxBrt ch < brt then raise .range 0x00 s
  else finish okValue brt (setChannelBrightness ch brt (pick s.cfg.fullScale ch) s)

/-- `BLSET ch, brt` (R145). -/
def execBlset (ch : Channel) (brt : Byte) (s : State) : Host.Outcome State Fault Refusal :=
  whenAttached s (backendSet ch brt 0x00 s)

/-- `BLGET ch` (R146). -/
def execBlget (ch : Channel) (s : State) : Host.Outcome State Fault Refusal :=
  whenAttached s (finishRead (getChannelBrightness ch s))

/-- `VSET pct` (R147). -/
def execVset (pct : Byte) (s : State) : Host.Outcome State Fault Refusal :=
  whenAttached s (finishApply pct (applyPercentage pct s))

/-- `VGET` (R148): no hardware read-back. -/
def execVget (s : State) : Host.Outcome State Fault Refusal := whenAttached s (respond .ok s.lastPct s)

/-- `BLPCT ch, pct` (R150): percentToRaw, then the backend's set; success answers the raw value. -/
def execBlpct (ch : Channel) (pct : Byte) (s : State) : Host.Outcome State Fault Refusal :=
  whenAttached s (backendSet ch (percentToRaw s.cfg ch pct) (percentToRaw s.cfg ch pct) (curveRead pct s))

end Sys2Proof.Machine
end

