-- ==== Sys2Proof/Machine/RegisterBus.lean ====
section
/-! DEFINITION. The raw access commands RD, WR, UPD (40_regbus.md R93 to R95). Legal in every lifecycle state; no
settle delay. -/

namespace Sys2Proof.Machine

/-- `RD addr` (R93). -/
def execRd (addr : Byte) (s : State) : Host.Outcome State Fault Refusal := finishRead (memRead addr s)

/-- `WR addr, value` (R94). -/
def execWr (addr value : Byte) (s : State) : Host.Outcome State Fault Refusal :=
  finish 0x00 0x00 (memWrite addr value s)

/-- `UPD addr, mask, value` (R95). -/
def execUpd (addr mask value : Byte) (s : State) : Host.Outcome State Fault Refusal :=
  finish 0x00 0x00 (memUpdate addr mask value s)

end Sys2Proof.Machine
end

