-- ==== Sys2Proof/Machine/Dispatch.lean ====
section
/-! DEFINITION. One arm per command: its meaning, called once. -/

namespace Sys2Proof.Machine

-- One command, from acceptance to response (30_encoding.md R82).
def exec (i : Instr) (s : State) : Host.Outcome State Fault Refusal :=
  match i with
  | .rd addr => Sys2Proof.Machine.execRd addr s
  | .wr addr value => Sys2Proof.Machine.execWr addr value s
  | .upd addr mask value => Sys2Proof.Machine.execUpd addr mask value s
  | .stat => Sys2Proof.Machine.execStat s
  | .init => Sys2Proof.Machine.execInit s
  | .setch ch brt cur => Sys2Proof.Machine.execSetch ch brt cur s
  | .getch ch => Sys2Proof.Machine.execGetch ch s
  | .shutdown => Sys2Proof.Machine.execShutdown s
  | .pct2raw ch pct => Sys2Proof.Machine.execPct2raw ch pct s
  | .flsel idx => Sys2Proof.Machine.execFlsel idx s
  | .flapply pct => Sys2Proof.Machine.execFlapply pct s
  | .flidx => Sys2Proof.Machine.execFlidx s
  | .blset ch brt => Sys2Proof.Machine.execBlset ch brt s
  | .blget ch => Sys2Proof.Machine.execBlget ch s
  | .vset pct => Sys2Proof.Machine.execVset pct s
  | .vget => Sys2Proof.Machine.execVget s
  | .blpct ch pct => Sys2Proof.Machine.execBlpct ch pct s

end Sys2Proof.Machine
end

