-- ==== Sys2Proof/Machine/Port.lean ====
section
/-! DEFINITION. The command port and the reset input: accepting a word (30_encoding.md R82), running it to its
response, resetting the block (70_reset_and_hazards.md R190), and building a machine from a configuration (00_scope.md
R7). -/

namespace Sys2Proof.Machine

/-- Acceptance: `CMD <- W`, `busy <- 1`, `step <- 0` (R82); the words that wait behind it are `rest`. -/
def accept (w : CommandWord) (rest : List CommandWord) (s : State) : State :=
  { s with cmd := w, busy := true, step := 0, port := rest }

/-- The accepted word runs to its response; a word that is no command raises `IllegalCommand` (60_exceptions.md R164). -/
def runWord (w : CommandWord) (s : State) : Host.Outcome State Fault Refusal :=
  match decode w with
  | .command i => exec i s
  | .illegal _ => raise .illegal 0x00 s

/-- The block is reset: every piece of block state takes its reset value (10_state.md R34). The configuration, the
chip (R192) and what the host and the transport hold stay; the reset input is no longer asserted. -/
def blockReset (s : State) : State :=
  { State.resetWith s.cfg with
    chip := s.chip, port := s.port, answers := s.answers, answerRest := s.answerRest }

/-- The first `n` draws of the transport. -/
def firstAnswers (n : Nat) (s : State) : List Answer :=
  s.answers.take n ++ List.replicate (n - s.answers.length) s.answerRest

/-- The draws as a command sees them that reset will cut after `n` transactions (R190): those `n` are answered as
drawn, the one in flight "may or may not have taken effect", and none after it has any. -/
def cutAnswers (n : Nat) (taken : Bool) (s : State) : State :=
  { s with
    answers := firstAnswers n s ++ [{ fails := true, taken := taken, status := none }],
    answerRest := { fails := true, taken := false, status := none } }

/-- The block is reset and the transport's coming draws are `answers` and then `rest`. -/
def resetAfterCut (answers : List Answer) (rest : Answer) (o : Host.Outcome State Fault Refusal) :
    Host.Outcome State Fault Refusal :=
  match o with
  | .next t => .next (blockReset { t with answers := answers, answerRest := rest })
  | .fault r => .fault r
  | .refused r => .refused r

/-- A command that reset cuts after `n` transactions (R190). What it leaves is what its transactions did to the chip:
it is run with the draws of `cutAnswers`, so that no later transaction has an effect, and the block, its response and
its trace with it, is reset (DEDUCED, notes/assumptions/10.md). -/
def runCut (n : Nat) (taken : Bool) (w : CommandWord) (s : State) : Host.Outcome State Fault Refusal :=
  resetAfterCut (s.answers.drop (n + 1)) s.answerRest (runWord w (cutAnswers n taken s))

/-- A machine built from a configuration: "a configuration that breaks one is refused" (00_scope.md R7). -/
def powerOn (c : Config) : Host.Outcome State Fault Refusal :=
  if c.wf then .next (State.resetWith c) else .refused .configuration

end Sys2Proof.Machine
end

