-- ==== Sys2Proof/Machine/Step.lean ====
section
/-! DEFINITION. One step: the next word of the command port, from acceptance to response, as one transition
(30_encoding.md R82), or the reset input (70_reset_and_hazards.md R190). -/

namespace Sys2Proof.Machine

/-- One step of the machine. With the reset input asserted while idle, or with nothing to accept, the block is reset.
With `busy = 1` an offered word is "not accepted yet" and with no word offered the block stays as it is (R82). -/
def step (s : State) : Host.Outcome State Fault Refusal :=
  match s.resetIn, s.busy, s.port with
  | some (.during n taken), false, w :: rest => runCut n taken w (accept w rest s)
  | some _, _, _ => .next (blockReset s)
  | none, false, w :: rest => runWord w (accept w rest s)
  | none, _, _ => .next s

/-- The state whose next step fetches and runs exactly the word given: it is offered on the port before every other,
to an idle block with no reset asserted. -/
def State.withFetchWord (s : State) (nbits w : Nat) : State :=
  { s with port := tableWord nbits w :: s.port, busy := false, resetIn := none }

end Sys2Proof.Machine
end

