-- ==== Sys2Proof/Safety.lean ====
section
/-! DEFINITION. What claims are stated in: the invariant of every run, the named premises about the transport, and the
shapes of an effect on the chip and on the trace. -/

namespace Sys2Proof.Machine

/-! ### Events -/

/-- A transaction the transport failed. -/
def Event.failed : Event → Bool
  | .rail1 => false
  | .delay _ => false
  | .rd _ (.ok _) => false
  | .rd _ .fail => true
  | .wr _ _ .ok => false
  | .wr _ _ .fail => true

/-- Two transactions that ask for the same: a read of one address, or a write of one byte to one address. -/
def Event.sameAccess : Event → Event → Bool
  | .rd a _, .rd b _ => a == b
  | .wr a v _, .wr b w _ => a == b && v == w
  | _, _ => false

/-- A transaction: a read or a write that was issued on the bus (10_state.md R22). -/
def Event.onBus : Event → Bool
  | .rail1 => false
  | .delay _ => false
  | .rd _ _ => true
  | .wr _ _ _ => true

/-- The address of a bus event is in the valid range (20_memory.md R41). -/
def Event.inRange : Event → Bool
  | .rail1 => true
  | .delay _ => true
  | .rd a _ => a ≤ ADDR_MAX
  | .wr a _ _ => a ≤ ADDR_MAX

/-- The bus events of one masked update (40_regbus.md R92): a failed read and no write, or a read and the write of the
masked byte. -/
def UpdateEvents (a mask v : Byte) (es : List Event) : Prop :=
  es = [.rd a .fail] ∨ ∃ b r, es = [.rd a (.ok b), .wr a (maskedByte b mask v) r]

/-! ### The invariant -/

/-- No command is in progress: the block is between two commands (10_state.md R15; the step index, notes 8). -/
def Idle (s : State) : Prop := s.busy = false ∧ s.step = 0

/-- What holds between any two commands of every run, for every pattern of failures: the configuration is well-formed
(00_scope.md R7), the chip's store is in canonical form, the block is idle, `tbl_idx <= 2` and `last_pct <= 100`
(70_reset_and_hazards.md R191), and every address in the trace is valid (20_memory.md R41). -/
structure Inv (s : State) : Prop where
  cfg : s.cfg.wf = true
  chip : Memory.wf s.chip = true
  idle : Idle s
  tblIdx : s.tblIdx ≤ 2
  lastPct : s.lastPct ≤ 100
  trace : ∀ e ∈ s.trace, e.inRange = true

/-- The constraints that 00_scope.md R7 puts on a configuration, one field for each: the curves do not decrease, the two
front-light entries the source gives, the enable masks non-zero, disjoint and clear of the sleep bit, the mode masks
disjoint and clear of it, and the filter-strength address none of the register addresses of R6 (that R6's bound 0x1F is
not one of them is notes/assumptions/12.md's). -/
structure MeetsConstraints (c : Config) : Prop where
  curve : ∀ (ch : Channel) (j k : Nat) (hj : j ≤ k) (hk : k < 77),
    (pick c.curve ch)[j]'(Nat.lt_of_le_of_lt hj hk) ≤ (pick c.curve ch)[k]
  givenA : c.fl[1].a[49] = 200
  givenB : c.fl[1].b[49] = 128
  enableNonZero : ∀ ch, enMask c ch ≠ 0
  enableDisjoint : c.mEn.a &&& c.mEn.b = 0
  enableAwake : ∀ ch, enMask c ch &&& 0x80 = 0
  modeDisjoint : c.mLeda &&& c.mLedb = 0
  modeAwakeA : c.mLeda &&& 0x80 = 0
  modeAwakeB : c.mLedb &&& 0x80 = 0
  filter : c.aFilter ∉ [0x00, 0x01, 0x02, 0x03, 0x04, 0x05, 0x06, 0x09, 0x0A, 0x0B, 0x12, 0x13]

/-! ### Premises about the transport -/

/-- Every read is answered by the reference target's own byte (20_memory.md R48); transactions may fail. -/
def PlainTarget (s : State) : Prop := (∀ x ∈ s.answers, x.status = none) ∧ s.answerRest.status = none

/-- The byte a read brings the caller, from the transport's draw and the target's byte; `none` where the transport
fails it or answers a negative status; "returns the low 8 bits otherwise" (20_memory.md R44). -/
def drawnByte (x : Answer) (target : Byte) : Option Byte :=
  if x.fails then none
  else
    match x.status with
    | none => some target
    | some w => if w.toInt < 0 then none else some (w.setWidth 8)

/-- "no transaction fails" (20_memory.md R46), with the reference target answering. -/
def FaultFree (s : State) : Prop :=
  PlainTarget s ∧ (∀ x ∈ s.answers, x.fails = false) ∧ s.answerRest.fails = false

/-! ### What transactions leave in the chip -/

/-- The chip after one transaction that was answered by the draw `x`: a write that succeeded holds, one that failed holds
if it was drawn so, and a read changes nothing (20_memory.md R47, R48). -/
def Event.landed (x : Answer) (m : Memory) : Event → Memory
  | .rail1 => m
  | .delay _ => m
  | .rd _ _ => m
  | .wr a v .ok => writeCell m a.toNat v
  | .wr a v .fail => if x.taken then writeCell m a.toNat v else m

/-- The chip after a list of transactions, answered by the draws `xs` and then by `rest`. -/
def chipAfter : List Event → List Answer → Answer → Memory → Memory
  | [], _, _, m => m
  | e :: es, xs, rest, m => chipAfter es xs.tail rest (e.landed (xs.headD rest) m)

/-- The chip with the transaction in flight when reset came, if there is one, taken or not (70_reset_and_hazards.md
R190). -/
def chipInFlight (taken : Bool) (e : Option Event) (m : Memory) : Memory :=
  match e with
  | some (.wr a v _) => if taken then writeCell m a.toNat v else m
  | some (.rd _ _) => m
  | some .rail1 => m
  | some (.delay _) => m
  | none => m

/-! ### Effects -/

/-- What no bus sequence writes: the configuration, the rail, the lifecycle bit, the blender's registers, the command
latch, and the host's and the transport's standing inputs. -/
structure SameBlock (s t : State) : Prop where
  cfg : t.cfg = s.cfg
  railEn : t.railEn = s.railEn
  attached : t.attached = s.attached
  tblIdx : t.tblIdx = s.tblIdx
  lastPct : t.lastPct = s.lastPct
  cmd : t.cmd = s.cmd
  port : t.port = s.port
  answerRest : t.answerRest = s.answerRest
  resetIn : t.resetIn = s.resetIn

/-- The control register after a sleep-disable (41_chipcontroller.md R101). -/
def awake (ctrl : Byte) : Byte := ctrl &&& 0x7F

/-- The control register after setChannelBrightness (R102): awake, the channel's enable set or cleared by the raw
brightness. -/
def ctrlAfterSet (c : Config) (ch : Channel) (brt ctrl : Byte) : Byte :=
  (awake ctrl &&& ~~~enMask c ch) ||| (if 4 ≤ brt then enMask c ch else 0)

/-- The current register after a setChannelBrightness with current `cur` (R102, 10_state.md R28). -/
def currentAfterSet (cur old : Byte) : Byte := if cur < 0x20 then (old &&& 0xE0) ||| cur else old

/-- The trace of a setChannelBrightness in which nothing failed (R102), from the control and current registers it
found. -/
def setEvents (c : Config) (ch : Channel) (brt cur ctrl old : Byte) : List Event :=
  [.rd 0x00 (.ok ctrl), .wr 0x00 (awake ctrl) .ok, .delay .sleep, .wr (brtAddr ch) brt .ok] ++
    (if cur < 0x20 then [.rd (curAddr ch) (.ok old), .wr (curAddr ch) (currentAfterSet cur old) .ok] else []) ++
    [.rd 0x00 (.ok (awake ctrl)), .wr 0x00 (ctrlAfterSet c ch brt ctrl) .ok]

/-- `t` is `s` after one setChannelBrightness in which nothing failed: the three registers of the channel, every other
register, the events, and the block's own registers. -/
structure ChannelDriven (s t : State) (ch : Channel) (brt cur : Byte) : Prop where
  brightness : t.reg (brtAddr ch) = brt
  current : t.reg (curAddr ch) = currentAfterSet cur (s.reg (curAddr ch))
  control : t.reg 0x00 = ctrlAfterSet s.cfg ch brt (s.reg 0x00)
  others : ∀ a, a ≠ 0x00 → a ≠ brtAddr ch → a ≠ curAddr ch → t.reg a = s.reg a
  trace : t.trace = s.trace ++ setEvents s.cfg ch brt cur (s.reg 0x00) (s.reg (curAddr ch))
  errlog : t.errlog = s.errlog
  block : SameBlock s t
  idle : Idle t

/-- The config register after INIT (41_chipcontroller.md R100 step 3): the PWM field from `CFG.pwmMode`, bits [7:3] kept. -/
def initConfig (s : State) : Byte := (s.reg 0x01 &&& 0xF8) ||| (s.cfg.pwmMode &&& 0x07)

/-- The control register after INIT's first mode update (R100 step 7). -/
def initCtrlA (s : State) : Byte := (s.reg 0x00 &&& ~~~s.cfg.mLeda) ||| (s.cfg.ledaMode &&& s.cfg.mLeda)

/-- The control register after the second (R100 step 8): "the second sees the first's result". -/
def initCtrlB (s : State) : Byte := (initCtrlA s &&& ~~~s.cfg.mLedb) ||| (s.cfg.ledbMode &&& s.cfg.mLedb)

/-- The trace of an INIT in which nothing failed (R100), from the registers it found. -/
def initEvents (s : State) : List Event :=
  [ .rail1, .delay .rail, .wr s.cfg.aFilter s.cfg.vFilter .ok,
    .rd 0x01 (.ok (s.reg 0x01)), .wr 0x01 (initConfig s) .ok,
    .wr 0x02 s.cfg.vBoost .ok, .wr 0x05 0x00 .ok, .wr 0x06 0x00 .ok,
    .rd 0x00 (.ok (s.reg 0x00)), .wr 0x00 (initCtrlA s) .ok,
    .rd 0x00 (.ok (initCtrlA s)), .wr 0x00 (initCtrlB s) .ok,
    .delay .init, .wr 0x03 s.cfg.initBrt.a .ok, .wr 0x04 s.cfg.initBrt.b .ok ]

/-- `t` is `s` after an applyPercentage in which nothing failed (43_frontlight.md R131), its own writes of `tbl_idx`
and `last_pct` aside: brightness `bA`, `bB` and current fields `cA`, `cB`, both enable masks `on` or off, asleep no
more, every bit and register outside these as before. -/
structure BothDriven (s t : State) (bA bB cA cB : Byte) (on : Bool) : Prop where
  brightnessA : t.reg 0x03 = bA
  brightnessB : t.reg 0x04 = bB
  currentA : t.reg 0x05 = (s.reg 0x05 &&& 0xE0) ||| cA
  currentB : t.reg 0x06 = (s.reg 0x06 &&& 0xE0) ||| cB
  control : t.reg 0x00 =
    (awake (s.reg 0x00) &&& ~~~enMaskBoth s.cfg) ||| (if on then enMaskBoth s.cfg else 0)
  others : ∀ a, a ∉ [0x00, 0x03, 0x04, 0x05, 0x06] → t.reg a = s.reg a
  length : t.trace.length = s.trace.length + (if on then 18 else 16)
  prior : s.trace <+: t.trace
  errlog : t.errlog = s.errlog
  cfg : t.cfg = s.cfg
  railEn : t.railEn = s.railEn
  attached : t.attached = s.attached
  cmd : t.cmd = s.cmd
  port : t.port = s.port
  idle : Idle t

/-- The state in which a command was turned away: the response, and nothing else. -/
def rejected (s : State) (response : ResponseWord) : State := { s with rsp := response, busy := false, step := 0 }

/-- The commands that need `attached = 1` (60_exceptions.md R165). -/
def needsAttached : Instr → Bool
  | .rd _ => false
  | .wr _ _ => false
  | .upd _ _ _ => false
  | .stat => false
  | .init => false
  | .setch _ _ _ => true
  | .getch _ => true
  | .shutdown => true
  | .pct2raw _ _ => false
  | .flsel _ => true
  | .flapply _ => true
  | .flidx => true
  | .blset _ _ => true
  | .blget _ => true
  | .vset _ => true
  | .vget => true
  | .blpct _ _ => true

/-- The lifecycle gate lets the command run (R165): INIT while detached, those of `needsAttached` while attached, the
rest always. -/
def admitted (i : Instr) (s : State) : Bool :=
  if needsAttached i then s.attached else if i = .init then !s.attached else true

/-- The command is stopped by the address check before or among its transactions (20_memory.md R41): a raw access above
0x1F, or an INIT that runs with the filter register's address above 0x1F. -/
def refusesAddress : Instr → State → Bool
  | .rd a, _ => 0x1F < a
  | .wr a _, _ => 0x1F < a
  | .upd a _ _, _ => 0x1F < a
  | .stat, _ => false
  | .init, s => !s.attached && 0x1F < s.cfg.aFilter
  | .setch _ _ _, _ => false
  | .getch _, _ => false
  | .shutdown, _ => false
  | .pct2raw _ _, _ => false
  | .flsel _, _ => false
  | .flapply _, _ => false
  | .flidx, _ => false
  | .blset _ _, _ => false
  | .blget _, _ => false
  | .vset _, _ => false
  | .vget, _ => false
  | .blpct _ _, _ => false

/-- The micro-steps of a command the lifecycle gate lets run, up to its `respond` (10_state.md R13). -/
def commandSequence (i : Instr) (s : State) : State :=
  match i with
  | .rd addr => (memRead addr s).2
  | .wr addr value => (memWrite addr value s).2
  | .upd addr mask value => (memUpdate addr mask value s).2
  | .stat => s
  | .init =>
    match aggregateSeq (initSteps s.cfg) (initStart s) with
    | (.ok, t) => t.setAttached true
    | (.fail, t) => t
  | .setch ch brt cur => (setChannelBrightness ch brt cur s).2
  | .getch ch => (getChannelBrightness ch s).2
  | .shutdown => (aggregateSeq shutdownSteps s).2.setAttached false
  | .pct2raw _ pct => curveRead pct s
  | .flsel idx => if 3 ≤ idx then s else selectTable idx s
  | .flapply pct => (applyPercentage pct s).2
  | .flidx => s
  | .blset ch brt =>
    if pick s.cfg.maxBrt ch < brt then s else (setChannelBrightness ch brt (pick s.cfg.fullScale ch) s).2
  | .blget ch => (getChannelBrightness ch s).2
  | .vset pct => (applyPercentage pct s).2
  | .vget => s
  | .blpct ch pct =>
    if pick s.cfg.maxBrt ch < percentToRaw s.cfg ch pct then curveRead pct s
    else (setChannelBrightness ch (percentToRaw s.cfg ch pct) (pick s.cfg.fullScale ch) (curveRead pct s)).2

/-- The state a command has reached when only its `respond` is left, with the step index at the number of micro-steps
done (10_state.md R13, R14). -/
def beforeResponse (i : Instr) (s : State) : State := if admitted i s then commandSequence i s else s

/-- The commands that "end at once and respond `ERR_BUS`" at the first failure (60_exceptions.md R161), with the
best-effort value each then answers. -/
def abortValue (c : Config) : Instr → Option Byte
  | .rd _ => some 0x00
  | .wr _ _ => some 0x00
  | .upd _ _ _ => some 0x00
  | .stat => none
  | .init => none
  | .setch _ brt _ => some brt
  | .getch _ => some 0x00
  | .shutdown => none
  | .pct2raw _ _ => none
  | .flsel _ => none
  | .flapply pct => some pct
  | .flidx => none
  | .blset _ brt => some brt
  | .blget _ => some 0x00
  | .vset pct => some pct
  | .vget => none
  | .blpct ch pct => some (percentToRaw c ch pct)

/-- The raw commands that may write any register with any byte (40_regbus.md R94, R95). -/
def rawWrite : Instr → Bool
  | .rd _ => false
  | .wr _ _ => true
  | .upd _ _ _ => true
  | .stat => false
  | .init => false
  | .setch _ _ _ => false
  | .getch _ => false
  | .shutdown => false
  | .pct2raw _ _ => false
  | .flsel _ => false
  | .flapply _ => false
  | .flidx => false
  | .blset _ _ => false
  | .blget _ => false
  | .vset _ => false
  | .vget => false
  | .blpct _ _ => false

/-- The status byte of the response (30_encoding.md R73). -/
def statusOf (s : State) : Byte := s.rsp.extractLsb' 8 8

/-- The value byte of the response (R73). -/
def valueOf (s : State) : Byte := s.rsp.extractLsb' 0 8

end Sys2Proof.Machine
end

