-- ==== Sys2Proof/Certificates/Slice0/Obligations.lean ====
section
/-! DEFINITION. The statements for the provers. Each docstring names the rule it formalises; where a clause rests on a
choice of the model it says so and names the log entry. -/

open Sys2Proof Sys2Proof.Machine

/-! ### Encoding (30_encoding.md) -/

/-- R77: encoding and decoding are inverse; a word with a known opcode that its row does not select is illegal; INIT is
exactly 0x10000000. -/
def Obligations.DecodeAndEncodeAreInverse : Prop :=
  (∀ i : Instr, decode (encode i) = .command i) ∧
  (∀ w : CommandWord, legalWord w = true → ∃ i, encode i = w ∧ ∀ j, encode j = w → j = i) ∧
  (∀ r ∈ opcodeRows, ∀ w : CommandWord, fieldOp w = fieldOp r.bits → r.selects w = false →
    ∃ why, decode w = .illegal why) ∧
  (∀ w : CommandWord, decode w = .command .init ↔ w = 0x10000000) ∧
  (∃ why, decode 0x10000001 = .illegal why)

/-- R75 (95_test_vectors.md L3): the decoder accepts exactly the words the table's rows select, and no two rows select
one word. -/
def Obligations.DecoderAcceptsExactlyTheTable : Prop :=
  (∀ w : CommandWord, (∃ i, decode w = .command i) ↔ legalWord w = true) ∧
  (∀ w : CommandWord, ∀ r ∈ opcodeRows, ∀ q ∈ opcodeRows, r.selects w = true → q.selects w = true → r = q)

/-- Words written out from the formats of R71 (95_test_vectors.md V-EN-1 to V-EN-18), one of each family. -/
def Obligations.SampleWordsDecodeAsTheSpecSays : Prop :=
  decode 0x01030000 = .command (.rd 0x03) ∧
  decode 0x02040080 = .command (.wr 0x04 0x80) ∧
  decode 0x030107FD = .command (.upd 0x01 0x07 0xFD) ∧
  decode 0x1100030A = .command (.setch .A 3 10) ∧
  decode 0x12010000 = .command (.getch .B) ∧
  decode 0x20010050 = .command (.pct2raw .B 80) ∧
  decode 0x31000032 = .command (.flapply 50) ∧
  decode 0x40000300 = .command (.blset .A 3) ∧
  decode 0x4401000A = .command (.blpct .B 10) ∧
  decode 0x45000000 = .illegal .unassignedOpcode

/-! ### The command port (30_encoding.md R82) -/

/-- R82: with no reset asserted and the block free, a step accepts the word offered (`CMD`, `busy`, `step` and the port
written), and runs the command it decodes to. -/
def Obligations.StepRunsTheDecodedCommand : Prop :=
  ∀ (s : State) (w : CommandWord) (rest : List CommandWord) (i : Instr),
    s.resetIn = none → s.busy = false → s.port = w :: rest → decode w = .command i →
    step s = exec i { s with cmd := w, busy := true, step := 0, port := rest }

/-- R76, R164: a word that matches no row answers `(ERR_ILLEGAL, 0x00)` and changes nothing but `CMD`, `busy` and `RSP`
of the block; the all-zero and the all-ones word are two of them. (`Idle` includes that the step index is 0 between
commands, notes/assumptions/8.md.) -/
def Obligations.IllegalWordAnswersAndChangesNothingElse : Prop :=
  (∀ (s : State) (w : CommandWord) (rest : List CommandWord),
    s.resetIn = none → Idle s → s.port = w :: rest → legalWord w = false →
    step s = .next { s with cmd := w, busy := false, rsp := 0x0400, port := rest }) ∧
  legalWord 0x00000000 = false ∧ legalWord 0xFFFFFFFF = false

/-- R82: a word offered to a busy block is held off, and an idle block that is offered none stays as it is. That a step of
a busy block leaves the WHOLE state as it is, so that a command in progress makes no micro-step, is the model's choice
and no rule's (notes/assumptions/7.md: a step is a whole command, so no step leads into a busy state). -/
def Obligations.PortHoldsOffAndIdleBlockRests : Prop :=
  ∀ s : State, s.resetIn = none → (s.busy = true ∨ s.port = []) → step s = .next s

/-- R55, R73, R74 (L10): every command responds, exactly once, with one of the six status codes, and leaves the block
free. (Every transaction is answered: 92_eei_decisions.md D32.) -/
def Obligations.EveryWordGetsAResponse : Prop :=
  (∀ (w : CommandWord) (s : State), ∃ t, runWord w s = .next t ∧ Idle t ∧ statusOf t ≤ 0x05) ∧
  (∀ s : State, ∃ t, step s = .next t)

/-! ### The transport and RegisterBus (20_memory.md, 40_regbus.md) -/

/-- The store: a written register reads back, the others and the canonical form are kept (R48). -/
def Obligations.StoreReadsBackWhatWasWritten : Prop :=
  ∀ (m : Memory) (a : Nat) (v : Byte), Memory.wf m = true → a ≤ 0x1F →
    readCell (writeCell m a v) a = v ∧ (∀ b, b ≠ a → readCell (writeCell m a v) b = readCell m b) ∧
    Memory.wf (writeCell m a v) = true

/-- R47: a failed write leaves the old value or the new one, as drawn, and no other register changes; a failed read
returns no data and changes no register. -/
def Obligations.FailedAccessLeavesOldOrNew : Prop :=
  ∀ (s : State) (a v : Byte), Memory.wf s.chip = true → s.nextAnswer.fails = true →
    (busWr a v s).1 = .fail ∧
    (s.nextAnswer.taken = true → (busWr a v s).2.reg a = v) ∧
    (s.nextAnswer.taken = false → (busWr a v s).2.reg a = s.reg a) ∧
    (∀ b, b ≠ a → (busWr a v s).2.reg b = s.reg b) ∧
    (memRead a s).1 = .fail ∧ (memRead a s).2.chip = s.chip

/-- R41: an address above 0x1F fails with no transaction, no event and `errlog` set, in the three operations, in RD, WR
and UPD, and for INIT's filter write, whose INIT then never succeeds and emits no event at that address. -/
def Obligations.AddressAboveRangeFailsWithoutTransaction : Prop :=
  (∀ (s : State) (a mask v : Byte), 0x1F < a →
    memRead a s = (.fail, { s with errlog := true }) ∧
    memWrite a v s = (.fail, { s with errlog := true }) ∧
    memUpdate a mask v s = (.fail, { s with errlog := true }) ∧
    exec (.rd a) s = .next (rejected { s with errlog := true } 0x0100) ∧
    exec (.wr a v) s = .next (rejected { s with errlog := true } 0x0100) ∧
    exec (.upd a mask v) s = .next (rejected { s with errlog := true } 0x0100)) ∧
  (∀ s : State, s.attached = false → 0x1F < s.cfg.aFilter →
    ∃ t, exec .init s = .next t ∧ t.rsp = 0x0200 ∧ t.attached = false ∧ t.errlog = true ∧
      ∃ es, t.trace = s.trace ++ es ∧ ∀ v r, Event.wr s.cfg.aFilter v r ∉ es)

/-- R93: RD of a valid address answers the byte the transport brings, or `(ERR_BUS, 0x00)`, with one read event and no
register changed. -/
def Obligations.RdReadsOneRegister : Prop :=
  ∀ (s : State) (addr : Byte), addr ≤ 0x1F →
    ∃ t, exec (.rd addr) s = .next t ∧ SameBlock s t ∧ Idle t ∧ t.tmp = s.tmp ∧ t.chip = s.chip ∧
      t.answers = s.answers.tail ∧
      (∀ b, drawnByte s.nextAnswer (s.reg addr) = some b →
        statusOf t = 0x00 ∧ valueOf t = b ∧ t.errlog = s.errlog ∧ t.trace = s.trace ++ [Event.rd addr (.ok b)]) ∧
      (drawnByte s.nextAnswer (s.reg addr) = none →
        t.rsp = 0x0100 ∧ t.errlog = true ∧ t.trace = s.trace ++ [Event.rd addr .fail])

/-- R94: WR of a valid address writes the whole byte, or answers `(ERR_BUS, 0x00)`, with one write event and no other
register changed. -/
def Obligations.WrWritesOneRegister : Prop :=
  ∀ (s : State) (addr value : Byte), Memory.wf s.chip = true → addr ≤ 0x1F →
    ∃ t, exec (.wr addr value) s = .next t ∧ SameBlock s t ∧ Idle t ∧ t.tmp = s.tmp ∧
      t.answers = s.answers.tail ∧ (∀ b, b ≠ addr → t.reg b = s.reg b) ∧
      (s.nextAnswer.fails = false →
        t.rsp = 0x0000 ∧ t.errlog = s.errlog ∧ t.reg addr = value ∧ t.trace = s.trace ++ [Event.wr addr value .ok]) ∧
      (s.nextAnswer.fails = true →
        t.rsp = 0x0100 ∧ t.errlog = true ∧ (t.reg addr = if s.nextAnswer.taken then value else s.reg addr) ∧
        t.trace = s.trace ++ [Event.wr addr value .fail])

/-- R92, R95: UPD of a valid address reads, then writes `(read & ~mask) | (value & mask)`, whatever the mask; a failed
read ends it without a write; a failed write answers `(ERR_BUS, 0x00)` too. -/
def Obligations.UpdReadsThenWritesTheMaskedByte : Prop :=
  ∀ (s : State) (addr mask value : Byte), Memory.wf s.chip = true → addr ≤ 0x1F →
    ∃ t, exec (.upd addr mask value) s = .next t ∧ SameBlock s t ∧ Idle t ∧
      (∀ b, b ≠ addr → t.reg b = s.reg b) ∧
      (drawnByte s.nextAnswer (s.reg addr) = none →
        t.rsp = 0x0100 ∧ t.errlog = true ∧ t.tmp = s.tmp ∧ t.reg addr = s.reg addr ∧
        t.trace = s.trace ++ [Event.rd addr .fail]) ∧
      (∀ b, drawnByte s.nextAnswer (s.reg addr) = some b →
        t.tmp = b ∧
        ((s.answers.tail.headD s.answerRest).fails = false →
          t.rsp = 0x0000 ∧ t.errlog = s.errlog ∧ t.reg addr = (b &&& ~~~mask) ||| (value &&& mask) ∧
          t.trace = s.trace ++
            [Event.rd addr (.ok b), Event.wr addr ((b &&& ~~~mask) ||| (value &&& mask)) .ok]) ∧
        ((s.answers.tail.headD s.answerRest).fails = true →
          t.rsp = 0x0100 ∧ t.errlog = true ∧
          (t.reg addr = if (s.answers.tail.headD s.answerRest).taken then (b &&& ~~~mask) ||| (value &&& mask)
            else s.reg addr) ∧
          t.trace = s.trace ++
            [Event.rd addr (.ok b), Event.wr addr ((b &&& ~~~mask) ||| (value &&& mask)) .fail]))

/-! ### ChipController (41_chipcontroller.md) -/

/-- R107: STAT answers the three flags in bits 0, 1, 2 and zeros above, in every state, and changes nothing else. -/
def Obligations.StatReportsTheFlags : Prop :=
  (∀ s : State, ∃ f : Byte, exec .stat s = .next (rejected s (0x00#8 ++ f)) ∧
    f.getLsbD 0 = s.attached ∧ f.getLsbD 1 = s.errlog ∧ f.getLsbD 2 = s.railEn ∧ f.extractLsb' 3 5 = 0) ∧
  (∀ s : State, s.attached = true → s.railEn = true → s.errlog = false →
    exec .stat s = .next (rejected s 0x0005)) ∧
  encode .stat = 0x04000000

/-- R100: INIT in which nothing fails emits its whole strict order, leaves the registers as the order says, keeps every
other register and the unnamed bits of control and config, creates ChipState and attaches, whatever values the
configuration holds. (`initCtrlB`, `initConfig`, `initEvents` are Safety.lean's.) -/
def Obligations.InitWithoutFailureAttaches : Prop :=
  ∀ s : State, FaultFree s → s.cfg.wf = true → Memory.wf s.chip = true → s.attached = false → s.cfg.aFilter ≤ 0x1F →
    ∃ t, exec .init s = .next t ∧ t.rsp = 0x0000 ∧ Idle t ∧ t.attached = true ∧ t.railEn = true ∧ t.tblIdx = 0 ∧
      t.lastPct = 0 ∧ t.errlog = s.errlog ∧ t.cfg = s.cfg ∧ t.cmd = s.cmd ∧ t.port = s.port ∧
      t.reg s.cfg.aFilter = s.cfg.vFilter ∧
      t.reg 0x01 = initConfig s ∧
      t.reg 0x02 = s.cfg.vBoost ∧ t.reg 0x05 = 0 ∧ t.reg 0x06 = 0 ∧
      t.reg 0x00 = initCtrlB s ∧
      t.reg 0x03 = s.cfg.initBrt.a ∧ t.reg 0x04 = s.cfg.initBrt.b ∧
      (∀ a, a ≠ s.cfg.aFilter → 0x06 < a → t.reg a = s.reg a) ∧
      t.trace = s.trace ++ initEvents s

/-- R162 (with R100 and 95_test_vectors.md L11): for every pattern of failures a detached INIT attempts all its steps in
order, both delays included; it reports `InitError` and stays detached exactly if a step failed; no other command
reports `InitError`. -/
def Obligations.InitAttemptsAllStepsAndAggregates : Prop :=
  (∀ s : State, s.attached = false →
    ∃ t, exec .init s = .next t ∧ t.railEn = true ∧ t.tblIdx = 0 ∧ t.lastPct = 0 ∧
      ∃ filter config boost curA curB leda ledb brtA brtB,
        t.trace = s.trace ++ ([Event.rail1, Event.delay DelayKind.rail] ++ filter ++ config ++
          [Event.wr 0x02 s.cfg.vBoost boost] ++
          [Event.wr 0x05 0x00 curA, Event.wr 0x06 0x00 curB] ++ leda ++ ledb ++ [Event.delay DelayKind.init] ++
          [Event.wr 0x03 s.cfg.initBrt.a brtA, Event.wr 0x04 s.cfg.initBrt.b brtB]) ∧
        (s.cfg.aFilter ≤ 0x1F → ∃ r, filter = [Event.wr s.cfg.aFilter s.cfg.vFilter r]) ∧
        (0x1F < s.cfg.aFilter → filter = []) ∧
        UpdateEvents 0x01 0x07 s.cfg.pwmMode config ∧
        UpdateEvents 0x00 s.cfg.mLeda s.cfg.ledaMode leda ∧
        UpdateEvents 0x00 s.cfg.mLedb s.cfg.ledbMode ledb ∧
        (((∀ e ∈ filter ++ config ++ leda ++ ledb, e.failed = false) ∧ boost = .ok ∧ curA = .ok ∧ curB = .ok ∧
            brtA = .ok ∧ brtB = .ok ∧ s.cfg.aFilter ≤ 0x1F) →
          t.rsp = 0x0000 ∧ t.attached = true ∧ t.errlog = s.errlog) ∧
        (¬ ((∀ e ∈ filter ++ config ++ leda ++ ledb, e.failed = false) ∧ boost = .ok ∧ curA = .ok ∧ curB = .ok ∧
            brtA = .ok ∧ brtB = .ok ∧ s.cfg.aFilter ≤ 0x1F) →
          t.rsp = 0x0200 ∧ t.attached = false ∧ t.errlog = true)) ∧
  (∀ (i : Instr) (s t : State), exec i s = .next t → statusOf t = 0x02 → i = .init)

/-- R103 with R102 (L5, L6): SETCH while attached and with nothing failing drives the channel. `ChannelDriven` says every
register's value, the events and what stays. -/
def Obligations.SetchDrivesTheChannel : Prop :=
  ∀ (s : State) (ch : Channel) (brt cur : Byte),
    FaultFree s → Memory.wf s.chip = true → s.attached = true →
    ∃ t, exec (.setch ch brt cur) s = .next t ∧ t.rsp = 0x0000 ∧ ChannelDriven s t ch brt cur

/-- R102, R103: with the enable masks of a well-formed configuration, after SETCH the channel's enable bits are set if
`brt >= 4` and clear below, the sleep bit is clear, and the other channel's enable bits are as before. -/
def Obligations.SetchSetsOrClearsTheEnableBit : Prop :=
  ∀ (s t : State) (ch : Channel) (brt cur : Byte),
    FaultFree s → Memory.wf s.chip = true → s.cfg.wf = true → s.attached = true →
    exec (.setch ch brt cur) s = .next t →
    (4 ≤ brt → t.reg 0x00 &&& enMask s.cfg ch = enMask s.cfg ch) ∧
    (brt < 4 → t.reg 0x00 &&& enMask s.cfg ch = 0) ∧
    t.reg 0x00 &&& 0x80 = 0 ∧
    (∀ d, d ≠ ch → t.reg 0x00 &&& enMask s.cfg d = s.reg 0x00 &&& enMask s.cfg d)

/-- R104, R105: GETCH while attached and with nothing failing clears the sleep bit, settles and answers the brightness
register; no other register changes. -/
def Obligations.GetchReadsTheBrightness : Prop :=
  ∀ (s : State) (ch : Channel), FaultFree s → Memory.wf s.chip = true → s.attached = true →
    ∃ t, exec (.getch ch) s = .next t ∧ statusOf t = 0x00 ∧ valueOf t = s.reg (brtAddr ch) ∧ SameBlock s t ∧ Idle t ∧
      t.errlog = s.errlog ∧ t.reg 0x00 = awake (s.reg 0x00) ∧ (∀ a, a ≠ 0x00 → t.reg a = s.reg a) ∧
      t.trace = s.trace ++ [Event.rd 0x00 (.ok (s.reg 0x00)), Event.wr 0x00 (awake (s.reg 0x00)) .ok,
        Event.delay DelayKind.sleep, Event.rd (brtAddr ch) (.ok (s.reg (brtAddr ch)))]

/-- R105 (L4): SETCH then GETCH of the channel answers the brightness set, when nothing fails. -/
def Obligations.SetThenGetReturnsTheBrightness : Prop :=
  ∀ (s t u : State) (ch : Channel) (brt cur : Byte),
    FaultFree s → Memory.wf s.chip = true → s.attached = true →
    exec (.setch ch brt cur) s = .next t → exec (.getch ch) t = .next u → statusOf u = 0x00 ∧ valueOf u = brt

/-- R106 (L12): SHUTDOWN while attached attempts both writes of 0x00, A then B, for every pattern of failures, answers
`(OK, 0x00)` and detaches; a register whose write succeeded holds 0, one whose write failed holds its old value or 0;
nothing else of the chip and of the block changes but `errlog`. -/
def Obligations.ShutdownAttemptsBothWritesAndDetaches : Prop :=
  ∀ s : State, Memory.wf s.chip = true → s.attached = true →
    ∃ t rA rB, exec .shutdown s = .next t ∧ t.rsp = 0x0000 ∧ t.attached = false ∧ Idle t ∧
      t.trace = s.trace ++ [Event.wr 0x03 0x00 rA, Event.wr 0x04 0x00 rB] ∧
      (rA = .ok → t.reg 0x03 = 0) ∧ (rB = .ok → t.reg 0x04 = 0) ∧
      (t.reg 0x03 = 0 ∨ t.reg 0x03 = s.reg 0x03) ∧ (t.reg 0x04 = 0 ∨ t.reg 0x04 = s.reg 0x04) ∧
      (∀ a, a ≠ 0x03 → a ≠ 0x04 → t.reg a = s.reg a) ∧
      (t.errlog = true ↔ s.errlog = true ∨ rA = .fail ∨ rB = .fail) ∧
      t.railEn = s.railEn ∧ t.tblIdx = s.tblIdx ∧ t.lastPct = s.lastPct ∧ t.tmp = s.tmp ∧ t.cfg = s.cfg ∧
      t.cmd = s.cmd ∧ t.port = s.port

/-! ### BrightnessCurve (42_brightnesscurve.md) -/

/-- R120: zero law, lookup, clamp law. -/
def Obligations.PercentToRawLooksUpAndClamps : Prop :=
  ∀ (c : Config) (ch : Channel) (p : Byte),
    (p = 0 → percentToRaw c ch p = 0x00) ∧
    (∀ k (h : k < 77), p.toNat = k + 1 → percentToRaw c ch p = (pick c.curve ch)[k]) ∧
    (77 < p → percentToRaw c ch p = percentToRaw c ch 77 ∧ percentToRaw c ch p = (pick c.curve ch)[76])

/-- R122: the tables of a well-formed configuration are non-decreasing, so is the lookup over 1..255 and from 0 on; the
zero and clamp laws; the tables constrain each other in nothing, and an entry may lie below the on/off boundary. -/
def Obligations.CurveIsMonotone : Prop :=
  (∀ (c : Config) (ch : Channel), c.wf = true →
    (∀ j k (hj : j ≤ k) (hk : k < 77), (pick c.curve ch)[j]'(Nat.lt_of_le_of_lt hj hk) ≤ (pick c.curve ch)[k]) ∧
    (∀ p q : Byte, 1 ≤ p → p ≤ q → percentToRaw c ch p ≤ percentToRaw c ch q) ∧
    percentToRaw c ch 0 ≤ percentToRaw c ch 1 ∧ percentToRaw c ch 0 = 0 ∧
    (∀ p : Byte, 78 ≤ p → percentToRaw c ch p = (pick c.curve ch)[76])) ∧
  (∀ c d : Config, c.wf = true → d.wf = true →
    ({ c with curve := { a := c.curve.a, b := d.curve.b } } : Config).wf = true) ∧
  (∀ ch, ∃ c : Config, c.wf = true ∧ (pick c.curve ch)[0] < 4)

/-- R121: PCT2RAW answers the lookup in every state and changes nothing but the response. -/
def Obligations.Pct2rawAnswersTheLookup : Prop :=
  ∀ (s : State) (ch : Channel) (pct : Byte),
    exec (.pct2raw ch pct) s = .next (rejected s (0x00#8 ++ percentToRaw s.cfg ch pct))

/-! ### FrontlightBlender (43_frontlight.md) -/

/-- R131, R132, R135 (L7): FLAPPLY of 1..100 while attached and with nothing failing drives both channels from the
selected table at currents 4 and 7 and leaves both enable masks set, whatever the brightness values. -/
def Obligations.FlapplyBlendsBothChannels : Prop :=
  ∀ (s : State) (pct : Byte) (t k : Nat) (ht : t < 3) (hk : k < 100),
    FaultFree s → Memory.wf s.chip = true → s.attached = true → s.tblIdx.toNat = t → pct.toNat = k + 1 →
    ∃ u, exec (.flapply pct) s = .next u ∧ u.rsp = 0x0000 ∧ u.lastPct = pct ∧ u.tblIdx = s.tblIdx ∧
      BothDriven s u (s.cfg.fl[t].a[k]) (s.cfg.fl[t].b[k]) 4 7 true

/-- R131, R132, R135 (L8): FLAPPLY 0 is the full-off: brightness and current field 0 on both channels, both enable masks
clear, 16 events. -/
def Obligations.FlapplyZeroIsFullOff : Prop :=
  ∀ s : State, FaultFree s → Memory.wf s.chip = true → s.attached = true → s.tblIdx < 3 →
    ∃ u, exec (.flapply 0) s = .next u ∧ u.rsp = 0x0000 ∧ u.lastPct = 0 ∧ u.tblIdx = s.tblIdx ∧
      BothDriven s u 0 0 0 0 false

/-- R133: FLSEL of a valid index while attached answers `(OK, 0x00)` for every pattern of failures, stores the index,
keeps `last_pct`, and leaves the chip, the trace and `errlog` as FLAPPLY of the last percentage through the new table
does. -/
def Obligations.FlselStoresAndReapplies : Prop :=
  ∀ (s : State) (idx : Byte), s.attached = true → idx < 3 → s.lastPct ≤ 100 →
    ∃ t u, exec (.flsel idx) s = .next t ∧ exec (.flapply s.lastPct) { s with tblIdx := idx } = .next u ∧
      t.rsp = 0x0000 ∧ t.tblIdx = idx ∧ t.lastPct = s.lastPct ∧ Idle t ∧
      t.chip = u.chip ∧ t.trace = u.trace ∧ t.errlog = u.errlog ∧
      t.railEn = s.railEn ∧ t.attached = s.attached ∧ t.cfg = s.cfg ∧ t.cmd = s.cmd ∧ t.port = s.port ∧
      (∀ a, a ∉ [0x00, 0x03, 0x04, 0x05, 0x06] → t.reg a = s.reg a)

/-- R134: FLIDX while attached answers `tbl_idx` and changes nothing but the response. -/
def Obligations.FlidxAnswersTheTableIndex : Prop :=
  ∀ s : State, s.attached = true → exec .flidx s = .next (rejected s (0x00#8 ++ s.tblIdx))

/-! ### ChannelBackend (44_channelbackend.md) -/

/-- R145: BLSET within the channel's maximum drives it at its full-scale current, when nothing fails. -/
def Obligations.BlsetDrivesAtFullScale : Prop :=
  ∀ (s : State) (ch : Channel) (brt : Byte),
    FaultFree s → Memory.wf s.chip = true → s.attached = true → brt ≤ pick s.cfg.maxBrt ch →
    ∃ t, exec (.blset ch brt) s = .next t ∧ t.rsp = 0x0000 ∧ ChannelDriven s t ch brt (pick s.cfg.fullScale ch)

/-- R150: BLPCT drives the channel to the looked-up raw value, within the channel's maximum, and answers that value, when
nothing fails. -/
def Obligations.BlpctDrivesToTheLookedUpValue : Prop :=
  ∀ (s : State) (ch : Channel) (pct : Byte),
    FaultFree s → Memory.wf s.chip = true → s.attached = true →
    percentToRaw s.cfg ch pct ≤ pick s.cfg.maxBrt ch →
    ∃ t, exec (.blpct ch pct) s = .next t ∧ statusOf t = 0x00 ∧ valueOf t = percentToRaw s.cfg ch pct ∧
      ChannelDriven s t ch (percentToRaw s.cfg ch pct) (pick s.cfg.fullScale ch)

/-- R146: BLGET while attached and with nothing failing answers the brightness register; and it is GETCH in every state
and for every pattern of failures. -/
def Obligations.BlgetReadsTheBrightness : Prop :=
  (∀ (s : State) (ch : Channel), FaultFree s → Memory.wf s.chip = true → s.attached = true →
    ∃ t, exec (.blget ch) s = .next t ∧ statusOf t = 0x00 ∧ valueOf t = s.reg (brtAddr ch) ∧
      t.reg 0x00 = awake (s.reg 0x00) ∧ (∀ a, a ≠ 0x00 → t.reg a = s.reg a) ∧ SameBlock s t ∧ Idle t ∧
      t.errlog = s.errlog) ∧
  (∀ (s : State) (ch : Channel), exec (.blget ch) s = exec (.getch ch) s)

/-- R147: VSET of 1..100 while attached and with nothing failing blends both channels; and it is FLAPPLY in every state
and for every pattern of failures. -/
def Obligations.VsetBlendsBothChannels : Prop :=
  (∀ (s : State) (pct : Byte) (t k : Nat) (ht : t < 3) (hk : k < 100),
    FaultFree s → Memory.wf s.chip = true → s.attached = true → s.tblIdx.toNat = t → pct.toNat = k + 1 →
    ∃ u, exec (.vset pct) s = .next u ∧ u.rsp = 0x0000 ∧ u.lastPct = pct ∧ u.tblIdx = s.tblIdx ∧
      BothDriven s u (s.cfg.fl[t].a[k]) (s.cfg.fl[t].b[k]) 4 7 true) ∧
  (∀ (s : State) (pct : Byte), exec (.vset pct) s = exec (.flapply pct) s)

/-- R148: VGET while attached answers `last_pct` and changes nothing but the response. -/
def Obligations.VgetAnswersTheLastPercentage : Prop :=
  ∀ s : State, s.attached = true → exec .vget s = .next (rejected s (0x00#8 ++ s.lastPct))

/-! ### Errors (60_exceptions.md) -/

/-- R165: a gated command in the other lifecycle state answers `(ERR_STATE, 0x00)` and does nothing else; a command the
gate admits never answers `ERR_STATE`; RD, WR, UPD, STAT and PCT2RAW are always admitted. -/
def Obligations.LifecycleGate : Prop :=
  (∀ (i : Instr) (s : State), admitted i s = false → exec i s = .next (rejected s 0x0500)) ∧
  (∀ (i : Instr) (s : State), admitted i s = true → ∃ t, exec i s = .next t ∧ statusOf t ≠ 0x05) ∧
  (∀ (s : State) (a m v : Byte) (ch : Channel), admitted (.rd a) s = true ∧ admitted (.wr a v) s = true ∧
    admitted (.upd a m v) s = true ∧ admitted .stat s = true ∧ admitted (.pct2raw ch v) s = true) ∧
  (∀ s : State, admitted .init s = !s.attached) ∧
  (∀ (s : State) (b c : Byte) (ch : Channel), ∀ i ∈
    [.setch ch b c, .getch ch, .shutdown, .flsel b, .flapply b, .flidx, .blset ch b, .blget ch, .vset b, .vget,
      .blpct ch b], admitted i s = s.attached)

/-- R163: the causes of `RangeError` while attached; in each the response is `(ERR_RANGE, 0x00)` and nothing else changes;
no step brings about `tbl_idx >= 3`; no percentage makes PCT2RAW or BLPCT report it. -/
def Obligations.RangeErrorsTouchNothing : Prop :=
  (∀ (s : State) (idx : Byte), s.attached = true → 3 ≤ idx → exec (.flsel idx) s = .next (rejected s 0x0300)) ∧
  (∀ (s : State) (pct : Byte), s.attached = true → (100 < pct ∨ 3 ≤ s.tblIdx) →
    exec (.flapply pct) s = .next (rejected s 0x0300) ∧ exec (.vset pct) s = .next (rejected s 0x0300)) ∧
  (∀ (s : State) (ch : Channel) (brt : Byte), s.attached = true → pick s.cfg.maxBrt ch < brt →
    exec (.blset ch brt) s = .next (rejected s 0x0300)) ∧
  (∀ (s : State) (ch : Channel) (pct : Byte), s.attached = true →
    pick s.cfg.maxBrt ch < percentToRaw s.cfg ch pct → exec (.blpct ch pct) s = .next (rejected s 0x0300)) ∧
  (∀ s t : State, s.tblIdx < 3 → step s = .next t → t.tblIdx < 3) ∧
  (∀ (s t : State) (ch : Channel) (pct : Byte), exec (.pct2raw ch pct) s = .next t → statusOf t ≠ 0x03) ∧
  (∀ (s t : State) (ch : Channel) (pct : Byte), pick s.cfg.maxBrt ch = 0xFF →
    exec (.blpct ch pct) s = .next t → statusOf t ≠ 0x03)

/-- R161, R166 (L11): for every pattern of failures, an abort-at-first-failure command ends at the first failed
transaction: the trace it leaves has no failed event and the response is not `ERR_BUS`, or its last event and no other
failed and the response is `ERR_BUS` with the command's best-effort value. (Raw accesses above 0x1F aside: they have no
event, `AddressAboveRangeFailsWithoutTransaction`.) -/
def Obligations.AbortCommandsStopAtTheFirstFailure : Prop :=
  ∀ (i : Instr) (s t : State) (v : Byte), abortValue s.cfg i = some v → refusesAddress i s = false →
    exec i s = .next t →
    ∃ es, t.trace = s.trace ++ es ∧
      ((statusOf t ≠ 0x01 ∧ t.errlog = s.errlog ∧ ∀ e ∈ es, e.failed = false) ∨
        (statusOf t = 0x01 ∧ valueOf t = v ∧ t.errlog = true ∧
          ∃ pre last, es = pre ++ [last] ∧ last.failed = true ∧ ∀ e ∈ pre, e.failed = false))

/-- R166 (L11), with the reference target: the trace of an abort-at-first-failure command is the prefix of the fault-free
trace of the same command up to and including the failed transaction; with none failed it is that trace. -/
def Obligations.AbortedTraceIsAPrefixOfTheFaultFreeTrace : Prop :=
  ∀ (i : Instr) (s t u : State) (v : Byte), abortValue s.cfg i = some v → PlainTarget s →
    exec i s = .next t → exec i { s with answers := [], answerRest := Answer.good } = .next u →
    ∃ es fs, t.trace = s.trace ++ es ∧ u.trace = s.trace ++ fs ∧
      (es = fs ∨
        ∃ pre last last' rest, es = pre ++ [last] ∧ fs = pre ++ last' :: rest ∧ last.failed = true ∧
          last.sameAccess last' = true)

/-- L10: a response of `ERR_RANGE`, `ERR_ILLEGAL` or `ERR_STATE` comes with no event, no register changed and every
piece of the block's state but `RSP`, `busy` and the step index as before. -/
def Obligations.RejectionsLeaveEverythingAsBefore : Prop :=
  ∀ (w : CommandWord) (s t : State), runWord w s = .next t → statusOf t ∈ [0x03, 0x04, 0x05] →
    t = rejected s t.rsp ∧ valueOf t = 0

/-! ### The block's registers (10_state.md) -/

/-- R16: `errlog` is 1 after a command exactly if it was before or a `BusError` occurred inside (a failed transaction or
an address above 0x1F), whatever the command answered; so no command clears it; it is 0 at reset, reset clears it, and
STAT reads it. -/
def Obligations.ErrlogRecordsEveryBusError : Prop :=
  (∀ (i : Instr) (s t : State), exec i s = .next t →
    ∃ es, t.trace = s.trace ++ es ∧
      (t.errlog = true ↔ s.errlog = true ∨ (∃ e ∈ es, e.failed = true) ∨ refusesAddress i s = true)) ∧
  (∀ s t : State, s.errlog = true → s.resetIn = none → step s = .next t → t.errlog = true) ∧
  State.reset.errlog = false ∧ (∀ s, (blockReset s).errlog = false) ∧
  (∀ s t : State, exec .stat s = .next t → t.rsp.getLsbD 1 = s.errlog)

/-- R17: `rail_en` is set by an INIT that runs, whatever then fails, and written by no other command; only reset clears
it; it is 0 at reset. -/
def Obligations.RailIsSetByInitAlone : Prop :=
  (∀ (i : Instr) (s t : State), exec i s = .next t →
    (t.railEn = true ↔ s.railEn = true ∨ (i = .init ∧ s.attached = false))) ∧
  (∀ s t : State, s.railEn = true → s.resetIn = none → step s = .next t → t.railEn = true) ∧
  State.reset.railEn = false ∧ (∀ s, (blockReset s).railEn = false)

/-- R18: `attached` is set by an INIT that answers OK, left at 0 by one that answers `InitError`, cleared by SHUTDOWN, and
written by no other command; it is 0 at reset. -/
def Obligations.AttachedFollowsInitAndShutdown : Prop :=
  (∀ (i : Instr) (s t : State), exec i s = .next t → i ≠ .init → i ≠ .shutdown → t.attached = s.attached) ∧
  (∀ s t : State, s.attached = false → exec .init s = .next t →
    (t.attached = true ↔ statusOf t = 0x00) ∧ (statusOf t = 0x00 ∨ t.rsp = 0x0200)) ∧
  (∀ s t : State, exec .shutdown s = .next t → t.attached = false) ∧
  State.reset.attached = false ∧ (∀ s, (blockReset s).attached = false)

/-- R20, R21: which command writes `tbl_idx` and `last_pct`, and with what, for every pattern of failures. -/
def Obligations.BlenderRegistersChangeOnlyAsStated : Prop :=
  ∀ (i : Instr) (s t : State), exec i s = .next t →
    (i = .init → s.attached = false → t.tblIdx = 0 ∧ t.lastPct = 0) ∧
    (∀ idx, i = .flsel idx → s.attached = true → idx < 3 → t.tblIdx = idx ∧ t.lastPct = s.lastPct) ∧
    (∀ pct, (i = .flapply pct ∨ i = .vset pct) → s.attached = true → s.tblIdx < 3 → pct ≤ 100 →
      t.lastPct = pct ∧ t.tblIdx = s.tblIdx) ∧
    ((i ≠ .init ∧ (∀ idx, i ≠ .flsel idx) ∧ (∀ pct, i ≠ .flapply pct ∧ i ≠ .vset pct)) →
      t.tblIdx = s.tblIdx ∧ t.lastPct = s.lastPct)

/-- R19: no step, a reset included, changes the configuration. -/
def Obligations.ConfigurationIsConstant : Prop := ∀ s t : State, step s = .next t → t.cfg = s.cfg

/-- R11, R34: `CMD`, `RSP` and `TMP` are "never read before written": whatever they hold before a command, every other
piece of the state after it is the same. So the values State.reset gives them (notes/assumptions/2.md) show nowhere. -/
def Obligations.UnspecifiedLatchesAreNeverRead : Prop :=
  ∀ (i : Instr) (s t : State) (c : CommandWord) (r : ResponseWord) (b : Byte), exec i s = .next t →
    ∃ u, exec i { s with cmd := c, rsp := r, tmp := b } = .next u ∧ { u with cmd := t.cmd, tmp := t.tmp } = t

/-- R22: the trace only grows, and nothing depends on what it holds. -/
def Obligations.TraceIsWriteOnly : Prop :=
  ∀ (i : Instr) (s t : State), exec i s = .next t →
    ∃ es, t.trace = s.trace ++ es ∧
      ∀ old, exec i { s with trace := old } = .next { t with trace := old ++ es }

/-- R13: no command, whatever fails, takes more than 23 micro-steps with its response, that is 22 before it; FLSEL with a
valid index, re-applying a non-zero percentage without failure, takes that many. (`beforeResponse` is the state before
the response, which sets the step index to 0. What the index counts is the model's reading, notes/assumptions/8.md.) -/
def Obligations.LongestSequenceHasTwentyThreeMicroSteps : Prop :=
  (∀ (i : Instr) (s : State), ∃ st v, exec i s = .next ((beforeResponse i s).responded st v) ∧
    (beforeResponse i s).step ≤ s.step + 22) ∧
  (∀ (idx : Byte) (s : State), FaultFree s → s.attached = true → idx < 3 → 1 ≤ s.lastPct → s.lastPct ≤ 100 →
    (beforeResponse (.flsel idx) s).step = s.step + 22)

/-! ### The whole machine -/

/-- The invariant holds at reset. The configuration and the chip's contents there are the model's choices
(notes/assumptions/1.md, 3.md). -/
def Obligations.InvariantHoldsAtReset : Prop := Inv State.reset

/-- R191, R41, R7: every step keeps the invariant, for every pattern of failures, word offered and reset. -/
def Obligations.EveryStepKeepsTheInvariant : Prop := ∀ s t : State, Inv s → step s = .next t → Inv t

/-- R191: the reset values, and the two bounds kept by every step. -/
def Obligations.ResetValuesAndBounds : Prop :=
  (∀ c : Config, (State.resetWith c).busy = false ∧ (State.resetWith c).errlog = false ∧
    (State.resetWith c).railEn = false ∧ (State.resetWith c).attached = false ∧ (State.resetWith c).tblIdx = 0 ∧
    (State.resetWith c).lastPct = 0 ∧ (State.resetWith c).step = 0 ∧ (State.resetWith c).trace = []) ∧
  (∀ s t : State, s.tblIdx ≤ 2 → step s = .next t → t.tblIdx ≤ 2) ∧
  (∀ s t : State, s.lastPct ≤ 100 → step s = .next t → t.lastPct ≤ 100)

/-- R7: a configuration that meets every constraint of R7 is built in, and one that breaks any is refused.
(`MeetsConstraints` spells them out; that 0x1F is a legal filter address is notes/assumptions/12.md's.) -/
def Obligations.OnlyWellFormedConfigurationsPowerOn : Prop :=
  ∀ c : Config, (MeetsConstraints c → powerOn c = .next (State.resetWith c)) ∧
    (¬ MeetsConstraints c → powerOn c = .refused .configuration)

/-- R190, R192: a reset asserted while idle resets the block and not the chip, and the word offered stays offered. -/
def Obligations.IdleResetSparesTheChip : Prop :=
  ∀ s : State, s.resetIn = some .idle →
    ∃ t, step s = .next t ∧ t.chip = s.chip ∧ t.port = s.port ∧ t.cfg = s.cfg ∧ t.resetIn = none ∧ Idle t ∧
      t.errlog = false ∧ t.railEn = false ∧ t.attached = false ∧ t.tblIdx = 0 ∧ t.lastPct = 0 ∧ t.trace = []

/-- R190: a reset during a command ends it without a response, at its reset values; "transactions already issued stay
issued, the one in flight may or may not have taken effect, and no later one is issued": the chip is what the first `n`
transactions of the uncut command, answered as drawn, leave of it, and the one after them if there is one and it was
taken. So a cut before the first leaves the chip as it was, a cut past the last leaves the uncut command's chip, and a
cut with a successful transaction in flight that was taken is the cut after it. The form of the reset input is the
model's (notes/assumptions/10.md). -/
def Obligations.ResetCutsACommandAtATransaction : Prop :=
  ∀ (s : State) (w : CommandWord) (rest : List CommandWord) (n : Nat),
    s.busy = false → s.port = w :: rest →
    (∀ taken, ∃ t, step { s with resetIn := some (.during n taken) } = .next t ∧ t.port = rest ∧ t.cfg = s.cfg ∧
      t.resetIn = none ∧ Idle t ∧ t.errlog = false ∧ t.railEn = false ∧ t.attached = false ∧ t.tblIdx = 0 ∧
      t.lastPct = 0 ∧ t.trace = [] ∧ (n = 0 → taken = false → t.chip = s.chip)) ∧
    (∀ taken, ∃ t u es, step { s with resetIn := some (.during n taken) } = .next t ∧
      step { s with resetIn := none } = .next u ∧ u.trace = s.trace ++ es ∧
      t.chip = chipInFlight taken (es.filter Event.onBus)[n]?
        (chipAfter ((es.filter Event.onBus).take n) s.answers s.answerRest s.chip) ∧
      ((es.filter Event.onBus).length ≤ n → t.chip = u.chip)) ∧
    (∀ t u, (s.answers.getD n s.answerRest).fails = false →
      step { s with resetIn := some (.during n true) } = .next t →
      step { s with resetIn := some (.during (n + 1) false) } = .next u → t.chip = u.chip)

/-- R101 (L14): whatever fails, a setChannelBrightness or getChannelBrightness begins with the sleep-disable's masked
update and, if that succeeded, its settle delay, before any other event. -/
def Obligations.SleepDisableSettlesBeforeTheNextAccess : Prop :=
  ∀ (s : State) (ch : Channel) (brt cur : Byte),
    ∀ t ∈ [(setChannelBrightness ch brt cur s).2, (getChannelBrightness ch s).2],
      t.trace = s.trace ++ [Event.rd 0x00 .fail] ∨
      (∃ b, t.trace = s.trace ++ [Event.rd 0x00 (.ok b), Event.wr 0x00 (b &&& 0x7F) .fail]) ∨
      (∃ b es, t.trace = s.trace ++
        ([Event.rd 0x00 (.ok b), Event.wr 0x00 (b &&& 0x7F) .ok, Event.delay DelayKind.sleep] ++ es))

/-- R101, R176: no command but a raw write ever sets the sleep bit, whatever fails, with a well-formed configuration and
the reference target. -/
def Obligations.NoSequenceSetsTheSleepBit : Prop :=
  ∀ (i : Instr) (s t : State), rawWrite i = false → PlainTarget s → Memory.wf s.chip = true → s.cfg.wf = true →
    exec i s = .next t → s.reg 0x00 &&& 0x80 = 0 → t.reg 0x00 &&& 0x80 = 0

/-- R198: re-issuing the same command without failure, after any pattern of failures, brings the reference target's
registers to what the command alone would have brought them to; every command but SHUTDOWN, which detaches whatever
fails, so that its repetition is turned away (R106, R165). -/
def Obligations.ReissueRepairsTheChip : Prop :=
  ∀ (i : Instr) (s t u v : State) (draws : List Answer) (rest : Answer),
    i ≠ .shutdown → PlainTarget s → Memory.wf s.chip = true →
    FaultFree { s with answers := draws, answerRest := rest } →
    exec i s = .next t →
    exec i { t with answers := draws, answerRest := rest } = .next u →
    exec i { s with answers := draws, answerRest := rest } = .next v →
    ∀ a, u.reg a = v.reg a

/-- R169: `errlog` changes no behaviour: but for STAT's answer, every command does the same whatever it holds. -/
def Obligations.ErrlogChangesNoBehaviour : Prop :=
  ∀ (i : Instr) (s t : State) (e : Bool), i ≠ .stat → exec i s = .next t →
    ∃ u, exec i { s with errlog := e } = .next u ∧ { u with errlog := t.errlog } = t
end

