-- ==== Sys2Proof/Laws/Memory.lean ====
section
/-! SUPPORT. The laws of the chip's store: read after write, canonical form kept, equal reads mean equal stores. -/

namespace Sys2Proof.Machine

@[simp] theorem readCell_nil (a : Nat) : readCell [] a = unlistedByte := rfl

theorem readCell_consCell (m : Memory) (a b : Nat) (v : Byte) (hlow : v = unlistedByte → readCell m a = unlistedByte) :
    readCell (consCell a v m) b = if a = b then v else readCell m b := by
  unfold consCell
  by_cases hv : v = unlistedByte
  · simp only [if_pos hv]
    by_cases hab : a = b
    · subst hab; simp [hv, hlow hv]
    · simp [hab]
  · simp [hv, readCell]

/-- Below the first address of a rising list nothing is listed. -/
theorem readCell_below {m : Memory} {low a : Nat} (h : risingFrom low m = true) (ha : a < low) :
    readCell m a = unlistedByte := by
  induction m generalizing low with
  | nil => rfl
  | cons c rest ih =>
    obtain ⟨k, x⟩ := c
    simp only [risingFrom, Bool.and_eq_true, decide_eq_true_eq] at h
    obtain ⟨⟨⟨hk, _⟩, _⟩, hr⟩ := h
    have hne : k ≠ a := by omega
    simp only [readCell, if_neg hne]
    exact ih hr (by omega)

theorem risingFrom_weaken {m : Memory} {low low' : Nat} (h : risingFrom low m = true) (hl : low' ≤ low) :
    risingFrom low' m = true := by
  cases m with
  | nil => rfl
  | cons c rest =>
    obtain ⟨k, x⟩ := c
    simp only [risingFrom, Bool.and_eq_true, decide_eq_true_eq] at h ⊢
    exact ⟨⟨⟨by omega, h.1.1.2⟩, h.1.2⟩, h.2⟩

/-- A write leaves every other register alone. -/
theorem readCell_writeCell_ne (m : Memory) {a b : Nat} (v : Byte) (hab : a ≠ b) :
    readCell (writeCell m a v) b = readCell m b := by
  induction m with
  | nil => unfold writeCell consCell; split <;> simp [readCell, hab]
  | cons c rest ih =>
    obtain ⟨k, x⟩ := c
    unfold writeCell
    split
    · unfold consCell; split <;> simp [readCell, hab]
    · split
      · next hk => subst hk; unfold consCell; split <;> simp [readCell, hab]
      · by_cases hkb : k = b <;> simp [readCell, hkb, ih]

/-- A written register reads as the byte written. -/
theorem readCell_writeCell_same_of_rising {m : Memory} {low : Nat} (h : risingFrom low m = true) (a : Nat) (v : Byte) :
    readCell (writeCell m a v) a = v := by
  induction m generalizing low with
  | nil => unfold writeCell consCell; split <;> simp_all [readCell]
  | cons c rest ih =>
    obtain ⟨k, x⟩ := c
    have hr := h
    simp only [risingFrom, Bool.and_eq_true, decide_eq_true_eq] at hr
    unfold writeCell
    split
    · next hlt =>
      rw [readCell_consCell]
      · simp
      · intro _
        have : k ≠ a := by omega
        simp only [readCell, if_neg this]
        exact readCell_below hr.2 (by omega)
    · split
      · next hk =>
        subst hk
        rw [readCell_consCell]
        · simp
        · intro _; exact readCell_below hr.2 (by omega)
      · next hk =>
        simp only [readCell, if_neg (Ne.symm hk)]
        exact ih hr.2

theorem readCell_writeCell_same {m : Memory} (h : Memory.wf m = true) (a : Nat) (v : Byte) :
    readCell (writeCell m a v) a = v := readCell_writeCell_same_of_rising h a v

theorem risingFrom_consCell {m : Memory} {low a : Nat} {v : Byte} (hm : risingFrom (a + 1) m = true) (hl : low ≤ a)
    (ha : a ≤ ADDR_MAX.toNat) : risingFrom low (consCell a v m) = true := by
  unfold consCell
  split
  · exact risingFrom_weaken hm (by omega)
  · next hv => simp [risingFrom, hl, ha, hv, hm]

theorem risingFrom_writeCell {m : Memory} {low a : Nat} (v : Byte) (hm : risingFrom low m = true) (hl : low ≤ a)
    (ha : a ≤ ADDR_MAX.toNat) : risingFrom low (writeCell m a v) = true := by
  induction m generalizing low with
  | nil => exact risingFrom_consCell rfl hl ha
  | cons c rest ih =>
    obtain ⟨k, x⟩ := c
    have hr := hm
    simp only [risingFrom, Bool.and_eq_true, decide_eq_true_eq] at hr
    unfold writeCell
    split
    · next hlt =>
      refine risingFrom_consCell ?_ hl ha
      simp only [risingFrom, Bool.and_eq_true, decide_eq_true_eq]
      exact ⟨⟨⟨by omega, hr.1.1.2⟩, hr.1.2⟩, hr.2⟩
    · split
      · next hk => subst hk; exact risingFrom_consCell hr.2 hl ha
      · simp only [risingFrom, Bool.and_eq_true, decide_eq_true_eq]
        exact ⟨⟨⟨hr.1.1.1, hr.1.1.2⟩, hr.1.2⟩, ih hr.2 (by omega)⟩

/-- A write to a valid address keeps the canonical form. -/
theorem writeCell_wf {m : Memory} {a : Nat} (v : Byte) (hm : Memory.wf m = true) (ha : a ≤ ADDR_MAX.toNat) :
    Memory.wf (writeCell m a v) = true := risingFrom_writeCell v hm (Nat.zero_le _) ha

theorem eq_of_readCell_of_rising {m m' : Memory} {low : Nat} (h : risingFrom low m = true)
    (h' : risingFrom low m' = true) (heq : ∀ a, readCell m a = readCell m' a) : m = m' := by
  induction m generalizing low m' with
  | nil =>
    cases m' with
    | nil => rfl
    | cons c rest =>
      obtain ⟨k, x⟩ := c
      simp only [risingFrom, Bool.and_eq_true, decide_eq_true_eq, bne_iff_ne] at h'
      have := heq k
      simp [readCell] at this
      exact absurd this.symm h'.1.2
  | cons c rest ih =>
    obtain ⟨k, x⟩ := c
    have hr := h
    simp only [risingFrom, Bool.and_eq_true, decide_eq_true_eq, bne_iff_ne] at hr
    cases m' with
    | nil =>
      have := heq k
      simp [readCell] at this
      exact absurd this hr.1.2
    | cons c' rest' =>
      obtain ⟨k', x'⟩ := c'
      have hr' := h'
      simp only [risingFrom, Bool.and_eq_true, decide_eq_true_eq, bne_iff_ne] at hr'
      have hk : k = k' := by
        rcases Nat.lt_trichotomy k k' with hlt | heq' | hgt
        · have := heq k
          have hne : k' ≠ k := by omega
          simp only [readCell, if_pos, if_neg hne] at this
          rw [readCell_below hr'.2 (by omega)] at this
          exact absurd this hr.1.2
        · exact heq'
        · have := heq k'
          have hne : k ≠ k' := by omega
          simp only [readCell, if_pos, if_neg hne] at this
          rw [readCell_below hr.2 (by omega)] at this
          exact absurd this.symm hr'.1.2
      subst hk
      have hx : x = x' := by simpa [readCell] using heq k
      subst hx
      congr 1
      refine ih hr.2 hr'.2 fun a => ?_
      have := heq a
      by_cases hka : k = a
      · subst hka
        rw [readCell_below hr.2 (by omega), readCell_below hr'.2 (by omega)]
      · simpa [readCell, hka] using this

/-- Stores in canonical form that read alike are equal. -/
theorem eq_of_readCell {m m' : Memory} (h : Memory.wf m = true) (h' : Memory.wf m' = true)
    (heq : ∀ a, readCell m a = readCell m' a) : m = m' := eq_of_readCell_of_rising h h' heq

end Sys2Proof.Machine
end

