-- ==== Sys2Proof/Laws/State.lean ====
section
/-! SUPPORT. One lemma per field of State per named update, and what each update does to the two views of State that
bus operations read: a chip register and the transport's next draw. All true by rfl. -/

namespace Sys2Proof.Machine

/-! ### logBusError -/

@[simp] theorem State.logBusError_cfg (s : State) : s.logBusError.cfg = s.cfg := rfl
@[simp] theorem State.logBusError_cmd (s : State) : s.logBusError.cmd = s.cmd := rfl
@[simp] theorem State.logBusError_rsp (s : State) : s.logBusError.rsp = s.rsp := rfl
@[simp] theorem State.logBusError_tmp (s : State) : s.logBusError.tmp = s.tmp := rfl
@[simp] theorem State.logBusError_step (s : State) : s.logBusError.step = s.step := rfl
@[simp] theorem State.logBusError_busy (s : State) : s.logBusError.busy = s.busy := rfl
@[simp] theorem State.logBusError_errlog (s : State) : s.logBusError.errlog = true := rfl
@[simp] theorem State.logBusError_railEn (s : State) : s.logBusError.railEn = s.railEn := rfl
@[simp] theorem State.logBusError_attached (s : State) : s.logBusError.attached = s.attached := rfl
@[simp] theorem State.logBusError_tblIdx (s : State) : s.logBusError.tblIdx = s.tblIdx := rfl
@[simp] theorem State.logBusError_lastPct (s : State) : s.logBusError.lastPct = s.lastPct := rfl
@[simp] theorem State.logBusError_trace (s : State) : s.logBusError.trace = s.trace := rfl
@[simp] theorem State.logBusError_chip (s : State) : s.logBusError.chip = s.chip := rfl
@[simp] theorem State.logBusError_port (s : State) : s.logBusError.port = s.port := rfl
@[simp] theorem State.logBusError_answers (s : State) : s.logBusError.answers = s.answers := rfl
@[simp] theorem State.logBusError_answerRest (s : State) : s.logBusError.answerRest = s.answerRest := rfl
@[simp] theorem State.logBusError_resetIn (s : State) : s.logBusError.resetIn = s.resetIn := rfl
@[simp] theorem State.logBusError_reg (s : State) (a : Byte) : s.logBusError.reg a = s.reg a := rfl
@[simp] theorem State.logBusError_nextAnswer (s : State) : s.logBusError.nextAnswer = s.nextAnswer := rfl

/-! ### tick -/

@[simp] theorem State.tick_cfg (s : State) : s.tick.cfg = s.cfg := rfl
@[simp] theorem State.tick_cmd (s : State) : s.tick.cmd = s.cmd := rfl
@[simp] theorem State.tick_rsp (s : State) : s.tick.rsp = s.rsp := rfl
@[simp] theorem State.tick_tmp (s : State) : s.tick.tmp = s.tmp := rfl
@[simp] theorem State.tick_step (s : State) : s.tick.step = s.step + 1 := rfl
@[simp] theorem State.tick_busy (s : State) : s.tick.busy = s.busy := rfl
@[simp] theorem State.tick_errlog (s : State) : s.tick.errlog = s.errlog := rfl
@[simp] theorem State.tick_railEn (s : State) : s.tick.railEn = s.railEn := rfl
@[simp] theorem State.tick_attached (s : State) : s.tick.attached = s.attached := rfl
@[simp] theorem State.tick_tblIdx (s : State) : s.tick.tblIdx = s.tblIdx := rfl
@[simp] theorem State.tick_lastPct (s : State) : s.tick.lastPct = s.lastPct := rfl
@[simp] theorem State.tick_trace (s : State) : s.tick.trace = s.trace := rfl
@[simp] theorem State.tick_chip (s : State) : s.tick.chip = s.chip := rfl
@[simp] theorem State.tick_port (s : State) : s.tick.port = s.port := rfl
@[simp] theorem State.tick_answers (s : State) : s.tick.answers = s.answers := rfl
@[simp] theorem State.tick_answerRest (s : State) : s.tick.answerRest = s.answerRest := rfl
@[simp] theorem State.tick_resetIn (s : State) : s.tick.resetIn = s.resetIn := rfl
@[simp] theorem State.tick_reg (s : State) (a : Byte) : s.tick.reg a = s.reg a := rfl
@[simp] theorem State.tick_nextAnswer (s : State) : s.tick.nextAnswer = s.nextAnswer := rfl

/-! ### emit -/

@[simp] theorem State.emit_cfg (e : Event) (s : State) : (s.emit e).cfg = s.cfg := rfl
@[simp] theorem State.emit_cmd (e : Event) (s : State) : (s.emit e).cmd = s.cmd := rfl
@[simp] theorem State.emit_rsp (e : Event) (s : State) : (s.emit e).rsp = s.rsp := rfl
@[simp] theorem State.emit_tmp (e : Event) (s : State) : (s.emit e).tmp = s.tmp := rfl
@[simp] theorem State.emit_step (e : Event) (s : State) : (s.emit e).step = s.step := rfl
@[simp] theorem State.emit_busy (e : Event) (s : State) : (s.emit e).busy = s.busy := rfl
@[simp] theorem State.emit_errlog (e : Event) (s : State) : (s.emit e).errlog = s.errlog := rfl
@[simp] theorem State.emit_railEn (e : Event) (s : State) : (s.emit e).railEn = s.railEn := rfl
@[simp] theorem State.emit_attached (e : Event) (s : State) : (s.emit e).attached = s.attached := rfl
@[simp] theorem State.emit_tblIdx (e : Event) (s : State) : (s.emit e).tblIdx = s.tblIdx := rfl
@[simp] theorem State.emit_lastPct (e : Event) (s : State) : (s.emit e).lastPct = s.lastPct := rfl
@[simp] theorem State.emit_trace (e : Event) (s : State) : (s.emit e).trace = s.trace ++ [e] := rfl
@[simp] theorem State.emit_chip (e : Event) (s : State) : (s.emit e).chip = s.chip := rfl
@[simp] theorem State.emit_port (e : Event) (s : State) : (s.emit e).port = s.port := rfl
@[simp] theorem State.emit_answers (e : Event) (s : State) : (s.emit e).answers = s.answers := rfl
@[simp] theorem State.emit_answerRest (e : Event) (s : State) : (s.emit e).answerRest = s.answerRest := rfl
@[simp] theorem State.emit_resetIn (e : Event) (s : State) : (s.emit e).resetIn = s.resetIn := rfl
@[simp] theorem State.emit_reg (e : Event) (s : State) (a : Byte) : (s.emit e).reg a = s.reg a := rfl
@[simp] theorem State.emit_nextAnswer (e : Event) (s : State) : (s.emit e).nextAnswer = s.nextAnswer := rfl

/-! ### setTmp -/

@[simp] theorem State.setTmp_cfg (b : Byte) (s : State) : (s.setTmp b).cfg = s.cfg := rfl
@[simp] theorem State.setTmp_cmd (b : Byte) (s : State) : (s.setTmp b).cmd = s.cmd := rfl
@[simp] theorem State.setTmp_rsp (b : Byte) (s : State) : (s.setTmp b).rsp = s.rsp := rfl
@[simp] theorem State.setTmp_tmp (b : Byte) (s : State) : (s.setTmp b).tmp = b := rfl
@[simp] theorem State.setTmp_step (b : Byte) (s : State) : (s.setTmp b).step = s.step := rfl
@[simp] theorem State.setTmp_busy (b : Byte) (s : State) : (s.setTmp b).busy = s.busy := rfl
@[simp] theorem State.setTmp_errlog (b : Byte) (s : State) : (s.setTmp b).errlog = s.errlog := rfl
@[simp] theorem State.setTmp_railEn (b : Byte) (s : State) : (s.setTmp b).railEn = s.railEn := rfl
@[simp] theorem State.setTmp_attached (b : Byte) (s : State) : (s.setTmp b).attached = s.attached := rfl
@[simp] theorem State.setTmp_tblIdx (b : Byte) (s : State) : (s.setTmp b).tblIdx = s.tblIdx := rfl
@[simp] theorem State.setTmp_lastPct (b : Byte) (s : State) : (s.setTmp b).lastPct = s.lastPct := rfl
@[simp] theorem State.setTmp_trace (b : Byte) (s : State) : (s.setTmp b).trace = s.trace := rfl
@[simp] theorem State.setTmp_chip (b : Byte) (s : State) : (s.setTmp b).chip = s.chip := rfl
@[simp] theorem State.setTmp_port (b : Byte) (s : State) : (s.setTmp b).port = s.port := rfl
@[simp] theorem State.setTmp_answers (b : Byte) (s : State) : (s.setTmp b).answers = s.answers := rfl
@[simp] theorem State.setTmp_answerRest (b : Byte) (s : State) : (s.setTmp b).answerRest = s.answerRest := rfl
@[simp] theorem State.setTmp_resetIn (b : Byte) (s : State) : (s.setTmp b).resetIn = s.resetIn := rfl
@[simp] theorem State.setTmp_reg (b : Byte) (s : State) (a : Byte) : (s.setTmp b).reg a = s.reg a := rfl
@[simp] theorem State.setTmp_nextAnswer (b : Byte) (s : State) : (s.setTmp b).nextAnswer = s.nextAnswer := rfl

/-! ### setTblIdx -/

@[simp] theorem State.setTblIdx_cfg (v : Byte) (s : State) : (s.setTblIdx v).cfg = s.cfg := rfl
@[simp] theorem State.setTblIdx_cmd (v : Byte) (s : State) : (s.setTblIdx v).cmd = s.cmd := rfl
@[simp] theorem State.setTblIdx_rsp (v : Byte) (s : State) : (s.setTblIdx v).rsp = s.rsp := rfl
@[simp] theorem State.setTblIdx_tmp (v : Byte) (s : State) : (s.setTblIdx v).tmp = s.tmp := rfl
@[simp] theorem State.setTblIdx_step (v : Byte) (s : State) : (s.setTblIdx v).step = s.step + 1 := rfl
@[simp] theorem State.setTblIdx_busy (v : Byte) (s : State) : (s.setTblIdx v).busy = s.busy := rfl
@[simp] theorem State.setTblIdx_errlog (v : Byte) (s : State) : (s.setTblIdx v).errlog = s.errlog := rfl
@[simp] theorem State.setTblIdx_railEn (v : Byte) (s : State) : (s.setTblIdx v).railEn = s.railEn := rfl
@[simp] theorem State.setTblIdx_attached (v : Byte) (s : State) : (s.setTblIdx v).attached = s.attached := rfl
@[simp] theorem State.setTblIdx_tblIdx (v : Byte) (s : State) : (s.setTblIdx v).tblIdx = v := rfl
@[simp] theorem State.setTblIdx_lastPct (v : Byte) (s : State) : (s.setTblIdx v).lastPct = s.lastPct := rfl
@[simp] theorem State.setTblIdx_trace (v : Byte) (s : State) : (s.setTblIdx v).trace = s.trace := rfl
@[simp] theorem State.setTblIdx_chip (v : Byte) (s : State) : (s.setTblIdx v).chip = s.chip := rfl
@[simp] theorem State.setTblIdx_port (v : Byte) (s : State) : (s.setTblIdx v).port = s.port := rfl
@[simp] theorem State.setTblIdx_answers (v : Byte) (s : State) : (s.setTblIdx v).answers = s.answers := rfl
@[simp] theorem State.setTblIdx_answerRest (v : Byte) (s : State) : (s.setTblIdx v).answerRest = s.answerRest := rfl
@[simp] theorem State.setTblIdx_resetIn (v : Byte) (s : State) : (s.setTblIdx v).resetIn = s.resetIn := rfl
@[simp] theorem State.setTblIdx_reg (v : Byte) (s : State) (a : Byte) : (s.setTblIdx v).reg a = s.reg a := rfl
@[simp] theorem State.setTblIdx_nextAnswer (v : Byte) (s : State) : (s.setTblIdx v).nextAnswer = s.nextAnswer := rfl

/-! ### setLastPct -/

@[simp] theorem State.setLastPct_cfg (v : Byte) (s : State) : (s.setLastPct v).cfg = s.cfg := rfl
@[simp] theorem State.setLastPct_cmd (v : Byte) (s : State) : (s.setLastPct v).cmd = s.cmd := rfl
@[simp] theorem State.setLastPct_rsp (v : Byte) (s : State) : (s.setLastPct v).rsp = s.rsp := rfl
@[simp] theorem State.setLastPct_tmp (v : Byte) (s : State) : (s.setLastPct v).tmp = s.tmp := rfl
@[simp] theorem State.setLastPct_step (v : Byte) (s : State) : (s.setLastPct v).step = s.step + 1 := rfl
@[simp] theorem State.setLastPct_busy (v : Byte) (s : State) : (s.setLastPct v).busy = s.busy := rfl
@[simp] theorem State.setLastPct_errlog (v : Byte) (s : State) : (s.setLastPct v).errlog = s.errlog := rfl
@[simp] theorem State.setLastPct_railEn (v : Byte) (s : State) : (s.setLastPct v).railEn = s.railEn := rfl
@[simp] theorem State.setLastPct_attached (v : Byte) (s : State) : (s.setLastPct v).attached = s.attached := rfl
@[simp] theorem State.setLastPct_tblIdx (v : Byte) (s : State) : (s.setLastPct v).tblIdx = s.tblIdx := rfl
@[simp] theorem State.setLastPct_lastPct (v : Byte) (s : State) : (s.setLastPct v).lastPct = v := rfl
@[simp] theorem State.setLastPct_trace (v : Byte) (s : State) : (s.setLastPct v).trace = s.trace := rfl
@[simp] theorem State.setLastPct_chip (v : Byte) (s : State) : (s.setLastPct v).chip = s.chip := rfl
@[simp] theorem State.setLastPct_port (v : Byte) (s : State) : (s.setLastPct v).port = s.port := rfl
@[simp] theorem State.setLastPct_answers (v : Byte) (s : State) : (s.setLastPct v).answers = s.answers := rfl
@[simp] theorem State.setLastPct_answerRest (v : Byte) (s : State) : (s.setLastPct v).answerRest = s.answerRest := rfl
@[simp] theorem State.setLastPct_resetIn (v : Byte) (s : State) : (s.setLastPct v).resetIn = s.resetIn := rfl
@[simp] theorem State.setLastPct_reg (v : Byte) (s : State) (a : Byte) : (s.setLastPct v).reg a = s.reg a := rfl
@[simp] theorem State.setLastPct_nextAnswer (v : Byte) (s : State) : (s.setLastPct v).nextAnswer = s.nextAnswer := rfl

/-! ### setAttached -/

@[simp] theorem State.setAttached_cfg (v : Bool) (s : State) : (s.setAttached v).cfg = s.cfg := rfl
@[simp] theorem State.setAttached_cmd (v : Bool) (s : State) : (s.setAttached v).cmd = s.cmd := rfl
@[simp] theorem State.setAttached_rsp (v : Bool) (s : State) : (s.setAttached v).rsp = s.rsp := rfl
@[simp] theorem State.setAttached_tmp (v : Bool) (s : State) : (s.setAttached v).tmp = s.tmp := rfl
@[simp] theorem State.setAttached_step (v : Bool) (s : State) : (s.setAttached v).step = s.step + 1 := rfl
@[simp] theorem State.setAttached_busy (v : Bool) (s : State) : (s.setAttached v).busy = s.busy := rfl
@[simp] theorem State.setAttached_errlog (v : Bool) (s : State) : (s.setAttached v).errlog = s.errlog := rfl
@[simp] theorem State.setAttached_railEn (v : Bool) (s : State) : (s.setAttached v).railEn = s.railEn := rfl
@[simp] theorem State.setAttached_attached (v : Bool) (s : State) : (s.setAttached v).attached = v := rfl
@[simp] theorem State.setAttached_tblIdx (v : Bool) (s : State) : (s.setAttached v).tblIdx = s.tblIdx := rfl
@[simp] theorem State.setAttached_lastPct (v : Bool) (s : State) : (s.setAttached v).lastPct = s.lastPct := rfl
@[simp] theorem State.setAttached_trace (v : Bool) (s : State) : (s.setAttached v).trace = s.trace := rfl
@[simp] theorem State.setAttached_chip (v : Bool) (s : State) : (s.setAttached v).chip = s.chip := rfl
@[simp] theorem State.setAttached_port (v : Bool) (s : State) : (s.setAttached v).port = s.port := rfl
@[simp] theorem State.setAttached_answers (v : Bool) (s : State) : (s.setAttached v).answers = s.answers := rfl
@[simp] theorem State.setAttached_answerRest (v : Bool) (s : State) : (s.setAttached v).answerRest = s.answerRest := rfl
@[simp] theorem State.setAttached_resetIn (v : Bool) (s : State) : (s.setAttached v).resetIn = s.resetIn := rfl
@[simp] theorem State.setAttached_reg (v : Bool) (s : State) (a : Byte) : (s.setAttached v).reg a = s.reg a := rfl
@[simp] theorem State.setAttached_nextAnswer (v : Bool) (s : State) : (s.setAttached v).nextAnswer = s.nextAnswer := rfl

/-! ### enableRail -/

@[simp] theorem State.enableRail_cfg (s : State) : s.enableRail.cfg = s.cfg := rfl
@[simp] theorem State.enableRail_cmd (s : State) : s.enableRail.cmd = s.cmd := rfl
@[simp] theorem State.enableRail_rsp (s : State) : s.enableRail.rsp = s.rsp := rfl
@[simp] theorem State.enableRail_tmp (s : State) : s.enableRail.tmp = s.tmp := rfl
@[simp] theorem State.enableRail_step (s : State) : s.enableRail.step = s.step + 1 := rfl
@[simp] theorem State.enableRail_busy (s : State) : s.enableRail.busy = s.busy := rfl
@[simp] theorem State.enableRail_errlog (s : State) : s.enableRail.errlog = s.errlog := rfl
@[simp] theorem State.enableRail_railEn (s : State) : s.enableRail.railEn = true := rfl
@[simp] theorem State.enableRail_attached (s : State) : s.enableRail.attached = s.attached := rfl
@[simp] theorem State.enableRail_tblIdx (s : State) : s.enableRail.tblIdx = s.tblIdx := rfl
@[simp] theorem State.enableRail_lastPct (s : State) : s.enableRail.lastPct = s.lastPct := rfl
@[simp] theorem State.enableRail_trace (s : State) : s.enableRail.trace = s.trace ++ [.rail1] := rfl
@[simp] theorem State.enableRail_chip (s : State) : s.enableRail.chip = s.chip := rfl
@[simp] theorem State.enableRail_port (s : State) : s.enableRail.port = s.port := rfl
@[simp] theorem State.enableRail_answers (s : State) : s.enableRail.answers = s.answers := rfl
@[simp] theorem State.enableRail_answerRest (s : State) : s.enableRail.answerRest = s.answerRest := rfl
@[simp] theorem State.enableRail_resetIn (s : State) : s.enableRail.resetIn = s.resetIn := rfl
@[simp] theorem State.enableRail_reg (s : State) (a : Byte) : s.enableRail.reg a = s.reg a := rfl
@[simp] theorem State.enableRail_nextAnswer (s : State) : s.enableRail.nextAnswer = s.nextAnswer := rfl

/-! ### setReg -/

@[simp] theorem State.setReg_cfg (a v : Byte) (s : State) : (s.setReg a v).cfg = s.cfg := rfl
@[simp] theorem State.setReg_cmd (a v : Byte) (s : State) : (s.setReg a v).cmd = s.cmd := rfl
@[simp] theorem State.setReg_rsp (a v : Byte) (s : State) : (s.setReg a v).rsp = s.rsp := rfl
@[simp] theorem State.setReg_tmp (a v : Byte) (s : State) : (s.setReg a v).tmp = s.tmp := rfl
@[simp] theorem State.setReg_step (a v : Byte) (s : State) : (s.setReg a v).step = s.step := rfl
@[simp] theorem State.setReg_busy (a v : Byte) (s : State) : (s.setReg a v).busy = s.busy := rfl
@[simp] theorem State.setReg_errlog (a v : Byte) (s : State) : (s.setReg a v).errlog = s.errlog := rfl
@[simp] theorem State.setReg_railEn (a v : Byte) (s : State) : (s.setReg a v).railEn = s.railEn := rfl
@[simp] theorem State.setReg_attached (a v : Byte) (s : State) : (s.setReg a v).attached = s.attached := rfl
@[simp] theorem State.setReg_tblIdx (a v : Byte) (s : State) : (s.setReg a v).tblIdx = s.tblIdx := rfl
@[simp] theorem State.setReg_lastPct (a v : Byte) (s : State) : (s.setReg a v).lastPct = s.lastPct := rfl
@[simp] theorem State.setReg_trace (a v : Byte) (s : State) : (s.setReg a v).trace = s.trace := rfl
@[simp] theorem State.setReg_chip (a v : Byte) (s : State) : (s.setReg a v).chip = writeCell s.chip a.toNat v := rfl
@[simp] theorem State.setReg_port (a v : Byte) (s : State) : (s.setReg a v).port = s.port := rfl
@[simp] theorem State.setReg_answers (a v : Byte) (s : State) : (s.setReg a v).answers = s.answers := rfl
@[simp] theorem State.setReg_answerRest (a v : Byte) (s : State) : (s.setReg a v).answerRest = s.answerRest := rfl
@[simp] theorem State.setReg_resetIn (a v : Byte) (s : State) : (s.setReg a v).resetIn = s.resetIn := rfl
@[simp] theorem State.setReg_nextAnswer (a v : Byte) (s : State) : (s.setReg a v).nextAnswer = s.nextAnswer := rfl

/-! ### useAnswer -/

@[simp] theorem State.useAnswer_cfg (s : State) : s.useAnswer.cfg = s.cfg := rfl
@[simp] theorem State.useAnswer_cmd (s : State) : s.useAnswer.cmd = s.cmd := rfl
@[simp] theorem State.useAnswer_rsp (s : State) : s.useAnswer.rsp = s.rsp := rfl
@[simp] theorem State.useAnswer_tmp (s : State) : s.useAnswer.tmp = s.tmp := rfl
@[simp] theorem State.useAnswer_step (s : State) : s.useAnswer.step = s.step + 1 := rfl
@[simp] theorem State.useAnswer_busy (s : State) : s.useAnswer.busy = s.busy := rfl
@[simp] theorem State.useAnswer_errlog (s : State) : s.useAnswer.errlog = s.errlog := rfl
@[simp] theorem State.useAnswer_railEn (s : State) : s.useAnswer.railEn = s.railEn := rfl
@[simp] theorem State.useAnswer_attached (s : State) : s.useAnswer.attached = s.attached := rfl
@[simp] theorem State.useAnswer_tblIdx (s : State) : s.useAnswer.tblIdx = s.tblIdx := rfl
@[simp] theorem State.useAnswer_lastPct (s : State) : s.useAnswer.lastPct = s.lastPct := rfl
@[simp] theorem State.useAnswer_trace (s : State) : s.useAnswer.trace = s.trace := rfl
@[simp] theorem State.useAnswer_chip (s : State) : s.useAnswer.chip = s.chip := rfl
@[simp] theorem State.useAnswer_port (s : State) : s.useAnswer.port = s.port := rfl
@[simp] theorem State.useAnswer_answers (s : State) : s.useAnswer.answers = s.answers.tail := rfl
@[simp] theorem State.useAnswer_answerRest (s : State) : s.useAnswer.answerRest = s.answerRest := rfl
@[simp] theorem State.useAnswer_resetIn (s : State) : s.useAnswer.resetIn = s.resetIn := rfl
@[simp] theorem State.useAnswer_reg (s : State) (a : Byte) : s.useAnswer.reg a = s.reg a := rfl

/-! ### responded -/

@[simp] theorem State.responded_cfg (st : Status) (v : Byte) (s : State) : (s.responded st v).cfg = s.cfg := rfl
@[simp] theorem State.responded_cmd (st : Status) (v : Byte) (s : State) : (s.responded st v).cmd = s.cmd := rfl
@[simp] theorem State.responded_rsp (st : Status) (v : Byte) (s : State) : (s.responded st v).rsp = responseWord st v := rfl
@[simp] theorem State.responded_tmp (st : Status) (v : Byte) (s : State) : (s.responded st v).tmp = s.tmp := rfl
@[simp] theorem State.responded_step (st : Status) (v : Byte) (s : State) : (s.responded st v).step = 0 := rfl
@[simp] theorem State.responded_busy (st : Status) (v : Byte) (s : State) : (s.responded st v).busy = false := rfl
@[simp] theorem State.responded_errlog (st : Status) (v : Byte) (s : State) : (s.responded st v).errlog = s.errlog := rfl
@[simp] theorem State.responded_railEn (st : Status) (v : Byte) (s : State) : (s.responded st v).railEn = s.railEn := rfl
@[simp] theorem State.responded_attached (st : Status) (v : Byte) (s : State) : (s.responded st v).attached = s.attached := rfl
@[simp] theorem State.responded_tblIdx (st : Status) (v : Byte) (s : State) : (s.responded st v).tblIdx = s.tblIdx := rfl
@[simp] theorem State.responded_lastPct (st : Status) (v : Byte) (s : State) : (s.responded st v).lastPct = s.lastPct := rfl
@[simp] theorem State.responded_trace (st : Status) (v : Byte) (s : State) : (s.responded st v).trace = s.trace := rfl
@[simp] theorem State.responded_chip (st : Status) (v : Byte) (s : State) : (s.responded st v).chip = s.chip := rfl
@[simp] theorem State.responded_port (st : Status) (v : Byte) (s : State) : (s.responded st v).port = s.port := rfl
@[simp] theorem State.responded_answers (st : Status) (v : Byte) (s : State) : (s.responded st v).answers = s.answers := rfl
@[simp] theorem State.responded_answerRest (st : Status) (v : Byte) (s : State) : (s.responded st v).answerRest = s.answerRest := rfl
@[simp] theorem State.responded_resetIn (st : Status) (v : Byte) (s : State) : (s.responded st v).resetIn = s.resetIn := rfl
@[simp] theorem State.responded_reg (st : Status) (v : Byte) (s : State) (a : Byte) : (s.responded st v).reg a = s.reg a := rfl
@[simp] theorem State.responded_nextAnswer (st : Status) (v : Byte) (s : State) : (s.responded st v).nextAnswer = s.nextAnswer := rfl

/-! ### accept -/

@[simp] theorem accept_cfg (w : CommandWord) (rest : List CommandWord) (s : State) : (accept w rest s).cfg = s.cfg := rfl
@[simp] theorem accept_cmd (w : CommandWord) (rest : List CommandWord) (s : State) : (accept w rest s).cmd = w := rfl
@[simp] theorem accept_rsp (w : CommandWord) (rest : List CommandWord) (s : State) : (accept w rest s).rsp = s.rsp := rfl
@[simp] theorem accept_tmp (w : CommandWord) (rest : List CommandWord) (s : State) : (accept w rest s).tmp = s.tmp := rfl
@[simp] theorem accept_step (w : CommandWord) (rest : List CommandWord) (s : State) : (accept w rest s).step = 0 := rfl
@[simp] theorem accept_busy (w : CommandWord) (rest : List CommandWord) (s : State) : (accept w rest s).busy = true := rfl
@[simp] theorem accept_errlog (w : CommandWord) (rest : List CommandWord) (s : State) : (accept w rest s).errlog = s.errlog := rfl
@[simp] theorem accept_railEn (w : CommandWord) (rest : List CommandWord) (s : State) : (accept w rest s).railEn = s.railEn := rfl
@[simp] theorem accept_attached (w : CommandWord) (rest : List CommandWord) (s : State) : (accept w rest s).attached = s.attached := rfl
@[simp] theorem accept_tblIdx (w : CommandWord) (rest : List CommandWord) (s : State) : (accept w rest s).tblIdx = s.tblIdx := rfl
@[simp] theorem accept_lastPct (w : CommandWord) (rest : List CommandWord) (s : State) : (accept w rest s).lastPct = s.lastPct := rfl
@[simp] theorem accept_trace (w : CommandWord) (rest : List CommandWord) (s : State) : (accept w rest s).trace = s.trace := rfl
@[simp] theorem accept_chip (w : CommandWord) (rest : List CommandWord) (s : State) : (accept w rest s).chip = s.chip := rfl
@[simp] theorem accept_port (w : CommandWord) (rest : List CommandWord) (s : State) : (accept w rest s).port = rest := rfl
@[simp] theorem accept_answers (w : CommandWord) (rest : List CommandWord) (s : State) : (accept w rest s).answers = s.answers := rfl
@[simp] theorem accept_answerRest (w : CommandWord) (rest : List CommandWord) (s : State) : (accept w rest s).answerRest = s.answerRest := rfl
@[simp] theorem accept_resetIn (w : CommandWord) (rest : List CommandWord) (s : State) : (accept w rest s).resetIn = s.resetIn := rfl
@[simp] theorem accept_reg (w : CommandWord) (rest : List CommandWord) (s : State) (a : Byte) : (accept w rest s).reg a = s.reg a := rfl
@[simp] theorem accept_nextAnswer (w : CommandWord) (rest : List CommandWord) (s : State) : (accept w rest s).nextAnswer = s.nextAnswer := rfl

end Sys2Proof.Machine
end

