-- ==== Sys2Proof/Laws/Bus.lean ====
section
/-! SUPPORT. What the bus operations and the sequences made of them can do, said once: their effect whatever the
transport does (`BusEffect`), how an abort-at-first-failure part ends (`AbortRun`), and their exact result when nothing
fails. Later proofs cite these and unfold none of the operations. -/

namespace Sys2Proof.Machine

/-! ### Registers -/

theorem State.setReg_reg_same {s : State} (h : Memory.wf s.chip = true) (a v : Byte) : (s.setReg a v).reg a = v :=
  readCell_writeCell_same h a.toNat v

theorem State.setReg_reg_ne (s : State) {a b : Byte} (v : Byte) (h : a ≠ b) : (s.setReg a v).reg b = s.reg b :=
  readCell_writeCell_ne s.chip v fun hab => h (BitVec.eq_of_toNat_eq hab)

theorem State.setReg_wf {s : State} {a : Byte} (v : Byte) (h : Memory.wf s.chip = true) (ha : a ≤ ADDR_MAX) :
    Memory.wf (s.setReg a v).chip = true := writeCell_wf v h ha

theorem le_of_not_gt_addr {a : Byte} (h : ¬ ADDR_MAX < a) : a ≤ ADDR_MAX := BitVec.not_lt.mp h

/-! ### SameBlock -/

theorem SameBlock.refl (s : State) : SameBlock s s := ⟨rfl, rfl, rfl, rfl, rfl, rfl, rfl, rfl, rfl⟩

theorem SameBlock.trans {s t u : State} (h : SameBlock s t) (k : SameBlock t u) : SameBlock s u :=
  ⟨k.cfg.trans h.cfg, k.railEn.trans h.railEn, k.attached.trans h.attached, k.tblIdx.trans h.tblIdx,
    k.lastPct.trans h.lastPct, k.cmd.trans h.cmd, k.port.trans h.port, k.answerRest.trans h.answerRest,
    k.resetIn.trans h.resetIn⟩

/-! ### The effect of a bus sequence, for every pattern of failures -/

/-- `t` follows from `s` by bus operations that write at most the registers in `W`. -/
structure BusEffect (W : List Byte) (s t : State) : Prop where
  block : SameBlock s t
  rsp : t.rsp = s.rsp
  busy : t.busy = s.busy
  chip_wf : Memory.wf s.chip = true → Memory.wf t.chip = true
  others : ∀ a, a ∉ W → t.reg a = s.reg a
  trace : ∃ es, t.trace = s.trace ++ es ∧ ∀ e ∈ es, e.inRange = true
  errlog : s.errlog = true → t.errlog = true

theorem BusEffect.refl (W : List Byte) (s : State) : BusEffect W s s :=
  ⟨SameBlock.refl s, rfl, rfl, id, fun _ _ => rfl, ⟨[], by simp⟩, id⟩

theorem BusEffect.trans {W : List Byte} {s t u : State} (h : BusEffect W s t) (k : BusEffect W t u) :
    BusEffect W s u := by
  obtain ⟨es, hes, hin⟩ := h.trace
  obtain ⟨fs, hfs, kin⟩ := k.trace
  exact ⟨h.block.trans k.block, k.rsp.trans h.rsp, k.busy.trans h.busy, fun w => k.chip_wf (h.chip_wf w),
    fun a ha => (k.others a ha).trans (h.others a ha),
    ⟨es ++ fs, by rw [hfs, hes, List.append_assoc], fun e he => (List.mem_append.mp he).elim (hin e) (kin e)⟩,
    fun e => k.errlog (h.errlog e)⟩

theorem BusEffect.mono {W W' : List Byte} {s t : State} (h : BusEffect W s t) (hW : ∀ a ∈ W, a ∈ W') :
    BusEffect W' s t :=
  ⟨h.block, h.rsp, h.busy, h.chip_wf, fun a ha => h.others a fun hm => ha (hW a hm), h.trace, h.errlog⟩

theorem memRead_effect (W : List Byte) (a : Byte) (s : State) : BusEffect W s (memRead a s).2 := by
  unfold memRead busRd
  split
  · exact ⟨⟨rfl, rfl, rfl, rfl, rfl, rfl, rfl, rfl, rfl⟩, rfl, rfl, id, fun _ _ => rfl, ⟨[], by simp⟩, fun _ => rfl⟩
  · next ha =>
    have hle := le_of_not_gt_addr ha
    dsimp only
    split
    · exact ⟨⟨rfl, rfl, rfl, rfl, rfl, rfl, rfl, rfl, rfl⟩, rfl, rfl, id, fun _ _ => rfl,
        ⟨[.rd a .fail], rfl, by simp [Event.inRange, hle]⟩, fun _ => rfl⟩
    · exact ⟨⟨rfl, rfl, rfl, rfl, rfl, rfl, rfl, rfl, rfl⟩, rfl, rfl, id, fun _ _ => rfl,
        ⟨[.rd a _], rfl, by simp [Event.inRange, hle]⟩, id⟩

theorem memWrite_effect {W : List Byte} {a : Byte} (v : Byte) (haW : a ∈ W) (s : State) :
    BusEffect W s (memWrite a v s).2 := by
  unfold memWrite busWr
  split
  · exact ⟨⟨rfl, rfl, rfl, rfl, rfl, rfl, rfl, rfl, rfl⟩, rfl, rfl, id, fun _ _ => rfl, ⟨[], by simp⟩, fun _ => rfl⟩
  · next ha =>
    have hle := le_of_not_gt_addr ha
    have others : ∀ b, b ∉ W → (s.useAnswer.setReg a v).reg b = s.reg b := fun b hb =>
      State.setReg_reg_ne s.useAnswer v fun hab => hb (hab ▸ haW)
    have wf : Memory.wf s.chip = true → Memory.wf (s.useAnswer.setReg a v).chip = true :=
      fun h => State.setReg_wf (s := s.useAnswer) v h hle
    split <;> split at * <;> (try split at *) <;> simp_all only [reduceCtorEq, Prod.mk.injEq, false_and, true_and]
    all_goals subst_vars
    all_goals
      first
        | exact ⟨⟨rfl, rfl, rfl, rfl, rfl, rfl, rfl, rfl, rfl⟩, rfl, rfl, wf, others,
            ⟨[.wr a v .fail], rfl, by simp [Event.inRange, hle]⟩, fun _ => rfl⟩
        | exact ⟨⟨rfl, rfl, rfl, rfl, rfl, rfl, rfl, rfl, rfl⟩, rfl, rfl, id, fun _ _ => rfl,
            ⟨[.wr a v .fail], rfl, by simp [Event.inRange, hle]⟩, fun _ => rfl⟩
        | exact ⟨⟨rfl, rfl, rfl, rfl, rfl, rfl, rfl, rfl, rfl⟩, rfl, rfl, wf, others,
            ⟨[.wr a v .ok], rfl, by simp [Event.inRange, hle]⟩, id⟩

theorem State.setTmp_effect (W : List Byte) (b : Byte) (s : State) : BusEffect W s (s.setTmp b) :=
  ⟨⟨rfl, rfl, rfl, rfl, rfl, rfl, rfl, rfl, rfl⟩, rfl, rfl, id, fun _ _ => rfl, ⟨[], by simp⟩, id⟩

theorem memUpdate_effect {W : List Byte} {a : Byte} (mask v : Byte) (haW : a ∈ W) (s : State) :
    BusEffect W s (memUpdate a mask v s).2 := by
  have hread := memRead_effect W a s
  unfold memUpdate
  split
  · next s1 h => rw [h] at hread; exact hread
  · next b s1 h =>
    rw [h] at hread
    exact (hread.trans (State.setTmp_effect W b s1)).trans (memWrite_effect _ haW _)

theorem settle_effect (W : List Byte) (k : DelayKind) (s : State) : BusEffect W s (settle k s).2 :=
  ⟨⟨rfl, rfl, rfl, rfl, rfl, rfl, rfl, rfl, rfl⟩, rfl, rfl, id, fun _ _ => rfl,
    ⟨[.delay k], rfl, by simp [Event.inRange]⟩, id⟩

theorem romRead_effect (W : List Byte) (s : State) : BusEffect W s (romRead s).2 :=
  ⟨⟨rfl, rfl, rfl, rfl, rfl, rfl, rfl, rfl, rfl⟩, rfl, rfl, id, fun _ _ => rfl, ⟨[], by simp [romRead]⟩, id⟩

theorem abortSeq_effect {W : List Byte} {ps : List Step} (h : ∀ p ∈ ps, ∀ s, BusEffect W s (p s).2) (s : State) :
    BusEffect W s (abortSeq ps s).2 := by
  induction ps generalizing s with
  | nil => exact BusEffect.refl W s
  | cons p rest ih =>
    have hp := h p (by simp) s
    have hrest := ih fun q hq => h q (by simp [hq])
    unfold abortSeq
    split
    · next s1 heq => rw [heq] at hp; exact hp.trans (hrest s1)
    · next s1 heq => rw [heq] at hp; exact hp

theorem aggregateSeq_effect {W : List Byte} {ps : List Step} (h : ∀ p ∈ ps, ∀ s, BusEffect W s (p s).2) (s : State) :
    BusEffect W s (aggregateSeq ps s).2 := by
  induction ps generalizing s with
  | nil => exact BusEffect.refl W s
  | cons p rest ih =>
    have hp := h p (by simp) s
    have hrest := ih fun q hq => h q (by simp [hq])
    unfold aggregateSeq
    split
    · next s1 heq => rw [heq] at hp; exact hp.trans (hrest s1)
    · next s1 heq => rw [heq] at hp; exact hp.trans (hrest s1)

theorem sleepOff_effect (s : State) : BusEffect [A_CTRL] s (sleepOff s).2 :=
  abortSeq_effect (by
    intro p hp
    simp only [List.mem_cons, List.not_mem_nil, or_false] at hp
    rcases hp with rfl | rfl
    · exact memUpdate_effect _ _ (by simp)
    · exact settle_effect _ _) s

/-- setChannelBrightness writes the control register and its channel's two registers, and no other. -/
theorem setChannelBrightness_effect (ch : Channel) (brt cur : Byte) (s : State) :
    BusEffect [A_CTRL, brtAddr ch, curAddr ch] s (setChannelBrightness ch brt cur s).2 :=
  abortSeq_effect (by
    intro p hp
    simp only [List.mem_append, List.mem_cons, List.not_mem_nil, or_false] at hp
    rcases hp with ((rfl | rfl) | hp) | rfl
    · exact fun s => (sleepOff_effect s).mono (by simp)
    · exact memWrite_effect _ (by simp)
    · split at hp
      · simp only [List.mem_cons, List.not_mem_nil, or_false] at hp
        subst hp
        exact memUpdate_effect _ _ (by simp)
      · simp at hp
    · exact memUpdate_effect _ _ (by simp)) s

theorem getChannelBrightness_effect (ch : Channel) (s : State) :
    BusEffect [A_CTRL] s (getChannelBrightness ch s).2 := by
  have h := sleepOff_effect s
  unfold getChannelBrightness
  split
  · next s1 heq => rw [heq] at h; exact h
  · next s1 heq => rw [heq] at h; exact h.trans (memRead_effect _ _ _)

/-- The registers a channel sequence may write. -/
def channelRegs : List Byte := [A_CTRL, A_BRT_A, A_BRT_B, A_CUR_A, A_CUR_B]

theorem setChannelBrightness_effect_channelRegs (ch : Channel) (brt cur : Byte) (s : State) :
    BusEffect channelRegs s (setChannelBrightness ch brt cur s).2 :=
  (setChannelBrightness_effect ch brt cur s).mono (by cases ch <;> simp [channelRegs, brtAddr, curAddr])

theorem fullOff_effect (s : State) : BusEffect channelRegs s (abortSeq fullOffSteps s).2 :=
  abortSeq_effect (by
    intro p hp
    simp only [fullOffSteps, List.mem_cons, List.not_mem_nil, or_false] at hp
    rcases hp with rfl | rfl <;> exact setChannelBrightness_effect_channelRegs _ _ _) s

theorem blend_effect (c : Config) (t pct : Byte) (s : State) :
    BusEffect channelRegs s (abortSeq (blendSteps c t pct) s).2 :=
  abortSeq_effect (by
    intro p hp
    simp only [blendSteps, List.mem_cons, List.not_mem_nil, or_false] at hp
    rcases hp with rfl | rfl | rfl | rfl | rfl
    · exact romRead_effect _
    · exact romRead_effect _
    · exact setChannelBrightness_effect_channelRegs _ _ _
    · exact setChannelBrightness_effect_channelRegs _ _ _
    · exact memUpdate_effect _ _ (by simp [channelRegs])) s

theorem shutdown_effect (s : State) : BusEffect [A_BRT_A, A_BRT_B] s (aggregateSeq shutdownSteps s).2 :=
  aggregateSeq_effect (by
    intro p hp
    simp only [shutdownSteps, List.mem_cons, List.not_mem_nil, or_false] at hp
    rcases hp with rfl | rfl <;> exact memWrite_effect _ (by simp)) s

/-- The registers INIT may write. -/
def initRegs (c : Config) : List Byte :=
  [c.aFilter, A_CONFIG, A_BOOST, A_CUR_A, A_CUR_B, A_CTRL, A_BRT_A, A_BRT_B]

theorem init_effect (c : Config) (s : State) : BusEffect (initRegs c) s (aggregateSeq (initSteps c) s).2 :=
  aggregateSeq_effect (by
    intro p hp
    simp only [initSteps, List.mem_cons, List.not_mem_nil, or_false] at hp
    rcases hp with rfl | rfl | rfl | rfl | rfl | rfl | rfl | rfl | rfl | rfl
    · exact memWrite_effect _ (by simp [initRegs])
    · exact memUpdate_effect _ _ (by simp [initRegs])
    · exact memWrite_effect _ (by simp [initRegs])
    · exact memWrite_effect _ (by simp [initRegs])
    · exact memWrite_effect _ (by simp [initRegs])
    · exact memUpdate_effect _ _ (by simp [initRegs])
    · exact memUpdate_effect _ _ (by simp [initRegs])
    · exact settle_effect _ _
    · exact memWrite_effect _ (by simp [initRegs])
    · exact memWrite_effect _ (by simp [initRegs])) s

/-! ### How an abort-at-first-failure part ends -/

/-- Nothing failed and `errlog` is as before, or exactly the last event of the part failed and `errlog` is set. -/
def AbortRun (s : State) (p : BusResult × State) : Prop :=
  ∃ es, p.2.trace = s.trace ++ es ∧
    ((p.1 = .ok ∧ p.2.errlog = s.errlog ∧ ∀ e ∈ es, e.failed = false) ∨
      (p.1 = .fail ∧ p.2.errlog = true ∧
        ∃ pre last, es = pre ++ [last] ∧ last.failed = true ∧ ∀ e ∈ pre, e.failed = false))

theorem AbortRun.andThen {s s1 : State} {p : BusResult × State} (h : AbortRun s (.ok, s1)) (k : AbortRun s1 p) :
    AbortRun s p := by
  obtain ⟨es, htr, ⟨-, herr, hok⟩ | ⟨hbad, -⟩⟩ := h
  · obtain ⟨fs, ktr, ⟨kr, kerr, kok⟩ | ⟨kr, kerr, pre, last, rfl, kl, kpre⟩⟩ := k
    · refine ⟨es ++ fs, by rw [ktr, htr, List.append_assoc], .inl ⟨kr, kerr.trans herr, fun e he => ?_⟩⟩
      exact (List.mem_append.mp he).elim (hok e) (kok e)
    · refine ⟨es ++ (pre ++ [last]), by rw [ktr, htr, List.append_assoc], .inr ⟨kr, kerr, es ++ pre, last, ?_, kl, ?_⟩⟩
      · rw [List.append_assoc]
      · exact fun e he => (List.mem_append.mp he).elim (hok e) (kpre e)
  · exact absurd hbad (by simp)

theorem memWrite_abortRun {a : Byte} (v : Byte) (ha : a ≤ ADDR_MAX) (s : State) : AbortRun s (memWrite a v s) := by
  unfold memWrite busWr
  rw [if_neg (BitVec.not_lt.mpr ha)]
  by_cases hf : s.nextAnswer.fails = true
  · by_cases ht : s.nextAnswer.taken = true
    · simp only [hf, ht, if_true]
      exact ⟨[.wr a v .fail], rfl, .inr ⟨rfl, rfl, [], _, rfl, rfl, by simp⟩⟩
    · simp only [hf, ht, if_true]
      exact ⟨[.wr a v .fail], rfl, .inr ⟨rfl, rfl, [], _, rfl, rfl, by simp⟩⟩
  · simp only [hf]
    exact ⟨[.wr a v .ok], rfl, .inl ⟨rfl, rfl, by simp [Event.failed]⟩⟩

/-- A read ends with an unfailed read event, or with a failed one and `errlog` set. -/
theorem memRead_cases {a : Byte} (ha : a ≤ ADDR_MAX) (s : State) :
    (∃ b, memRead a s = (.ok b, s.useAnswer.emit (.rd a (.ok b)))) ∨
      memRead a s = (.fail, (s.useAnswer.emit (.rd a .fail)).logBusError) := by
  unfold memRead busRd
  rw [if_neg (BitVec.not_lt.mpr ha)]
  dsimp only
  split
  · exact .inr rfl
  · exact .inl ⟨_, rfl⟩

theorem memUpdate_abortRun {a : Byte} (mask v : Byte) (ha : a ≤ ADDR_MAX) (s : State) :
    AbortRun s (memUpdate a mask v s) := by
  unfold memUpdate
  rcases memRead_cases ha s with ⟨b, h⟩ | h
  · rw [h]
    refine AbortRun.andThen (s1 := (s.useAnswer.emit (.rd a (.ok b))).setTmp b) ?_ (memWrite_abortRun _ ha _)
    exact ⟨[.rd a (.ok b)], rfl, .inl ⟨rfl, rfl, by simp [Event.failed]⟩⟩
  · rw [h]
    exact ⟨[.rd a .fail], rfl, .inr ⟨rfl, rfl, [], _, rfl, rfl, by simp⟩⟩

theorem settle_abortRun (k : DelayKind) (s : State) : AbortRun s (settle k s) :=
  ⟨[.delay k], rfl, .inl ⟨rfl, rfl, by simp [Event.failed]⟩⟩

theorem romRead_abortRun (s : State) : AbortRun s (romRead s) := ⟨[], by simp [romRead], .inl ⟨rfl, rfl, by simp⟩⟩

theorem abortSeq_abortRun {ps : List Step} (h : ∀ p ∈ ps, ∀ s, AbortRun s (p s)) (s : State) :
    AbortRun s (abortSeq ps s) := by
  induction ps generalizing s with
  | nil => exact ⟨[], by simp [abortSeq], .inl ⟨rfl, rfl, by simp⟩⟩
  | cons p rest ih =>
    have hp := h p (by simp) s
    unfold abortSeq
    split
    · next s1 heq => rw [heq] at hp; exact hp.andThen (ih (fun q hq => h q (by simp [hq])) s1)
    · next s1 heq => rw [heq] at hp; exact hp

theorem A_CTRL_le : A_CTRL ≤ ADDR_MAX := by decide
theorem brtAddr_le (ch : Channel) : brtAddr ch ≤ ADDR_MAX := by cases ch <;> decide
theorem curAddr_le (ch : Channel) : curAddr ch ≤ ADDR_MAX := by cases ch <;> decide

theorem sleepOff_abortRun (s : State) : AbortRun s (sleepOff s) :=
  abortSeq_abortRun (by
    intro p hp
    simp only [List.mem_cons, List.not_mem_nil, or_false] at hp
    rcases hp with rfl | rfl
    · exact memUpdate_abortRun _ _ A_CTRL_le
    · exact settle_abortRun _) s

theorem setChannelBrightness_abortRun (ch : Channel) (brt cur : Byte) (s : State) :
    AbortRun s (setChannelBrightness ch brt cur s) :=
  abortSeq_abortRun (by
    intro p hp
    simp only [List.mem_append, List.mem_cons, List.not_mem_nil, or_false] at hp
    rcases hp with ((rfl | rfl) | hp) | rfl
    · exact sleepOff_abortRun
    · exact memWrite_abortRun _ (brtAddr_le ch)
    · split at hp
      · simp only [List.mem_cons, List.not_mem_nil, or_false] at hp
        subst hp
        exact memUpdate_abortRun _ _ (curAddr_le ch)
      · simp at hp
    · exact memUpdate_abortRun _ _ A_CTRL_le) s

theorem fullOff_abortRun (s : State) : AbortRun s (abortSeq fullOffSteps s) :=
  abortSeq_abortRun (by
    intro p hp
    simp only [fullOffSteps, List.mem_cons, List.not_mem_nil, or_false] at hp
    rcases hp with rfl | rfl <;> exact setChannelBrightness_abortRun _ _ _) s

theorem blend_abortRun (c : Config) (t pct : Byte) (s : State) : AbortRun s (abortSeq (blendSteps c t pct) s) :=
  abortSeq_abortRun (by
    intro p hp
    simp only [blendSteps, List.mem_cons, List.not_mem_nil, or_false] at hp
    rcases hp with rfl | rfl | rfl | rfl | rfl
    · exact romRead_abortRun
    · exact romRead_abortRun
    · exact setChannelBrightness_abortRun _ _ _
    · exact setChannelBrightness_abortRun _ _ _
    · exact memUpdate_abortRun _ _ A_CTRL_le) s

/-! ### The exact result when nothing fails -/

theorem FaultFree.nextAnswer {s : State} (h : FaultFree s) :
    s.nextAnswer.fails = false ∧ s.nextAnswer.status = none := by
  obtain ⟨⟨hp, hpr⟩, hf, hfr⟩ := h
  unfold State.nextAnswer
  cases hs : s.answers with
  | nil => exact ⟨hfr, hpr⟩
  | cons x rest => exact ⟨hf x (by simp [hs]), hp x (by simp [hs])⟩

/-- The premise speaks of the draws alone. -/
theorem FaultFree.congr {s t : State} (h : FaultFree s) (ha : t.answers = s.answers)
    (hr : t.answerRest = s.answerRest) : FaultFree t := by
  obtain ⟨⟨hp, hpr⟩, hf, hfr⟩ := h
  exact ⟨⟨ha ▸ hp, hr ▸ hpr⟩, ha ▸ hf, hr ▸ hfr⟩

theorem FaultFree.useAnswer {s : State} (h : FaultFree s) : FaultFree s.useAnswer := by
  obtain ⟨⟨hp, hpr⟩, hf, hfr⟩ := h
  exact ⟨⟨fun x hx => hp x (List.mem_of_mem_tail hx), hpr⟩, fun x hx => hf x (List.mem_of_mem_tail hx), hfr⟩

/-- The state after an unfailed read of the target. -/
def afterRead (a : Byte) (s : State) : State := s.useAnswer.emit (.rd a (.ok (s.reg a)))

/-- The state after an unfailed write. -/
def afterWrite (a v : Byte) (s : State) : State := (s.useAnswer.setReg a v).emit (.wr a v .ok)

/-- The state after an unfailed masked update of the target. -/
def afterUpdate (a mask v : Byte) (s : State) : State :=
  afterWrite a (maskedByte (s.reg a) mask v) ((afterRead a s).setTmp (s.reg a))

theorem readStatus_target (b : Byte) (x : Answer) (hf : x.fails = false) (hn : x.status = none) :
    ¬ (readStatus x b).toInt < 0 ∧ (readStatus x b).setWidth 8 = b := by
  have hs : readStatus x b = b.setWidth 32 := by simp [readStatus, hf, hn]
  rw [hs]
  constructor
  · have h8 := b.isLt
    rw [BitVec.toInt_eq_toNat_cond, BitVec.toNat_setWidth_of_le (by omega)]
    split <;> omega
  · ext i hi
    simp

theorem memRead_faultFree {a : Byte} {s : State} (h : FaultFree s) (ha : a ≤ ADDR_MAX) :
    memRead a s = (.ok (s.reg a), afterRead a s) := by
  obtain ⟨hf, hn⟩ := h.nextAnswer
  obtain ⟨hpos, hval⟩ := readStatus_target (s.reg a) s.nextAnswer hf hn
  unfold memRead busRd
  rw [if_neg (BitVec.not_lt.mpr ha)]
  dsimp only
  rw [if_neg hpos, hval]
  rfl

theorem memWrite_faultFree {a : Byte} (v : Byte) {s : State} (h : FaultFree s) (ha : a ≤ ADDR_MAX) :
    memWrite a v s = (.ok, afterWrite a v s) := by
  unfold memWrite busWr
  rw [if_neg (BitVec.not_lt.mpr ha)]
  simp only [h.nextAnswer.1]
  rfl

theorem faultFree_afterRead {a : Byte} {s : State} (h : FaultFree s) : FaultFree (afterRead a s) := h.useAnswer.congr rfl rfl
theorem faultFree_afterWrite {a v : Byte} {s : State} (h : FaultFree s) : FaultFree (afterWrite a v s) :=
  h.useAnswer.congr rfl rfl
theorem faultFree_afterUpdate {a mask v : Byte} {s : State} (h : FaultFree s) : FaultFree (afterUpdate a mask v s) :=
  faultFree_afterWrite (FaultFree.congr (faultFree_afterRead (a := a) h) rfl rfl)

theorem memUpdate_faultFree {a : Byte} (mask v : Byte) {s : State} (h : FaultFree s) (ha : a ≤ ADDR_MAX) :
    memUpdate a mask v s = (.ok, afterUpdate a mask v s) := by
  unfold memUpdate
  rw [memRead_faultFree h ha]
  exact memWrite_faultFree _ ((faultFree_afterRead (a := a) h).congr rfl rfl) ha

@[simp] theorem abortSeq_nil (s : State) : abortSeq [] s = (.ok, s) := rfl

/-- A first part that ends well hands its state to the rest. -/
theorem abortSeq_cons_ok {p : Step} {rest : List Step} {s s1 : State} (h : p s = (.ok, s1)) :
    abortSeq (p :: rest) s = abortSeq rest s1 := by simp [abortSeq, h]

/-- A first part that fails ends the sequence. -/
theorem abortSeq_cons_fail {p : Step} {rest : List Step} {s s1 : State} (h : p s = (.fail, s1)) :
    abortSeq (p :: rest) s = (.fail, s1) := by simp [abortSeq, h]

theorem aggregateSeq_cons_ok {p : Step} {rest : List Step} {s s1 : State} (h : p s = (.ok, s1)) :
    aggregateSeq (p :: rest) s = aggregateSeq rest s1 := by simp [aggregateSeq, h]

/-- The state after an unfailed sleep-disable. -/
def afterSleepOff (s : State) : State := (settle .sleep (afterUpdate A_CTRL M_SLEEP V_SLEEP_OFF s)).2

theorem sleepOff_faultFree {s : State} (h : FaultFree s) : sleepOff s = (.ok, afterSleepOff s) := by
  unfold sleepOff
  rw [abortSeq_cons_ok (memUpdate_faultFree _ _ h A_CTRL_le)]
  rfl

theorem faultFree_afterSleepOff {s : State} (h : FaultFree s) : FaultFree (afterSleepOff s) :=
  (faultFree_afterUpdate (a := A_CTRL) (mask := M_SLEEP) (v := V_SLEEP_OFF) h).congr rfl rfl

/-- The state after the unfailed current update of setChannelBrightness, skipped for a sentinel. -/
def afterCurrent (ch : Channel) (cur : Byte) (s : State) : State :=
  if cur < CUR_KEEP then afterUpdate (curAddr ch) M_CUR cur s else s

theorem faultFree_afterCurrent {ch : Channel} {cur : Byte} {s : State} (h : FaultFree s) :
    FaultFree (afterCurrent ch cur s) := by
  unfold afterCurrent; split
  · exact faultFree_afterUpdate h
  · exact h

/-- The state after an unfailed setChannelBrightness. -/
def afterSet (ch : Channel) (brt cur : Byte) (s : State) : State :=
  afterUpdate A_CTRL (enMask s.cfg ch) (enableValue (enMask s.cfg ch) brt)
    (afterCurrent ch cur (afterWrite (brtAddr ch) brt (afterSleepOff s)))

theorem setChannelBrightness_faultFree (ch : Channel) (brt cur : Byte) {s : State} (h : FaultFree s) :
    setChannelBrightness ch brt cur s = (.ok, afterSet ch brt cur s) := by
  have h1 := faultFree_afterSleepOff h
  have h2 := faultFree_afterWrite (a := brtAddr ch) (v := brt) h1
  have h3 := faultFree_afterCurrent (ch := ch) (cur := cur) h2
  unfold setChannelBrightness
  simp only [List.cons_append, List.nil_append]
  rw [abortSeq_cons_ok (sleepOff_faultFree h), abortSeq_cons_ok (memWrite_faultFree _ h1 (brtAddr_le ch))]
  by_cases hc : cur < CUR_KEEP
  · simp only [if_pos hc, List.cons_append, List.nil_append]
    rw [abortSeq_cons_ok (memUpdate_faultFree _ _ h2 (curAddr_le ch))]
    simp only [afterCurrent, if_pos hc] at h3
    rw [abortSeq_cons_ok (memUpdate_faultFree _ _ h3 A_CTRL_le)]
    simp [afterSet, afterCurrent, hc]
  · simp only [if_neg hc, List.nil_append]
    simp only [afterCurrent, if_neg hc] at h3
    rw [abortSeq_cons_ok (memUpdate_faultFree _ _ h3 A_CTRL_le)]
    simp [afterSet, afterCurrent, hc]

theorem faultFree_afterSet {ch : Channel} {brt cur : Byte} {s : State} (h : FaultFree s) :
    FaultFree (afterSet ch brt cur s) := by
  exact faultFree_afterUpdate (faultFree_afterCurrent (faultFree_afterWrite (faultFree_afterSleepOff h)))

theorem getChannelBrightness_faultFree (ch : Channel) {s : State} (h : FaultFree s) :
    getChannelBrightness ch s =
      (.ok ((afterSleepOff s).reg (brtAddr ch)), afterRead (brtAddr ch) (afterSleepOff s)) := by
  unfold getChannelBrightness
  rw [sleepOff_faultFree h]
  exact memRead_faultFree (faultFree_afterSleepOff h) (brtAddr_le ch)

end Sys2Proof.Machine
end

