-- ==== Sys2Proof/Laws/Curve.lean ====
section
/-! SUPPORT. The check of a curve, in the words of 00_scope.md R7: no entry is above a later one. -/

namespace Sys2Proof

theorem nonDecreasing_iff (l : List Byte) :
    nonDecreasing l = true ↔ ∀ j k (hj : j ≤ k) (hk : k < l.length), l[j] ≤ l[k] := by
  induction l with
  | nil => simp [nonDecreasing]
  | cons x l ih =>
    cases l with
    | nil =>
      refine ⟨fun _ j k hj hk => ?_, fun _ => rfl⟩
      obtain rfl : k = 0 := by simpa using hk
      obtain rfl : j = 0 := by omega
      exact BitVec.le_refl _
    | cons y l =>
      simp only [nonDecreasing, Bool.and_eq_true, decide_eq_true_eq, ih]
      refine ⟨fun h j k hj hk => ?_, fun h => ⟨h 0 1 (by omega) (by simp), fun j k hj hk =>
        h (j + 1) (k + 1) (by omega) (by simpa using hk)⟩⟩
      cases k with
      | zero => obtain rfl : j = 0 := by omega
                exact BitVec.le_refl _
      | succ k =>
        cases j with
        | zero => exact BitVec.le_trans h.1 (h.2 0 k (by omega) (by simpa using hk))
        | succ j => exact h.2 j k (by omega) (by simpa using hk)

/-- The curves of a configuration that passes the check. -/
theorem Config.curvesMonotone_iff (c : Config) :
    c.curvesMonotone = true ↔ ∀ (ch : Channel) (j k : Nat) (hj : j ≤ k) (hk : k < 77),
      (Machine.pick c.curve ch)[j]'(Nat.lt_of_le_of_lt hj hk) ≤ (Machine.pick c.curve ch)[k] := by
  have hv : ∀ v : Vector Byte 77, nonDecreasing v.toList = true ↔
      ∀ j k (hj : j ≤ k) (hk : k < 77), v[j] ≤ v[k] := fun v => by
    rw [nonDecreasing_iff]
    refine ⟨fun h j k hj hk => ?_, fun h j k hj hk => ?_⟩
    · have := h j k hj (by simpa using hk)
      rwa [Vector.getElem_toList, Vector.getElem_toList] at this
    · rw [Vector.getElem_toList, Vector.getElem_toList]
      exact h j k hj (by simpa using hk)
  unfold Config.curvesMonotone
  rw [Bool.and_eq_true, hv, hv]
  exact ⟨fun h ch => by cases ch; exacts [h.1, h.2], fun h => ⟨h .A, h .B⟩⟩

end Sys2Proof
end

