-- ==== Sys2Proof/Laws/Response.lean ====
section
/-! SUPPORT. What a response leaves, and what the bus operations answer in terms of the transport's draw
(`drawnByte`), for every pattern of failures. -/

namespace Sys2Proof.Machine

/-! ### The response -/

theorem extractLsb'_append_high (st v : Byte) : (st ++ v).extractLsb' 8 8 = st := by
  ext i hi
  simp only [BitVec.getElem_extractLsb', BitVec.getLsbD_append]
  grind

theorem extractLsb'_append_low (st v : Byte) : (st ++ v).extractLsb' 0 8 = v := by
  ext i hi
  simp only [BitVec.getElem_extractLsb', BitVec.getLsbD_append]
  grind

/-- The status byte of a response written by fields. -/
theorem statusOf_of_rsp {s : State} {st v : Byte} (h : s.rsp = st ++ v) : statusOf s = st := by
  unfold statusOf; rw [h]; exact extractLsb'_append_high st v

/-- The value byte of a response written by fields. -/
theorem valueOf_of_rsp {s : State} {st v : Byte} (h : s.rsp = st ++ v) : valueOf s = v := by
  unfold valueOf; rw [h]; exact extractLsb'_append_low st v

@[simp] theorem statusOf_responded (st : Status) (v : Byte) (s : State) :
    statusOf (s.responded st v) = statusCode st := statusOf_of_rsp rfl

@[simp] theorem valueOf_responded (st : Status) (v : Byte) (s : State) : valueOf (s.responded st v) = v :=
  valueOf_of_rsp rfl

theorem idle_responded (st : Status) (v : Byte) (s : State) : Idle (s.responded st v) := ⟨rfl, rfl⟩

theorem statusCode_le (st : Status) : statusCode st ≤ 0x05 := by cases st <;> decide

theorem statusCode_inj {a b : Status} (h : statusCode a = statusCode b) : a = b := by
  revert h; cases a <;> cases b <;> decide

/-- A response and nothing else is `rejected`. -/
theorem responded_eq_rejected (st : Status) (v : Byte) (s : State) :
    s.responded st v = rejected s (responseWord st v) := rfl

theorem SameBlock.responded {s t : State} (h : SameBlock s t) (st : Status) (v : Byte) :
    SameBlock s (t.responded st v) := h.trans ⟨rfl, rfl, rfl, rfl, rfl, rfl, rfl, rfl, rfl⟩

/-! ### One read and one write, by the draw -/

/-- The status the transport answers, by the draw: the drawn byte, or negative. -/
theorem readStatus_drawn (x : Answer) (b : Byte) :
    (∃ c, drawnByte x b = some c ∧ ¬ (readStatus x b).toInt < 0 ∧ (readStatus x b).setWidth 8 = c) ∨
      (drawnByte x b = none ∧ (readStatus x b).toInt < 0) := by
  unfold drawnByte
  by_cases hf : x.fails = true
  · exact .inr (by simp [hf, readStatus])
  · cases hs : x.status with
    | none => exact .inl ⟨b, by simp [hf], readStatus_target b x (by simpa using hf) hs⟩
    | some w =>
      have hw : readStatus x b = w := by simp [readStatus, hf, hs]
      rw [hw]
      by_cases hneg : w.toInt < 0
      · exact .inr (by simp [hf, hneg])
      · exact .inl ⟨_, by simp [hf, hneg], hneg, rfl⟩

/-- MemRead of a valid address, by the draw. -/
theorem memRead_drawn {a : Byte} (ha : a ≤ ADDR_MAX) (s : State) :
    (∃ c, drawnByte s.nextAnswer (s.reg a) = some c ∧
        memRead a s = (.ok c, s.useAnswer.emit (.rd a (.ok c)))) ∨
      (drawnByte s.nextAnswer (s.reg a) = none ∧
        memRead a s = (.fail, (s.useAnswer.emit (.rd a .fail)).logBusError)) := by
  unfold memRead busRd
  rw [if_neg (BitVec.not_lt.mpr ha)]
  rcases readStatus_drawn s.nextAnswer (s.reg a) with ⟨c, h1, h2, h3⟩ | ⟨h1, h2⟩
  · exact .inl ⟨c, h1, by simp only [h2, if_false, h3]⟩
  · exact .inr ⟨h1, by simp only [h2, if_true]⟩

/-- MemWrite to a valid address, by the draw. -/
theorem memWrite_drawn {a : Byte} (v : Byte) (ha : a ≤ ADDR_MAX) (s : State) :
    (s.nextAnswer.fails = false ∧ memWrite a v s = (.ok, afterWrite a v s)) ∨
      (s.nextAnswer.fails = true ∧ s.nextAnswer.taken = true ∧
        memWrite a v s = (.fail, ((s.useAnswer.setReg a v).emit (.wr a v .fail)).logBusError)) ∨
      (s.nextAnswer.fails = true ∧ s.nextAnswer.taken = false ∧
        memWrite a v s = (.fail, (s.useAnswer.emit (.wr a v .fail)).logBusError)) := by
  unfold memWrite busWr afterWrite
  rw [if_neg (BitVec.not_lt.mpr ha)]
  cases hf : s.nextAnswer.fails <;> cases ht : s.nextAnswer.taken <;> simp

/-- With the reference target the drawn byte is the register's. -/
theorem drawnByte_target {x : Answer} (b : Byte) (hn : x.status = none) :
    drawnByte x b = if x.fails then none else some b := by simp [drawnByte, hn]

/-! ### How a command ends -/

theorem finish_ok {p : BusResult × State} {okValue failValue : Byte} (h : p.1 = .ok) :
    finish okValue failValue p = .next (p.2.responded .ok okValue) := by
  obtain ⟨r, s⟩ := p; cases h; rfl

theorem finish_fail {p : BusResult × State} {okValue failValue : Byte} (h : p.1 = .fail) :
    finish okValue failValue p = .next (p.2.responded .errBus failValue) := by
  obtain ⟨r, s⟩ := p; cases h; rfl

theorem whenAttached_of {s : State} {o : Host.Outcome State Fault Refusal} (h : s.attached = true) :
    whenAttached s o = o := by simp [whenAttached, h]

theorem whenAttached_not {s : State} {o : Host.Outcome State Fault Refusal} (h : s.attached = false) :
    whenAttached s o = .next (s.responded .errState 0x00) := by simp [whenAttached, h, raise, respond, errorStatus]

theorem whenDetached_of {s : State} {o : Host.Outcome State Fault Refusal} (h : s.attached = false) :
    whenDetached s o = o := by simp [whenDetached, h]

theorem whenDetached_not {s : State} {o : Host.Outcome State Fault Refusal} (h : s.attached = true) :
    whenDetached s o = .next (s.responded .errState 0x00) := by simp [whenDetached, h, raise, respond, errorStatus]

end Sys2Proof.Machine
end

