-- ==== Sys2Proof/Laws/Sequences.lean ====
section
/-! SUPPORT. The events of an attempted part and of an aggregating sequence (10_state.md R14 (c)), for every pattern of
failures, and those of INIT. -/

namespace Sys2Proof.Machine

/-- An aggregating sequence attempts the rest whatever its first part does. -/
theorem aggregateSeq_cons (p : Step) (rest : List Step) (s : State) :
    (aggregateSeq (p :: rest) s).2 = (aggregateSeq rest (p s).2).2 ∧
      ((aggregateSeq (p :: rest) s).1 = .ok ↔ (p s).1 = .ok ∧ (aggregateSeq rest (p s).2).1 = .ok) := by
  cases hp : p s with
  | mk r s1 => cases r <;> simp [aggregateSeq, hp]

/-- One attempted part with the events it emits: `errlog` is set exactly if it failed or was set before. -/
structure Ran (s : State) (p : BusResult × State) (es : List Event) : Prop where
  trace : p.2.trace = s.trace ++ es
  ok : p.1 = .ok → p.2.errlog = s.errlog
  bad : p.1 = .fail → p.2.errlog = true
  err : s.errlog = true → p.2.errlog = true
  cfg : p.2.cfg = s.cfg

/-- MemWrite of a valid address emits its one event. -/
theorem ran_write {a : Byte} (v : Byte) (ha : a ≤ ADDR_MAX) (s : State) :
    Ran s (memWrite a v s) [.wr a v (memWrite a v s).1] := by
  rcases memWrite_drawn v ha s with ⟨h1, h2⟩ | ⟨h1, h3, h2⟩ | ⟨h1, h3, h2⟩ <;> rw [h2]
  · exact ⟨rfl, fun _ => rfl, (fun h => nomatch h), id, rfl⟩
  · exact ⟨rfl, (fun h => nomatch h), fun _ => rfl, fun _ => rfl, rfl⟩
  · exact ⟨rfl, (fun h => nomatch h), fun _ => rfl, fun _ => rfl, rfl⟩

/-- MemWrite above the range fails and emits none (20_memory.md R41). -/
theorem ran_write_out {a : Byte} (v : Byte) (ha : ADDR_MAX < a) (s : State) :
    (memWrite a v s).1 = .fail ∧ Ran s (memWrite a v s) [] := by
  unfold memWrite; rw [if_pos ha]
  exact ⟨rfl, by simp, (fun h => nomatch h), fun _ => rfl, fun _ => rfl, rfl⟩

/-- MemUpdate of a valid address emits a failed read, or a read and a write. -/
theorem ran_update {a : Byte} (m v : Byte) (ha : a ≤ ADDR_MAX) (s : State) :
    ∃ es, Ran s (memUpdate a m v s) es ∧ UpdateEvents a m v es ∧
      ((memUpdate a m v s).1 = .ok ↔ ∀ e ∈ es, e.failed = false) := by
  rcases memRead_cases ha s with ⟨b, h⟩ | h
  · have hu :
        memUpdate a m v s = memWrite a (maskedByte b m v) ((s.useAnswer.emit (.rd a (.ok b))).setTmp b) := by
      simp [memUpdate, h]
    have hw := ran_write (maskedByte b m v) ha ((s.useAnswer.emit (.rd a (.ok b))).setTmp b)
    rw [hu]
    refine ⟨[.rd a (.ok b), .wr a (maskedByte b m v)
        (memWrite a (maskedByte b m v) ((s.useAnswer.emit (.rd a (.ok b))).setTmp b)).1],
      ⟨?_, hw.ok, hw.bad, hw.err, hw.cfg⟩, .inr ⟨b, _, rfl⟩, ?_⟩
    · rw [hw.trace]; simp
    · generalize (memWrite a (maskedByte b m v) ((s.useAnswer.emit (.rd a (.ok b))).setTmp b)).1 = r
      cases r <;> simp [Event.failed]
  · have hu : memUpdate a m v s = (.fail, (s.useAnswer.emit (.rd a .fail)).logBusError) := by simp [memUpdate, h]
    rw [hu]
    exact ⟨[.rd a .fail], ⟨rfl, (fun h => nomatch h), fun _ => rfl, fun _ => rfl, rfl⟩, .inl rfl,
      by simp [Event.failed]⟩

/-- An aggregating sequence with the events it emits, all of them attempted; `ok` says when it ends well. -/
structure AggRun (ps : List Step) (s : State) (es : List Event) (ok : Prop) : Prop where
  trace : (aggregateSeq ps s).2.trace = s.trace ++ es
  ok : (aggregateSeq ps s).1 = .ok ↔ ok
  good : (aggregateSeq ps s).1 = .ok → (aggregateSeq ps s).2.errlog = s.errlog
  bad : (aggregateSeq ps s).1 = .fail → (aggregateSeq ps s).2.errlog = true
  err : s.errlog = true → (aggregateSeq ps s).2.errlog = true

theorem AggRun.nil (s : State) : AggRun [] s [] True :=
  ⟨by simp [aggregateSeq], by simp [aggregateSeq], fun _ => rfl, (fun h => nomatch h), id⟩

theorem AggRun.cons {p : Step} {ps : List Step} {s : State} {es fs : List Event} {ok ok' : Prop}
    (h : Ran s (p s) es) (hok : (p s).1 = .ok ↔ ok) (k : AggRun ps (p s).2 fs ok') :
    AggRun (p :: ps) s (es ++ fs) (ok ∧ ok') := by
  obtain ⟨h1, h2⟩ := aggregateSeq_cons p ps s
  refine ⟨?_, ?_, ?_, ?_, ?_⟩
  · rw [h1, k.trace, h.trace, List.append_assoc]
  · rw [h2, hok, k.ok]
  · intro e; rw [h2] at e; rw [h1, k.good e.2, h.ok e.1]
  · intro e; rw [h1]
    cases hp : (p s).1 with
    | fail => exact k.err (h.bad hp)
    | ok =>
      apply k.bad
      cases hq : (aggregateSeq ps (p s).2).1 with
      | fail => rfl
      | ok => rw [h2.mpr ⟨hp, hq⟩] at e; cases e
  · intro e; rw [h1]; exact k.err (h.err e)

/-- INIT's steps with their events, for every pattern of failures (41_chipcontroller.md R100). -/
theorem init_run (c : Config) (s : State) :
  ∃ filter config boost curA curB leda ledb brtA brtB,
    AggRun (initSteps c) s
        (filter ++ (config ++ ([Event.wr 0x02 c.vBoost boost] ++ ([Event.wr 0x05 0 curA] ++
          ([Event.wr 0x06 0 curB] ++ (leda ++ (ledb ++ ([Event.delay .init] ++
          ([Event.wr 0x03 c.initBrt.a brtA] ++ ([Event.wr 0x04 c.initBrt.b brtB] ++ []))))))))))
        ((c.aFilter ≤ 0x1F ∧ ∀ e ∈ filter, e.failed = false) ∧ (∀ e ∈ config, e.failed = false) ∧ boost = .ok ∧
          curA = .ok ∧ curB = .ok ∧ (∀ e ∈ leda, e.failed = false) ∧ (∀ e ∈ ledb, e.failed = false) ∧ True ∧
          brtA = .ok ∧ brtB = .ok ∧ True) ∧
        (c.aFilter ≤ 0x1F → ∃ r, filter = [Event.wr c.aFilter c.vFilter r]) ∧
        (0x1F < c.aFilter → filter = []) ∧
        UpdateEvents 0x01 0x07 c.pwmMode config ∧
        UpdateEvents 0x00 c.mLeda c.ledaMode leda ∧
        UpdateEvents 0x00 c.mLedb c.ledbMode ledb := by
  have hfil : ∃ filter, Ran s (memWrite c.aFilter c.vFilter s) filter ∧
      ((memWrite c.aFilter c.vFilter s).1 = .ok ↔ (c.aFilter ≤ 0x1F ∧ ∀ e ∈ filter, e.failed = false)) ∧
      (c.aFilter ≤ 0x1F → ∃ r, filter = [Event.wr c.aFilter c.vFilter r]) ∧
      (0x1F < c.aFilter → filter = []) := by
    by_cases ha : ADDR_MAX < c.aFilter
    · obtain ⟨h1, h2⟩ := ran_write_out c.vFilter ha s
      refine ⟨[], h2, ?_, ?_, fun _ => rfl⟩
      · rw [h1]; have : ¬ c.aFilter ≤ 0x1F := BitVec.not_le.mpr ha
        exact ⟨(fun h => nomatch h), fun h => absurd h.1 this⟩
      · intro h; exact absurd h (BitVec.not_le.mpr ha)
    · have hl := BitVec.not_lt.mp ha
      refine ⟨_, ran_write c.vFilter hl s, ?_, fun _ => ⟨_, rfl⟩, fun h => absurd h ha⟩
      have hl' : c.aFilter ≤ 0x1F := hl
      generalize (memWrite c.aFilter c.vFilter s).1 = r
      cases r
      · exact ⟨fun _ => ⟨hl', by simp [Event.failed]⟩, fun _ => rfl⟩
      · simp [Event.failed]
  obtain ⟨filter, f1, f2, f3, f4⟩ := hfil
  generalize hs1 : (memWrite c.aFilter c.vFilter s).2 = s1
  obtain ⟨config, c1, c2, c3⟩ := ran_update (a := 0x01) 0x07 c.pwmMode (by decide) s1
  generalize hs2 : (memUpdate 0x01 0x07 c.pwmMode s1).2 = s2
  have b1 := ran_write (a := 0x02) c.vBoost (by decide) s2
  generalize hs3 : (memWrite 0x02 c.vBoost s2).2 = s3
  have a1 := ran_write (a := 0x05) 0 (by decide) s3
  generalize hs4 : (memWrite 0x05 0 s3).2 = s4
  have d1 := ran_write (a := 0x06) 0 (by decide) s4
  generalize hs5 : (memWrite 0x06 0 s4).2 = s5
  obtain ⟨leda, l1, l2, l3⟩ := ran_update (a := 0x00) c.mLeda c.ledaMode (by decide) s5
  generalize hs6 : (memUpdate 0x00 c.mLeda c.ledaMode s5).2 = s6
  obtain ⟨ledb, m1, m2, m3⟩ := ran_update (a := 0x00) c.mLedb c.ledbMode (by decide) s6
  generalize hs7 : (memUpdate 0x00 c.mLedb c.ledbMode s6).2 = s7
  have n1 : Ran s7 (settle .init s7) [Event.delay .init] := ⟨rfl, fun _ => rfl, (fun h => nomatch h), id, rfl⟩
  generalize hs8 : (settle .init s7).2 = s8
  have o1 := ran_write (a := 0x03) c.initBrt.a (by decide) s8
  generalize hs9 : (memWrite 0x03 c.initBrt.a s8).2 = s9
  have p1 := ran_write (a := 0x04) c.initBrt.b (by decide) s9
  refine ⟨filter, config, (memWrite 2 c.vBoost s2).1, (memWrite 5 0 s3).1, (memWrite 6 0 s4).1, leda, ledb,
    (memWrite 3 c.initBrt.a s8).1, (memWrite 4 c.initBrt.b s9).1, ?_, f3, f4, c2, l2, m2⟩
  unfold initSteps
  refine AggRun.cons f1 f2 ?_
  rw [hs1]; refine AggRun.cons c1 c3 ?_
  rw [show A_CONFIG = 1 from rfl, show M_PWM = 7 from rfl, hs2]; refine AggRun.cons b1 Iff.rfl ?_
  rw [show A_BOOST = 2 from rfl, hs3]; refine AggRun.cons a1 Iff.rfl ?_
  rw [show A_CUR_A = 5 from rfl, hs4]; refine AggRun.cons d1 Iff.rfl ?_
  rw [show A_CUR_B = 6 from rfl, hs5]; refine AggRun.cons l1 l3 ?_
  rw [show A_CTRL = 0 from rfl, hs6]; refine AggRun.cons m1 m3 ?_
  rw [hs7]; refine AggRun.cons n1 (by simp [settle]) ?_
  rw [hs8]; refine AggRun.cons o1 Iff.rfl ?_
  rw [show A_BRT_A = 3 from rfl, hs9]; refine AggRun.cons p1 Iff.rfl ?_
  exact AggRun.nil _

/-- How a detached INIT ends. -/
theorem exec_init_cases (s : State) (hs : s.attached = false) :
    ((aggregateSeq (initSteps s.cfg) (initStart s)).1 = .ok ∧
        exec .init s =
          .next (((aggregateSeq (initSteps s.cfg) (initStart s)).2.setAttached true).responded .ok 0)) ∨
      ((aggregateSeq (initSteps s.cfg) (initStart s)).1 = .fail ∧
        exec .init s = .next ((aggregateSeq (initSteps s.cfg) (initStart s)).2.responded .errInit 0)) := by
  simp only [exec, execInit, whenDetached_of hs]
  generalize aggregateSeq (initSteps s.cfg) (initStart s) = p
  obtain ⟨r, t⟩ := p
  cases r
  · left; exact ⟨rfl, rfl⟩
  · right; exact ⟨rfl, rfl⟩

end Sys2Proof.Machine
end

