-- ==== Sys2Proof/Laws/Exec.lean ====
section
/-! SUPPORT. What `exec`, `runWord` and `step` can do, said once: every command responds, what it leaves of the state
whatever fails, and the four things a step can be. -/

namespace Sys2Proof.Machine

/-- How applyPercentage ends: turned away by a range check, or run from the new `last_pct`. -/
theorem apply_cases (p : Byte) (s : State) :
    ((3 ≤ s.tblIdx ∨ PCT_MAX < p) ∧ applyPercentage p s = (.rangeFail, s)) ∨
      (¬ (3 ≤ s.tblIdx ∨ PCT_MAX < p) ∧ ∃ q : BusResult × State, applyPercentage p s = applied q ∧
        AbortRun (s.setLastPct p) q ∧ BusEffect channelRegs (s.setLastPct p) q.2) := by
  unfold applyPercentage
  by_cases h1 : 3 ≤ s.tblIdx
  · left; exact ⟨.inl h1, if_pos h1⟩
  · rw [if_neg h1]
    by_cases h2 : PCT_MAX < p
    · left; exact ⟨.inr h2, if_pos h2⟩
    · rw [if_neg h2]
      right
      refine ⟨by rintro (h | h) <;> contradiction, ?_⟩
      split
      · exact ⟨_, rfl, fullOff_abortRun _, fullOff_effect _⟩
      · exact ⟨_, rfl, blend_abortRun _ _ _ _, blend_effect _ _ _ _⟩

/-- How a command of an abort-at-first-failure sequence ends (60_exceptions.md R161). -/
theorem finish_cases (okV failV : Byte) (s : State) (p : BusResult × State) (h : AbortRun s p) :
    (∃ es, p.1 = .ok ∧ finish okV failV p = .next (p.2.responded .ok okV) ∧ p.2.trace = s.trace ++ es ∧
        p.2.errlog = s.errlog ∧ ∀ e ∈ es, e.failed = false) ∨
      (∃ pre last, p.1 = .fail ∧ finish okV failV p = .next (p.2.responded .errBus failV) ∧
        p.2.trace = s.trace ++ (pre ++ [last]) ∧ p.2.errlog = true ∧ last.failed = true ∧
        ∀ e ∈ pre, e.failed = false) := by
  obtain ⟨es, ht, ⟨a, b, c⟩ | ⟨a, b, pre, last, rfl, l, c⟩⟩ := h
  · left; exact ⟨es, a, finish_ok a, ht, b, c⟩
  · right; exact ⟨pre, last, a, finish_fail a, ht, b, l, c⟩

/-- A read's end as a part's. -/
def readRun : ReadResult × State → BusResult × State
  | (.ok _, t) => (.ok, t)
  | (.fail, t) => (.fail, t)

/-- How a command that answers the byte it read ends. -/
theorem finishRead_cases (s : State) (p : ReadResult × State) (h : AbortRun s (readRun p)) :
    (∃ es b, finishRead p = .next (p.2.responded .ok b) ∧ p.2.trace = s.trace ++ es ∧ p.2.errlog = s.errlog ∧
        ∀ e ∈ es, e.failed = false) ∨
      (∃ pre last, finishRead p = .next (p.2.responded .errBus 0) ∧ p.2.trace = s.trace ++ (pre ++ [last]) ∧
        p.2.errlog = true ∧ last.failed = true ∧ ∀ e ∈ pre, e.failed = false) := by
  obtain ⟨r, t⟩ := p
  cases r with
  | ok b =>
    obtain ⟨es, ht, ⟨a, bb, c⟩ | ⟨a, _⟩⟩ := h
    · left; exact ⟨es, b, rfl, ht, bb, c⟩
    · cases a
  | fail =>
    obtain ⟨es, ht, ⟨a, _⟩ | ⟨a, b, pre, last, rfl, l, c⟩⟩ := h
    · cases a
    · right; exact ⟨pre, last, rfl, ht, b, l, c⟩

theorem memRead_abortRun {a : Byte} (ha : a ≤ ADDR_MAX) (s : State) : AbortRun s (readRun (memRead a s)) := by
  rcases memRead_cases ha s with ⟨b, h⟩ | h <;> rw [h]
  · exact ⟨[.rd a (.ok b)], rfl, .inl ⟨rfl, rfl, by simp [Event.failed]⟩⟩
  · exact ⟨[.rd a .fail], rfl, .inr ⟨rfl, rfl, [], _, rfl, rfl, by simp⟩⟩

theorem getChannelBrightness_abortRun (ch : Channel) (s : State) :
    AbortRun s (readRun (getChannelBrightness ch s)) := by
  have h := sleepOff_abortRun s
  unfold getChannelBrightness
  rcases hq : sleepOff s with ⟨r, s1⟩
  rw [hq] at h
  cases r with
  | fail => exact h
  | ok => exact h.andThen (p := readRun _) (memRead_abortRun (brtAddr_le ch) s1)

/-- Every command responds (30_encoding.md R73). -/
theorem exec_responds (i : Instr) (s : State) : ∃ u st v, exec i s = .next (State.responded st v u) := by
  have hf : ∀ a b p, ∃ u st v, finish a b p = .next (State.responded st v u) := by
    rintro a b ⟨r, t⟩; cases r
    · exact ⟨t, .ok, a, rfl⟩
    · exact ⟨t, .errBus, b, rfl⟩
  have hr : ∀ p, ∃ u st v, finishRead p = .next (State.responded st v u) := by
    rintro ⟨r, t⟩; cases r with
    | ok b => exact ⟨t, .ok, b, rfl⟩
    | fail => exact ⟨t, .errBus, 0, rfl⟩
  have ha : ∀ b p, ∃ u st v, finishApply b p = .next (State.responded st v u) := by
    rintro b ⟨r, t⟩; cases r
    · exact ⟨t, .ok, 0, rfl⟩
    · exact ⟨t, .errRange, 0, rfl⟩
    · exact ⟨t, .errBus, b, rfl⟩
  have hg : ∀ o, (∃ u st v, o = .next (State.responded st v u)) →
      ∃ u st v, whenAttached s o = .next (State.responded st v u) := by
    intro o h
    cases hh : s.attached with
    | true => rw [whenAttached_of hh]; exact h
    | false => rw [whenAttached_not hh]; exact ⟨_, _, _, rfl⟩
  have hb : ∀ ch b o s, ∃ u st v, backendSet ch b o s = .next (State.responded st v u) := by
    intro ch b o s; unfold backendSet; split
    · exact ⟨_, .errRange, _, rfl⟩
    · exact hf _ _ _
  cases i
  case init =>
    cases hh : s.attached with
    | true => simp only [exec, execInit, whenDetached_not hh]; exact ⟨_, _, _, rfl⟩
    | false => rcases exec_init_cases s hh with ⟨_, h⟩ | ⟨_, h⟩ <;> exact ⟨_, _, _, h⟩
  case rd => exact hr _
  case wr => exact hf _ _ _
  case upd => exact hf _ _ _
  case stat => exact ⟨_, _, _, rfl⟩
  case pct2raw => exact ⟨_, _, _, rfl⟩
  all_goals apply hg
  · exact hf _ _ _
  · exact hr _
  · exact ⟨_, _, _, rfl⟩
  · split
    · exact ⟨_, _, _, rfl⟩
    · exact ⟨_, _, _, rfl⟩
  · exact ha _ _
  · exact ⟨_, _, _, rfl⟩
  · exact hb _ _ _ _
  · exact hr _
  · exact ha _ _
  · exact ⟨_, _, _, rfl⟩
  · exact hb _ _ _ _

theorem runWord_responds (w : CommandWord) (s : State) : ∃ u st v, runWord w s = .next (State.responded st v u) := by
  unfold runWord; split
  · exact exec_responds _ _
  · exact ⟨_, _, _, rfl⟩

/-- What every command does to the state, whatever fails. -/
structure CommandEffect (s t : State) : Prop where
  cfg : t.cfg = s.cfg
  cmd : t.cmd = s.cmd
  port : t.port = s.port
  answerRest : t.answerRest = s.answerRest
  resetIn : t.resetIn = s.resetIn
  chip : Memory.wf s.chip = true → Memory.wf t.chip = true
  trace : ∃ es, t.trace = s.trace ++ es ∧ ∀ e ∈ es, e.inRange = true
  errlog : s.errlog = true → t.errlog = true
  tblIdx : s.tblIdx ≤ 2 → t.tblIdx ≤ 2
  lastPct : s.lastPct ≤ 100 → t.lastPct ≤ 100

theorem CommandEffect.refl (s : State) : CommandEffect s s :=
  ⟨rfl, rfl, rfl, rfl, rfl, id, ⟨[], by simp⟩, id, id, id⟩

theorem CommandEffect.trans {s t u : State} (h : CommandEffect s t) (k : CommandEffect t u) : CommandEffect s u := by
  obtain ⟨es, hes, hin⟩ := h.trace
  obtain ⟨fs, hfs, kin⟩ := k.trace
  exact ⟨k.cfg.trans h.cfg, k.cmd.trans h.cmd, k.port.trans h.port, k.answerRest.trans h.answerRest,
    k.resetIn.trans h.resetIn, fun w => k.chip (h.chip w),
    ⟨es ++ fs, by rw [hfs, hes, List.append_assoc], fun e he => (List.mem_append.mp he).elim (hin e) (kin e)⟩,
    fun e => k.errlog (h.errlog e), fun e => k.tblIdx (h.tblIdx e), fun e => k.lastPct (h.lastPct e)⟩

theorem CommandEffect.responded {s t : State} (h : CommandEffect s t) (st v) : CommandEffect s (t.responded st v) :=
  ⟨h.cfg, h.cmd, h.port, h.answerRest, h.resetIn, h.chip, h.trace, h.errlog, h.tblIdx, h.lastPct⟩

/-- The lifecycle bit is no part of a command's effect. -/
theorem CommandEffect.setAttached {s t : State} (h : CommandEffect s t) (v : Bool) :
    CommandEffect s (t.setAttached v) :=
  ⟨h.cfg, h.cmd, h.port, h.answerRest, h.resetIn, h.chip, h.trace, h.errlog, h.tblIdx, h.lastPct⟩

theorem BusEffect.commandEffect {W : List Byte} {s t : State} (h : BusEffect W s t) : CommandEffect s t :=
  ⟨h.block.cfg, h.block.cmd, h.block.port, h.block.answerRest, h.block.resetIn, h.chip_wf, h.trace, h.errlog,
    fun e => h.block.tblIdx ▸ e, fun e => h.block.lastPct ▸ e⟩

theorem curveRead_commandEffect (p : Byte) (s : State) : CommandEffect s (curveRead p s) := by
  unfold curveRead; split
  · exact CommandEffect.refl s
  · exact (romRead_effect [] s).commandEffect

theorem finish_commandEffect {a b : Byte} {s t : State} {p : BusResult × State} (h : CommandEffect s p.2)
    (he : finish a b p = .next t) : CommandEffect s t := by
  obtain ⟨r, u⟩ := p; cases r <;> (cases he; exact h.responded _ _)

theorem finishRead_commandEffect {s t : State} {p : ReadResult × State} (h : CommandEffect s p.2)
    (he : finishRead p = .next t) : CommandEffect s t := by
  obtain ⟨r, u⟩ := p; cases r <;> (cases he; exact h.responded _ _)

theorem finishApply_commandEffect {b : Byte} {s t : State} {p : ApplyResult × State} (h : CommandEffect s p.2)
    (he : finishApply b p = .next t) : CommandEffect s t := by
  obtain ⟨r, u⟩ := p; cases r <;> (cases he; exact h.responded _ _)

theorem applied_snd (p : BusResult × State) : (applied p).2 = p.2 := by obtain ⟨r, u⟩ := p; cases r <;> rfl

theorem applyPercentage_commandEffect (p : Byte) (s : State) : CommandEffect s (applyPercentage p s).2 := by
  rcases apply_cases p s with ⟨_, h⟩ | ⟨hn, q, h, -, hb⟩ <;> rw [h]
  · exact CommandEffect.refl s
  · rw [applied_snd]
    refine CommandEffect.trans ?_ hb.commandEffect
    refine ⟨rfl, rfl, rfl, rfl, rfl, id, ⟨[], by simp⟩, id, id, fun _ => ?_⟩
    exact BitVec.not_lt.mp fun hh => hn (.inr hh)

theorem backendSet_commandEffect {ch : Channel} {b o : Byte} {s t : State}
    (he : backendSet ch b o s = .next t) : CommandEffect s t := by
  unfold backendSet at he; split at he
  · cases he; exact (CommandEffect.refl s).responded _ _
  · exact finish_commandEffect (setChannelBrightness_effect _ _ _ _).commandEffect he

theorem initStart_commandEffect (s : State) : CommandEffect s (initStart s) where
  cfg := rfl
  cmd := rfl
  port := rfl
  answerRest := rfl
  resetIn := rfl
  chip := by simp [initStart, settle]
  trace := ⟨[.rail1, .delay .rail], by simp [initStart, settle], by simp [Event.inRange]⟩
  errlog := by simp [initStart, settle]
  tblIdx := by simp [initStart, settle]
  lastPct := by simp [initStart, settle]

theorem exec_commandEffect {i : Instr} {s t : State} (he : exec i s = .next t) : CommandEffect s t := by
  have hg : ∀ {o}, whenAttached s o = .next t → (o = .next t → CommandEffect s t) → CommandEffect s t := by
    intro o h1 h2
    cases hh : s.attached with
    | true => rw [whenAttached_of hh] at h1; exact h2 h1
    | false => rw [whenAttached_not hh] at h1; cases h1; exact (CommandEffect.refl s).responded _ _
  cases i
  case init =>
    cases hh : s.attached with
    | true =>
      simp only [exec, execInit, whenDetached_not hh] at he
      cases he; exact (CommandEffect.refl s).responded _ _
    | false =>
      have h1 := (initStart_commandEffect s).trans (init_effect s.cfg (initStart s)).commandEffect
      rcases exec_init_cases s hh with ⟨_, h⟩ | ⟨_, h⟩ <;> rw [h] at he <;> cases he
      · exact (h1.setAttached true).responded _ _
      · exact h1.responded _ _
  case rd a => exact finishRead_commandEffect (memRead_effect [] _ _).commandEffect he
  case wr a v => exact finish_commandEffect (memWrite_effect (W := [a]) v (by simp) s).commandEffect he
  case upd a m v => exact finish_commandEffect (memUpdate_effect (W := [a]) m v (by simp) s).commandEffect he
  case stat => cases he; exact (CommandEffect.refl s).responded _ _
  case pct2raw c p =>
    cases he
    exact (curveRead_commandEffect _ _).responded _ _
  all_goals refine hg he fun h => ?_
  · exact finish_commandEffect (setChannelBrightness_effect _ _ _ _).commandEffect h
  · exact finishRead_commandEffect (getChannelBrightness_effect _ _).commandEffect h
  · cases h
    exact ((shutdown_effect s).commandEffect.setAttached false).responded _ _
  · rename_i idx
    split at h
    · cases h; exact (CommandEffect.refl s).responded _ _
    · next hi =>
      cases h
      refine CommandEffect.responded ?_ _ _
      refine CommandEffect.trans ?_ (applyPercentage_commandEffect _ _)
      refine ⟨rfl, rfl, rfl, rfl, rfl, id, ⟨[], by simp⟩, id, fun _ => ?_, id⟩
      have := BitVec.not_le.mp hi
      show idx ≤ 2
      rw [BitVec.lt_def] at this; rw [BitVec.le_def]; simp at *; omega
  · exact finishApply_commandEffect (applyPercentage_commandEffect _ _) h
  · cases h; exact (CommandEffect.refl s).responded _ _
  · exact backendSet_commandEffect h
  · exact finishRead_commandEffect (getChannelBrightness_effect _ _).commandEffect h
  · exact finishApply_commandEffect (applyPercentage_commandEffect _ _) h
  · cases h; exact (CommandEffect.refl s).responded _ _
  · exact (curveRead_commandEffect _ _).trans (backendSet_commandEffect h)

theorem runWord_commandEffect {w : CommandWord} {s t : State} (he : runWord w s = .next t) : CommandEffect s t := by
  unfold runWord at he; split at he
  · exact exec_commandEffect he
  · cases he; exact (CommandEffect.refl s).responded _ _

theorem runWord_idle {w : CommandWord} {s t : State} (he : runWord w s = .next t) : Idle t := by
  obtain ⟨u, st, v, h⟩ := runWord_responds w s
  rw [h] at he; cases he; exact idle_responded _ _ _

/-- What a step is: a cut command, a reset, a word run, or nothing. -/
theorem step_cases {s t : State} (h : step s = .next t) :
    (∃ n taken w rest u, s.resetIn = some (.during n taken) ∧ s.busy = false ∧ s.port = w :: rest ∧
        runWord w (cutAnswers n taken (accept w rest s)) = .next u ∧
        t = blockReset { u with answers := s.answers.drop (n + 1), answerRest := s.answerRest }) ∨
      (s.resetIn ≠ none ∧ t = blockReset s) ∨
      (∃ w rest, s.resetIn = none ∧ s.busy = false ∧ s.port = w :: rest ∧ runWord w (accept w rest s) = .next t) ∨
      (s.resetIn = none ∧ t = s) := by
  unfold step at h; split at h
  · next n taken w rest h1 h2 h3 =>
    obtain ⟨u, st, v, hu⟩ := runWord_responds w (cutAnswers n taken (accept w rest s))
    left; refine ⟨n, taken, w, rest, _, h1, h2, h3, hu, ?_⟩
    unfold runCut at h; rw [hu] at h; cases h; rfl
  · next h1 _ => right; left; cases h; exact ⟨by simp [h1], rfl⟩
  · next w rest h1 h2 h3 => right; right; left; exact ⟨w, rest, h1, h2, h3, h⟩
  · next h1 _ => cases h; exact .inr (.inr (.inr ⟨h1, rfl⟩))

end Sys2Proof.Machine
end

