-- ==== Sys2Proof/Laws/Cut.lean ====
section
/-! SUPPORT. What a reset inside a command leaves (70_reset_and_hazards.md R190), by one lemma for each operation: run with
the draws of `cutAnswers`, a part whose transactions all come before the cut does what it does uncut, and a part that the
cut falls into leaves the chip of its transactions before the cut and of the one in flight; nothing after it has an
effect. -/

namespace Sys2Proof.Machine

/-- No later transaction of `s` has an effect. -/
def Dead (s : State) : Prop := s.answers = [] ∧ s.answerRest = { fails := true, taken := false, status := none }

/-- The state with other draws and another reset input, which no command reads but for the draws. -/
def State.withInputs (xs : List Answer) (x : Answer) (r : Option ResetInput) (s : State) : State :=
  { s with answers := xs, answerRest := x, resetIn := r }

/-- The state with the draws of a cut and the reset input of one. -/
def State.cut (n : Nat) (taken : Bool) (r : Option ResetInput) (s : State) : State :=
  { cutAnswers n taken s with resetIn := r }

theorem State.cut_eq (n : Nat) (taken : Bool) (r : Option ResetInput) (s : State) :
    s.cut n taken r = s.withInputs (s.cut n taken r).answers (s.cut n taken r).answerRest r := rfl

/-- The transactions among the events. -/
abbrev busEvents (es : List Event) : List Event := es.filter Event.onBus

/-- From `s` the part emits `es`; uncut, cut after its transactions, and cut inside them, this is what it does. -/
structure CutRun {α : Type} (p : State → α × State) (s : State) (es : List Event) : Prop where
  trace : (p s).2.trace = s.trace ++ es
  answers : (p s).2.answers = s.answers.drop (busEvents es).length
  answerRest : (p s).2.answerRest = s.answerRest
  chip : (p s).2.chip = chipAfter (busEvents es) s.answers s.answerRest s.chip
  after : ∀ n taken r, (busEvents es).length ≤ n →
    p (s.cut n taken r) = ((p s).1, (p s).2.cut (n - (busEvents es).length) taken r)
  inside : ∀ n taken r, n < (busEvents es).length →
    Dead (p (s.cut n taken r)).2 ∧ (p (s.cut n taken r)).2.chip =
      chipInFlight taken (busEvents es)[n]? (chipAfter ((busEvents es).take n) s.answers s.answerRest s.chip)

/-- The part is as `CutRun` says from every state, and does nothing to the chip once no transaction has an effect. -/
structure Cuttable {α : Type} (p : State → α × State) : Prop where
  dead : ∀ s, Dead s → Dead (p s).2 ∧ (p s).2.chip = s.chip
  run : ∀ s, ∃ es, CutRun p s es

theorem chipAfter_append (es fs : List Event) (xs : List Answer) (x : Answer) (m : Memory) :
    chipAfter (es ++ fs) xs x m = chipAfter fs (xs.drop es.length) x (chipAfter es xs x m) := by
  induction es generalizing xs m with
  | nil => rfl
  | cons e es ih => simp only [List.cons_append, chipAfter, ih, List.length_cons]; cases xs <;> simp

theorem busEvents_append (es fs : List Event) : busEvents (es ++ fs) = busEvents es ++ busEvents fs :=
  List.filter_append ..

theorem Cuttable.bind {α β : Type} {p : State → α × State} {q : α → State → β × State} (hp : Cuttable p)
    (hq : ∀ a, Cuttable (q a)) : Cuttable fun s => q (p s).1 (p s).2 where
  dead s h := by
    obtain ⟨h1, h2⟩ := hp.dead s h
    obtain ⟨h3, h4⟩ := (hq (p s).1).dead _ h1
    exact ⟨h3, h4.trans h2⟩
  run s := by
    obtain ⟨es, h⟩ := hp.run s
    obtain ⟨fs, k⟩ := (hq (p s).1).run (p s).2
    refine ⟨es ++ fs, ?_, ?_, ?_, ?_, ?_, ?_⟩
    · rw [k.trace, h.trace, List.append_assoc]
    · rw [k.answers, h.answers, busEvents_append, List.length_append, List.drop_drop]
    · rw [k.answerRest, h.answerRest]
    · rw [k.chip, h.chip, h.answers, h.answerRest, busEvents_append, chipAfter_append]
    · intro n taken r hn
      rw [busEvents_append, List.length_append] at hn
      rw [h.after n taken r (by omega), busEvents_append, List.length_append]
      dsimp only
      rw [k.after _ taken r (by omega), Nat.sub_sub]
    · intro n taken r hn
      rw [busEvents_append, List.length_append] at hn
      rw [busEvents_append]
      by_cases hc : n < (busEvents es).length
      · obtain ⟨h1, h2⟩ := h.inside n taken r hc
        obtain ⟨h3, h4⟩ := (hq (p (s.cut n taken r)).1).dead _ h1
        refine ⟨h3, ?_⟩
        rw [h4, h2, List.getElem?_append_left hc, List.take_append_of_le_length (by omega)]
      · have hc := Nat.not_lt.mp hc
        rw [h.after n taken r hc]
        obtain ⟨h1, h2⟩ := k.inside (n - (busEvents es).length) taken r (by omega)
        refine ⟨h1, ?_⟩
        dsimp only
        rw [h2, List.getElem?_append_right hc, List.take_append, List.take_of_length_le hc, chipAfter_append, h.chip,
          h.answers, h.answerRest]

/-- A part that touches neither the draws nor the chip. -/
theorem Cuttable.pure {α : Type} (f : State → α) (g : State → State) (es : List Event)
    (hf : ∀ xs x r s, f (s.withInputs xs x r) = f s) (hg : ∀ xs x r s, g (s.withInputs xs x r) = (g s).withInputs xs x r)
    (ht : ∀ s, (g s).trace = s.trace ++ es) (hc : ∀ s, (g s).chip = s.chip) (hb : busEvents es = []) :
    Cuttable fun s => (f s, g s) := by
  have ha : ∀ s, (g s).answers = s.answers ∧ (g s).answerRest = s.answerRest := fun s => by
    have := hg s.answers s.answerRest s.resetIn s
    have e : s.withInputs s.answers s.answerRest s.resetIn = s := rfl
    rw [e] at this; rw [this]; exact ⟨rfl, rfl⟩
  refine ⟨fun s h => ⟨⟨(ha s).1.trans h.1, (ha s).2.trans h.2⟩, hc s⟩,
    fun s => ⟨es, ht s, ?_, (ha s).2, ?_, ?_, ?_⟩⟩
  · rw [hb]; exact (ha s).1
  · rw [hb]; exact hc s
  · intro n taken r _
    rw [hb]
    have h2 : (g s).cut n taken r = (g s).withInputs (s.cut n taken r).answers (s.cut n taken r).answerRest r := by
      simp [State.cut, cutAnswers, firstAnswers, State.withInputs, (ha s).1, (ha s).2]
    dsimp only
    rw [List.length_nil, Nat.sub_zero, h2, State.cut_eq, hf, hg]
    rfl
  · intro n taken r hn; rw [hb] at hn; simp at hn

/-- A part chosen by something that the draws do not tell. -/
theorem Cuttable.reader {α β : Type} (f : State → β) {p : β → State → α × State}
    (hf : ∀ xs x r s, f (s.withInputs xs x r) = f s) (hp : ∀ b, Cuttable (p b)) : Cuttable fun s => p (f s) s where
  dead s h := (hp (f s)).dead s h
  run s := by
    obtain ⟨es, h⟩ := (hp (f s)).run s
    have hfc : ∀ n taken r, f (s.cut n taken r) = f s := fun n taken r => hf _ _ _ s
    refine ⟨es, h.trace, h.answers, h.answerRest, h.chip, ?_, ?_⟩
    · intro n taken r hn; rw [hfc]; exact h.after n taken r hn
    · intro n taken r hn; rw [hfc]; exact h.inside n taken r hn

theorem cut_succ (n : Nat) (taken : Bool) (r : Option ResetInput) (s : State) :
    (s.cut (n + 1) taken r).useAnswer = s.useAnswer.cut n taken r ∧
      (s.cut (n + 1) taken r).nextAnswer = s.nextAnswer := by
  cases h : s.answers with
  | nil =>
    simp [State.cut, cutAnswers, firstAnswers, State.useAnswer, State.nextAnswer, State.tick, h, List.replicate_succ]
  | cons x xs => simp [State.cut, cutAnswers, firstAnswers, State.useAnswer, State.nextAnswer, State.tick, h]

theorem cut_zero (taken : Bool) (r : Option ResetInput) (s : State) :
    Dead (s.cut 0 taken r).useAnswer ∧
      (s.cut 0 taken r).nextAnswer = { fails := true, taken := taken, status := none } := by
  simp [State.cut, cutAnswers, firstAnswers, State.useAnswer, State.nextAnswer, State.tick, Dead]

theorem Dead.use {s : State} (h : Dead s) :
    Dead s.useAnswer ∧ s.nextAnswer = { fails := true, taken := false, status := none } := by
  obtain ⟨h1, h2⟩ := h
  simp [Dead, State.nextAnswer, h1, h2]

/-- One transaction. -/
theorem Cuttable.transaction {α : Type} (ev : Answer → State → Event) (res : Answer → State → α)
    (upd : Answer → State → State)
    (hb : ∀ x s, (ev x s).onBus = true)
    (hev : ∀ x s xs y r, ev x (s.withInputs xs y r) = ev x s) (hres : ∀ x s xs y r, res x (s.withInputs xs y r) = res x s)
    (hupd : ∀ x s xs y r, upd x (s.withInputs xs y r) = (upd x s).withInputs xs y r)
    (htick : ∀ x s, ev x s.tick = ev x s ∧ res x s.tick = res x s)
    (ht : ∀ x s, (upd x s).trace = s.trace ++ [ev x s])
    (hc : ∀ x s, (upd x s).chip = (ev x s).landed x s.chip)
    (hfly : ∀ taken x s, (ev { fails := true, taken := taken, status := none } s).landed
      { fails := true, taken := taken, status := none } s.chip = chipInFlight taken (some (ev x s)) s.chip) :
    Cuttable fun s => (res s.nextAnswer s, upd s.nextAnswer s.useAnswer) := by
  have hu : ∀ x s, (upd x s).answers = s.answers ∧ (upd x s).answerRest = s.answerRest := fun x s => by
    have := hupd x s s.answers s.answerRest s.resetIn
    have e : s.withInputs s.answers s.answerRest s.resetIn = s := rfl
    rw [e] at this; rw [this]; exact ⟨rfl, rfl⟩
  have hue : ∀ s : State, s.useAnswer = s.tick.withInputs s.answers.tail s.answerRest s.resetIn := fun s => rfl
  have hevu : ∀ x s, ev x s.useAnswer = ev x s := fun x s => by rw [hue, hev, (htick x s).1]
  refine ⟨fun s h => ?_, fun s => ⟨[ev s.nextAnswer s], ?_, ?_, ?_, ?_, ?_, ?_⟩⟩
  · obtain ⟨h1, h2⟩ := h.use
    refine ⟨⟨(hu _ _).1.trans h1.1, (hu _ _).2.trans h1.2⟩, ?_⟩
    dsimp only
    rw [hc, hevu, h2]
    show ((ev _ s).landed _ s.chip) = _
    rw [hfly false { fails := true, taken := false, status := none }]
    generalize ev _ s = e
    cases e <;> rfl
  · dsimp only; rw [ht, hevu]; rfl
  · dsimp only; rw [(hu _ _).1]; simp [busEvents, hb]
  · dsimp only; rw [(hu _ _).2]; rfl
  · dsimp only; rw [hc, hevu, busEvents, List.filter_cons_of_pos (hb _ _)]; rfl
  · intro n taken r hn
    simp only [busEvents, List.filter_cons, hb, List.filter_nil, if_true, List.length_singleton] at hn ⊢
    obtain ⟨m, rfl⟩ : ∃ m, n = m + 1 := ⟨n - 1, by omega⟩
    obtain ⟨h1, h2⟩ := cut_succ m taken r s
    rw [h1, h2, Nat.add_sub_cancel]
    rw [State.cut_eq (m + 1) taken r s, hres, State.cut_eq m taken r s.useAnswer, hupd]
    congr 1
    simp [State.cut, cutAnswers, firstAnswers, State.withInputs, (hu _ _).1, (hu _ _).2]
  · intro n taken r hn
    simp only [busEvents, List.filter_cons, hb, List.filter_nil, if_true, List.length_singleton] at hn ⊢
    obtain rfl : n = 0 := by omega
    obtain ⟨h1, h2⟩ := cut_zero taken r s
    refine ⟨⟨(hu _ _).1.trans h1.1, (hu _ _).2.trans h1.2⟩, ?_⟩
    rw [hc, hevu, h2]
    rw [State.cut_eq 0 taken r s, hev]
    exact hfly taken s.nextAnswer s

theorem Cuttable.congr {α : Type} {p q : State → α × State} (h : Cuttable p) (e : ∀ s, q s = p s) : Cuttable q := by
  rw [show q = p from funext e]; exact h

/-! ### Operations -/

theorem memRead_cuttable (a : Byte) : Cuttable (memRead a) := by
  by_cases ha : ADDR_MAX < a
  · refine (Cuttable.pure (fun _ => ReadResult.fail) State.logBusError [] (fun _ _ _ _ => rfl) (fun _ _ _ _ => rfl)
      (fun s => by simp) (fun _ => rfl) rfl).congr fun s => ?_
    unfold memRead; rw [if_pos ha]
  · have key := Cuttable.transaction
      (fun x s => if (readStatus x (s.reg a)).toInt < 0 then Event.rd a .fail
        else .rd a (.ok ((readStatus x (s.reg a)).setWidth 8)))
      (fun x s => if (readStatus x (s.reg a)).toInt < 0 then ReadResult.fail
        else .ok ((readStatus x (s.reg a)).setWidth 8))
      (fun x s => if (readStatus x (s.reg a)).toInt < 0 then (s.emit (.rd a .fail)).logBusError
        else s.emit (.rd a (.ok ((readStatus x (s.reg a)).setWidth 8))))
      (fun x s => by split <;> rfl) (fun _ _ _ _ _ => rfl) (fun _ _ _ _ _ => rfl)
      (fun x s xs y r => by
        show (if (readStatus x (s.reg a)).toInt < 0 then _ else _) = _
        split <;> rfl)
      (fun _ _ => ⟨rfl, rfl⟩)
      (fun x s => by split <;> rfl) (fun x s => by split <;> rfl)
      (fun taken x s => by split <;> split <;> rfl)
    refine key.congr fun s => ?_
    unfold memRead busRd; rw [if_neg ha]
    simp only [State.useAnswer_reg]
    by_cases h : (readStatus s.nextAnswer (s.reg a)).toInt < 0
    · simp [h]
    · simp [h]

theorem memWrite_cuttable (a v : Byte) : Cuttable (memWrite a v) := by
  by_cases ha : ADDR_MAX < a
  · refine (Cuttable.pure (fun _ => BusResult.fail) State.logBusError [] (fun _ _ _ _ => rfl) (fun _ _ _ _ => rfl)
      (fun s => by simp) (fun _ => rfl) rfl).congr fun s => ?_
    unfold memWrite; rw [if_pos ha]
  · have key := Cuttable.transaction
      (fun x _ => if x.fails then Event.wr a v .fail else .wr a v .ok)
      (fun x _ => if x.fails then BusResult.fail else .ok)
      (fun x s => if x.fails then ((if x.taken then s.setReg a v else s).emit (.wr a v .fail)).logBusError
        else (s.setReg a v).emit (.wr a v .ok))
      (fun x s => by split <;> rfl) (fun _ _ _ _ _ => rfl) (fun _ _ _ _ _ => rfl)
      (fun x s xs y r => by
        obtain ⟨f, t, w⟩ := x
        cases f
        · rfl
        · cases t <;> rfl)
      (fun _ _ => ⟨rfl, rfl⟩)
      (fun x s => by
        obtain ⟨f, t, w⟩ := x
        cases f
        · rfl
        · cases t <;> rfl)
      (fun x s => by
        obtain ⟨f, t, w⟩ := x
        cases f
        · rfl
        · cases t <;> rfl)
      (fun taken x s => by
        cases x.fails <;> rfl)
    refine key.congr fun s => ?_
    unfold memWrite busWr; rw [if_neg ha]
    cases s.nextAnswer.fails <;> rfl

theorem memUpdate_cuttable (a mask v : Byte) : Cuttable (memUpdate a mask v) := by
  refine (Cuttable.bind (memRead_cuttable a)
    (q := fun r s => match r with
      | .fail => (.fail, s)
      | .ok b => memWrite a (maskedByte b mask v) (s.setTmp b)) ?_).congr fun s => ?_
  · intro r
    cases r with
    | fail =>
      exact Cuttable.pure (fun _ => BusResult.fail) id [] (fun _ _ _ _ => rfl) (fun _ _ _ _ => rfl) (fun s => by simp)
        (fun _ => rfl) rfl
    | ok b =>
      exact Cuttable.bind (p := fun s => ((), s.setTmp b))
        (Cuttable.pure (fun _ => ()) (State.setTmp b) [] (fun _ _ _ _ => rfl) (fun _ _ _ _ => rfl) (fun s => by simp)
          (fun _ => rfl) rfl)
        (fun _ => memWrite_cuttable a (maskedByte b mask v))
  · unfold memUpdate
    rcases memRead a s with ⟨r, t⟩
    cases r <;> rfl

theorem settle_cuttable (k : DelayKind) : Cuttable (settle k) :=
  Cuttable.pure (fun _ => BusResult.ok) (fun s => (s.emit (.delay k)).tick) [.delay k] (fun _ _ _ _ => rfl)
    (fun _ _ _ _ => rfl) (fun _ => rfl) (fun _ => rfl) rfl

theorem pure_cuttable {α : Type} (a : α) : Cuttable fun s => (a, s) :=
  Cuttable.pure (fun _ => a) id [] (fun _ _ _ _ => rfl) (fun _ _ _ _ => rfl) (fun s => by simp) (fun _ => rfl) rfl

theorem romRead_cuttable : Cuttable romRead :=
  Cuttable.pure (fun _ => BusResult.ok) State.tick [] (fun _ _ _ _ => rfl) (fun _ _ _ _ => rfl) (fun s => by simp)
    (fun _ => rfl) rfl

theorem abortSeq_cuttable {ps : List Step} (h : ∀ p ∈ ps, Cuttable p) : Cuttable (abortSeq ps) := by
  induction ps with
  | nil => exact pure_cuttable _
  | cons p ps ih =>
    refine (Cuttable.bind (h p (by simp)) (q := fun r s => match r with
      | .ok => abortSeq ps s
      | .fail => (.fail, s)) ?_).congr fun s => ?_
    · intro r
      cases r
      · exact ih fun q hq => h q (by simp [hq])
      · exact pure_cuttable _
    · rw [abortSeq.eq_def]; dsimp only
      rcases p s with ⟨r, t⟩
      cases r <;> rfl

theorem Cuttable.map {α β : Type} {p : State → α × State} (h : Cuttable p) (f : α → β) :
    Cuttable fun s => (f (p s).1, (p s).2) :=
  Cuttable.bind h fun a => pure_cuttable (f a)

theorem aggregateSeq_cuttable {ps : List Step} (h : ∀ p ∈ ps, Cuttable p) : Cuttable (aggregateSeq ps) := by
  induction ps with
  | nil => exact pure_cuttable _
  | cons p ps ih =>
    have ih := ih fun q hq => h q (by simp [hq])
    refine (Cuttable.bind (h p (by simp)) (q := fun r s =>
      ((match r with | .ok => (aggregateSeq ps s).1 | .fail => .fail), (aggregateSeq ps s).2)) ?_).congr fun s => ?_
    · intro r
      cases r
      · exact ih
      · exact ih.map fun _ => BusResult.fail
    · rw [aggregateSeq.eq_def]; dsimp only
      rcases p s with ⟨r, t⟩
      cases r <;> rfl

/-! ### Commands -/

theorem sleepOff_cuttable : Cuttable sleepOff :=
  abortSeq_cuttable (by
    intro p hp
    simp only [List.mem_cons, List.not_mem_nil, or_false] at hp
    rcases hp with rfl | rfl
    · exact memUpdate_cuttable _ _ _
    · exact settle_cuttable _)

theorem setChannelBrightness_cuttable (ch : Channel) (brt cur : Byte) :
    Cuttable (setChannelBrightness ch brt cur) := by
  refine Cuttable.reader State.cfg (p := fun c => abortSeq
    ([sleepOff, memWrite (brtAddr ch) brt] ++
      (if cur < CUR_KEEP then [memUpdate (curAddr ch) M_CUR cur] else []) ++
      [memUpdate A_CTRL (enMask c ch) (enableValue (enMask c ch) brt)])) (fun _ _ _ _ => rfl) fun c =>
    abortSeq_cuttable ?_
  intro p hp
  simp only [List.mem_append, List.mem_cons, List.not_mem_nil, or_false] at hp
  rcases hp with ((rfl | rfl) | hp) | rfl
  · exact sleepOff_cuttable
  · exact memWrite_cuttable _ _
  · split at hp
    · simp only [List.mem_cons, List.not_mem_nil, or_false] at hp
      subst hp
      exact memUpdate_cuttable _ _ _
    · simp at hp
  · exact memUpdate_cuttable _ _ _

theorem getChannelBrightness_cuttable (ch : Channel) : Cuttable (getChannelBrightness ch) := by
  refine (Cuttable.bind sleepOff_cuttable (q := fun r s => match r with
    | .fail => (.fail, s)
    | .ok => memRead (brtAddr ch) s) ?_).congr fun s => ?_
  · intro r
    cases r
    · exact memRead_cuttable _
    · exact pure_cuttable _
  · unfold getChannelBrightness
    rcases sleepOff s with ⟨r, t⟩
    cases r <;> rfl

theorem applied_cuttable {p : State → BusResult × State} (h : Cuttable p) : Cuttable fun s => applied (p s) :=
  (h.map fun r => match r with | .ok => .ok | .fail => .busFail).congr fun s => by
    unfold applied; rcases p s with ⟨r, t⟩; cases r <;> rfl

theorem applyPercentage_cuttable (p : Byte) : Cuttable (applyPercentage p) := by
  have hl : Cuttable fun s => ((), s.setLastPct p) :=
    Cuttable.pure (fun _ => ()) (State.setLastPct p) [] (fun _ _ _ _ => rfl) (fun _ _ _ _ => rfl) (fun s => by simp)
      (fun _ => rfl) rfl
  refine Cuttable.reader (fun s => (s.cfg, s.tblIdx)) (p := fun b s =>
    if 3 ≤ b.2 then (.rangeFail, s)
    else if PCT_MAX < p then (.rangeFail, s)
    else if p = 0 then applied (abortSeq fullOffSteps (s.setLastPct p))
    else applied (abortSeq (blendSteps b.1 b.2 p) (s.setLastPct p))) (fun _ _ _ _ => rfl) ?_
  rintro ⟨c, t⟩
  dsimp only
  by_cases h1 : 3 ≤ t
  · simp only [if_pos h1]; exact pure_cuttable _
  · simp only [if_neg h1]
    by_cases h2 : PCT_MAX < p
    · simp only [if_pos h2]; exact pure_cuttable _
    · simp only [if_neg h2]
      split
      · refine hl.bind (q := fun _ s => applied (abortSeq fullOffSteps s)) fun _ => applied_cuttable (abortSeq_cuttable ?_)
        intro q hq
        simp only [fullOffSteps, List.mem_cons, List.not_mem_nil, or_false] at hq
        rcases hq with rfl | rfl <;> exact setChannelBrightness_cuttable _ _ _
      · refine hl.bind (q := fun _ s => applied (abortSeq (blendSteps c t p) s)) fun _ =>
          applied_cuttable (abortSeq_cuttable ?_)
        intro q hq
        simp only [blendSteps, List.mem_cons, List.not_mem_nil, or_false] at hq
        rcases hq with rfl | rfl | rfl | rfl | rfl
        · exact romRead_cuttable
        · exact romRead_cuttable
        · exact setChannelBrightness_cuttable _ _ _
        · exact setChannelBrightness_cuttable _ _ _
        · exact memUpdate_cuttable _ _ _

theorem backend_cuttable (ch : Channel) (b : Byte) : Cuttable fun s : State =>
    ((), if pick s.cfg.maxBrt ch < b then s else (setChannelBrightness ch b (pick s.cfg.fullScale ch) s).2) := by
  refine Cuttable.reader State.cfg (p := fun c s =>
    ((), if pick c.maxBrt ch < b then s else (setChannelBrightness ch b (pick c.fullScale ch) s).2))
    (fun _ _ _ _ => rfl) fun c => ?_
  by_cases h : pick c.maxBrt ch < b
  · simp only [if_pos h]; exact pure_cuttable _
  · simp only [if_neg h]; exact (setChannelBrightness_cuttable _ _ _).map fun _ => ()

theorem setAttached_cuttable (v : Bool) : Cuttable fun s => ((), s.setAttached v) :=
  Cuttable.pure (fun _ => ()) (State.setAttached v) [] (fun _ _ _ _ => rfl) (fun _ _ _ _ => rfl) (fun s => by simp)
    (fun _ => rfl) rfl

theorem curveRead_cuttable (p : Byte) : Cuttable fun s => ((), curveRead p s) :=
  Cuttable.pure (fun _ => ()) (curveRead p) [] (fun _ _ _ _ => rfl)
    (fun _ _ _ _ => by unfold curveRead; split <;> rfl) (fun s => by unfold curveRead romRead; split <;> simp)
    (fun _ => by unfold curveRead; split <;> rfl) rfl

theorem initStart_cuttable : Cuttable fun s => ((), initStart s) :=
  Cuttable.pure (fun _ => ()) initStart [.rail1, .delay .rail] (fun _ _ _ _ => rfl) (fun _ _ _ _ => rfl)
    (fun s => by simp [initStart, settle]) (fun _ => rfl) rfl

theorem beforeResponse_cuttable (i : Instr) : Cuttable fun s => ((), beforeResponse i s) := by
  refine Cuttable.reader (fun s => admitted i s) (p := fun b s => ((), if b then commandSequence i s else s))
    (fun _ _ _ _ => by cases i <;> rfl) fun b => ?_
  cases b
  case false => exact pure_cuttable _
  simp only [if_true]
  have hu : ∀ {α : Type} {p : State → α × State}, Cuttable p → Cuttable fun s => ((), (p s).2) :=
    fun h => h.map fun _ => ()
  cases i
  case rd => exact hu (memRead_cuttable _)
  case wr => exact hu (memWrite_cuttable _ _)
  case upd => exact hu (memUpdate_cuttable _ _ _)
  case stat => exact pure_cuttable _
  case init =>
    refine Cuttable.reader State.cfg (p := fun c s => ((), match aggregateSeq (initSteps c) (initStart s) with
      | (.ok, t) => t.setAttached true
      | (.fail, t) => t)) (fun _ _ _ _ => rfl) fun c => ?_
    have h1 : Cuttable (aggregateSeq (initSteps c)) := aggregateSeq_cuttable (by
      intro p hp
      simp only [initSteps, List.mem_cons, List.not_mem_nil, or_false] at hp
      rcases hp with rfl | rfl | rfl | rfl | rfl | rfl | rfl | rfl | rfl | rfl
      all_goals first | exact memWrite_cuttable _ _ | exact memUpdate_cuttable _ _ _ | exact settle_cuttable _)
    refine ((initStart_cuttable.bind (q := fun _ s => aggregateSeq (initSteps c) s) fun _ => h1).bind
      (q := fun r t => match r with | .ok => ((), t.setAttached true) | .fail => ((), t)) ?_).congr ?_
    · intro r; cases r
      · exact setAttached_cuttable _
      · exact pure_cuttable _
    · intro s; dsimp only
      rcases aggregateSeq (initSteps c) (initStart s) with ⟨r, t⟩; cases r <;> rfl
  case setch => exact hu (setChannelBrightness_cuttable _ _ _)
  case getch => exact hu (getChannelBrightness_cuttable _)
  case shutdown =>
    refine Cuttable.bind (q := fun _ s => ((), s.setAttached false)) (p := aggregateSeq shutdownSteps)
      (aggregateSeq_cuttable ?_) fun _ => setAttached_cuttable _
    intro p hp
    simp only [shutdownSteps, List.mem_cons, List.not_mem_nil, or_false] at hp
    rcases hp with rfl | rfl <;> exact memWrite_cuttable _ _
  case pct2raw => exact curveRead_cuttable _
  case flsel idx =>
    by_cases h : 3 ≤ idx
    · simp only [commandSequence, if_pos h]; exact pure_cuttable _
    · simp only [commandSequence, if_neg h]
      refine Cuttable.reader State.lastPct (p := fun l s => ((), (applyPercentage l (s.setTblIdx idx)).2))
        (fun _ _ _ _ => rfl) fun l => ?_
      exact Cuttable.bind (p := fun s => ((), s.setTblIdx idx)) (q := fun _ s => ((), (applyPercentage l s).2))
        (Cuttable.pure (fun _ => ()) (State.setTblIdx idx) [] (fun _ _ _ _ => rfl) (fun _ _ _ _ => rfl) (fun s => by simp)
          (fun _ => rfl) rfl) fun _ => hu (applyPercentage_cuttable _)
  case flapply => exact hu (applyPercentage_cuttable _)
  case flidx => exact pure_cuttable _
  case blset ch b => exact backend_cuttable ch b
  case blget => exact hu (getChannelBrightness_cuttable _)
  case vset => exact hu (applyPercentage_cuttable _)
  case vget => exact pure_cuttable _
  case blpct ch p =>
    refine Cuttable.reader State.cfg (p := fun c s => ((), if pick c.maxBrt ch < percentToRaw c ch p then curveRead p s
      else (setChannelBrightness ch (percentToRaw c ch p) (pick c.fullScale ch) (curveRead p s)).2))
      (fun _ _ _ _ => rfl) fun c => ?_
    by_cases h : pick c.maxBrt ch < percentToRaw c ch p
    · simp only [if_pos h]; exact curveRead_cuttable _
    · simp only [if_neg h]
      exact (curveRead_cuttable p).bind
        (q := fun _ s => ((), (setChannelBrightness ch (percentToRaw c ch p) (pick c.fullScale ch) s).2)) fun _ =>
        hu (setChannelBrightness_cuttable _ _ _)

/-- A command is the sequence before its response, and the response. -/
theorem exec_beforeResponse (i : Instr) (s : State) :
    ∃ st v, exec i s = .next ((beforeResponse i s).responded st v) := by
  have hf : ∀ a b (p : BusResult × State), ∃ st v, finish a b p = .next (p.2.responded st v) := by
    rintro a b ⟨r, t⟩; cases r <;> exact ⟨_, _, rfl⟩
  have hr : ∀ p : ReadResult × State, ∃ st v, finishRead p = .next (p.2.responded st v) := by
    rintro ⟨r, t⟩; cases r <;> exact ⟨_, _, rfl⟩
  have ha : ∀ b (p : ApplyResult × State), ∃ st v, finishApply b p = .next (p.2.responded st v) := by
    rintro b ⟨r, t⟩; cases r <;> exact ⟨_, _, rfl⟩
  have hg : ∀ {o : Host.Outcome State Fault Refusal} {u : State}, (∃ st v, o = .next (u.responded st v)) →
      ∃ st v, whenAttached s o = .next ((if s.attached then u else s).responded st v) := by
    intro o u h
    cases hh : s.attached with
    | true => rw [whenAttached_of hh]; exact h
    | false => rw [whenAttached_not hh]; exact ⟨_, _, rfl⟩
  have hb : ∀ ch b o s, ∃ st v, backendSet ch b o s = .next ((if pick s.cfg.maxBrt ch < b then s
      else (setChannelBrightness ch b (pick s.cfg.fullScale ch) s).2).responded st v) := by
    intro ch b o s; unfold backendSet; split
    · exact ⟨_, _, rfl⟩
    · exact hf _ _ _
  cases i
  case rd => exact hr _
  case wr => exact hf _ _ _
  case upd => exact hf _ _ _
  case stat => exact ⟨_, _, rfl⟩
  case pct2raw => exact ⟨_, _, rfl⟩
  case init =>
    cases hh : s.attached with
    | true =>
      rw [show beforeResponse .init s = s by simp [beforeResponse, admitted, needsAttached, hh]]
      simp only [exec, execInit, whenDetached_not hh]; exact ⟨_, _, rfl⟩
    | false =>
      simp only [exec, execInit, whenDetached_of hh, beforeResponse, commandSequence, admitted, needsAttached, hh]
      rcases aggregateSeq (initSteps s.cfg) (initStart s) with ⟨r, t⟩
      cases r <;> exact ⟨_, _, rfl⟩
  case flsel idx =>
    refine hg ?_
    by_cases h : 3 ≤ idx
    · simp only [commandSequence, if_pos h]; exact ⟨_, _, rfl⟩
    · simp only [commandSequence, if_neg h]; exact ⟨_, _, rfl⟩
  case blset ch b => exact hg (hb ch b _ s)
  case blpct ch p =>
    obtain ⟨st, v, h⟩ := hb ch (percentToRaw s.cfg ch p) (percentToRaw s.cfg ch p) (curveRead p s)
    have hc : (curveRead p s).cfg = s.cfg := by unfold curveRead; split <;> rfl
    rw [hc] at h
    exact hg ⟨st, v, h⟩
  case setch => exact hg (hf _ _ _)
  case getch => exact hg (hr _)
  case blget => exact hg (hr _)
  case flapply => exact hg (ha _ _)
  case vset => exact hg (ha _ _)
  case shutdown => exact hg ⟨_, _, rfl⟩
  case flidx => exact hg ⟨_, _, rfl⟩
  case vget => exact hg ⟨_, _, rfl⟩

end Sys2Proof.Machine
end

