-- ==== Sys2Proof/Laws/Encoding.lean ====
section
/-! SUPPORT. The four byte fields of a command word: packing and taking apart are inverse, and a mask works field by
field. -/

namespace Sys2Proof

@[simp] theorem fieldOp_packWord (op a b c : Byte) : fieldOp (packWord op a b c) = op := by
  unfold fieldOp packWord
  ext i hi
  simp
  grind

@[simp] theorem fieldA_packWord (op a b c : Byte) : fieldA (packWord op a b c) = a := by
  unfold fieldA packWord
  ext i hi
  simp
  grind

@[simp] theorem fieldB_packWord (op a b c : Byte) : fieldB (packWord op a b c) = b := by
  unfold fieldB packWord
  ext i hi
  simp
  grind

@[simp] theorem fieldC_packWord (op a b c : Byte) : fieldC (packWord op a b c) = c := by
  unfold fieldC packWord
  ext i hi
  simp
  grind

/-- Every word is its four fields. -/
theorem packWord_fields (w : CommandWord) : packWord (fieldOp w) (fieldA w) (fieldB w) (fieldC w) = w := by
  unfold fieldOp fieldA fieldB fieldC packWord
  ext i hi
  simp
  grind

/-- Equal fields, equal words. -/
theorem packWord_injective {op a b c op' a' b' c' : Byte} (h : packWord op a b c = packWord op' a' b' c') :
    op = op' ∧ a = a' ∧ b = b' ∧ c = c' := by
  refine ⟨?_, ?_, ?_, ?_⟩
  · simpa using congrArg fieldOp h
  · simpa using congrArg fieldA h
  · simpa using congrArg fieldB h
  · simpa using congrArg fieldC h

/-- Two words are equal exactly if their fields are. -/
theorem packWord_inj {op a b c op' a' b' c' : Byte} :
    packWord op a b c = packWord op' a' b' c' ↔ op = op' ∧ a = a' ∧ b = b' ∧ c = c' :=
  ⟨packWord_injective, fun ⟨h1, h2, h3, h4⟩ => by rw [h1, h2, h3, h4]⟩

/-- A mask works field by field. -/
theorem packWord_and (op a b c op' a' b' c' : Byte) :
    packWord op a b c &&& packWord op' a' b' c' = packWord (op &&& op') (a &&& a') (b &&& b') (c &&& c') := by
  unfold packWord
  ext i hi
  simp
  grind

/-- A row given by its fields selects the words whose masked fields are its own. -/
theorem selects_packWord (name : String) (op a b c m0 m1 m2 m3 v0 v1 v2 v3 : Byte) :
    (OpcodeRow.mk name (packWord v0 v1 v2 v3) (packWord m0 m1 m2 m3)).selects (packWord op a b c) = true ↔
      op &&& m0 = v0 ∧ a &&& m1 = v1 ∧ b &&& m2 = v2 ∧ c &&& m3 = v3 := by
  simp [OpcodeRow.selects, packWord_and, packWord_inj]

/-- The rows of R75 with their words written by fields. -/
def opcodeRowsByField : List OpcodeRow :=
  [ ⟨"RD", packWord 0x01 0 0 0, packWord 0xFF 0x00 0xFF 0xFF⟩,
    ⟨"WR", packWord 0x02 0 0 0, packWord 0xFF 0x00 0xFF 0x00⟩,
    ⟨"UPD", packWord 0x03 0 0 0, packWord 0xFF 0x00 0x00 0x00⟩,
    ⟨"STAT", packWord 0x04 0 0 0, packWord 0xFF 0xFF 0xFF 0xFF⟩,
    ⟨"INIT", packWord 0x10 0 0 0, packWord 0xFF 0xFF 0xFF 0xFF⟩,
    ⟨"SETCH", packWord 0x11 0 0 0, packWord 0xFF 0xFE 0x00 0x00⟩,
    ⟨"GETCH", packWord 0x12 0 0 0, packWord 0xFF 0xFE 0xFF 0xFF⟩,
    ⟨"SHUTDOWN", packWord 0x13 0 0 0, packWord 0xFF 0xFF 0xFF 0xFF⟩ ] ++
  [ ⟨"PCT2RAW", packWord 0x20 0 0 0, packWord 0xFF 0xFE 0xFF 0x00⟩,
    ⟨"FLSEL", packWord 0x30 0 0 0, packWord 0xFF 0xFF 0xFF 0x00⟩,
    ⟨"FLAPPLY", packWord 0x31 0 0 0, packWord 0xFF 0xFF 0xFF 0x00⟩,
    ⟨"FLIDX", packWord 0x32 0 0 0, packWord 0xFF 0xFF 0xFF 0xFF⟩,
    ⟨"BLSET", packWord 0x40 0 0 0, packWord 0xFF 0xFE 0x00 0xFF⟩,
    ⟨"BLGET", packWord 0x41 0 0 0, packWord 0xFF 0xFE 0xFF 0xFF⟩,
    ⟨"VSET", packWord 0x42 0 0 0, packWord 0xFF 0xFF 0xFF 0x00⟩,
    ⟨"VGET", packWord 0x43 0 0 0, packWord 0xFF 0xFF 0xFF 0xFF⟩,
    ⟨"BLPCT", packWord 0x44 0 0 0, packWord 0xFF 0xFE 0xFF 0x00⟩ ]

theorem opcodeRows_eq_byField : opcodeRows = opcodeRowsByField := by decide

theorem whenZero_eq_command {z : Bool} {i j : Instr} : whenZero z i = .command j ↔ z = true ∧ i = j := by
  unfold whenZero; cases z <;> simp

theorem whenChannel_eq_command {a : Byte} {z : Bool} {f : Channel → Instr} {j : Instr} :
    whenChannel a z f = .command j ↔ ∃ ch, a = channelCode ch ∧ z = true ∧ f ch = j := by
  unfold whenChannel
  constructor
  · intro h
    split at h
    · next ha => exact ⟨.A, ha, whenZero_eq_command.mp h⟩
    · split at h
      · next ha => exact ⟨.B, ha, whenZero_eq_command.mp h⟩
      · cases h
  · rintro ⟨ch, rfl, hz⟩
    cases ch
    · exact whenZero_eq_command.mpr hz
    · exact whenZero_eq_command.mpr hz

/-- The bit the rows leave free in the channel field takes the two channel codes and no other. -/
theorem and_FE_eq_zero (a : Byte) : a &&& 0xFE = 0 ↔ a = 0x00 ∨ a = 0x01 := by
  revert a; decide

end Sys2Proof
end

