-- ==== Sys2Proof/Laws/FaultFree.lean ====
section
/-! SUPPORT. What the bus operations leave when nothing fails, register by register and event by event. -/

namespace Sys2Proof.Machine

theorem wf_afterWrite {a v : Byte} {s : State} (h : Memory.wf s.chip = true) (ha : a ≤ ADDR_MAX) :
    Memory.wf (afterWrite a v s).chip = true :=
  State.setReg_wf (s := s.useAnswer) v h ha
theorem reg_afterWrite_same {a v : Byte} {s : State} (h : Memory.wf s.chip = true) :
    (afterWrite a v s).reg a = v :=
  State.setReg_reg_same (s := s.useAnswer) h a v
theorem reg_afterWrite_ne {a b v : Byte} {s : State} (h : b ≠ a) : (afterWrite a v s).reg b = s.reg b :=
  State.setReg_reg_ne s.useAnswer v (Ne.symm h)

/-- `t` follows from `s` by bus operations in which nothing failed: its registers read as `f`, and `es` are the events. -/
structure Wrote (s t : State) (f : Byte → Byte) (es : List Event) : Prop where
  wf : Memory.wf t.chip = true
  reg : ∀ a, t.reg a = f a
  trace : t.trace = s.trace ++ es
  errlog : t.errlog = s.errlog
  block : SameBlock s t
  free : FaultFree t

theorem wrote_refl {s : State} (h : FaultFree s) (hw : Memory.wf s.chip = true) : Wrote s s s.reg [] :=
  ⟨hw, fun _ => rfl, by simp, rfl, SameBlock.refl s, h⟩

theorem Wrote.write {s t : State} {f es} (h : Wrote s t f es) {a v : Byte} (ha : a ≤ ADDR_MAX) :
    Wrote s (afterWrite a v t) (fun b => if b = a then v else f b) (es ++ [.wr a v .ok]) := by
  refine ⟨wf_afterWrite h.wf ha, ?_, ?_, h.errlog,
    h.block.trans ⟨rfl, rfl, rfl, rfl, rfl, rfl, rfl, rfl, rfl⟩,
    faultFree_afterWrite h.free⟩
  · intro b
    by_cases hb : b = a
    · subst hb; simp [reg_afterWrite_same h.wf]
    · simp [hb, reg_afterWrite_ne hb, h.reg]
  · show t.trace ++ _ = _; rw [h.trace, List.append_assoc]

theorem Wrote.read {s t : State} {f es} (h : Wrote s t f es) {a : Byte} :
    Wrote s (afterRead a t) f (es ++ [.rd a (.ok (f a))]) :=
  ⟨h.wf, h.reg, by show t.trace ++ _ = _; rw [h.trace, List.append_assoc, h.reg], h.errlog,
    h.block.trans ⟨rfl, rfl, rfl, rfl, rfl, rfl, rfl, rfl, rfl⟩, faultFree_afterRead h.free⟩

theorem Wrote.update {s t : State} {f es} (h : Wrote s t f es) {a m v : Byte} (ha : a ≤ ADDR_MAX) :
    Wrote s (afterUpdate a m v t) (fun b => if b = a then maskedByte (f a) m v else f b)
      (es ++ [.rd a (.ok (f a)), .wr a (maskedByte (f a) m v) .ok]) := by
  have h1 : Wrote s ((afterRead a t).setTmp (t.reg a)) f (es ++ [.rd a (.ok (f a))]) :=
    let k := h.read (a := a)
    ⟨k.wf, k.reg, k.trace, k.errlog, k.block.trans ⟨rfl, rfl, rfl, rfl, rfl, rfl, rfl, rfl, rfl⟩, k.free⟩
  have h2 := h1.write (v := maskedByte (t.reg a) m v) ha
  rw [h.reg] at h2
  simpa [afterUpdate, h.reg] using h2

theorem Wrote.delay {s t : State} {f es} (h : Wrote s t f es) {k : DelayKind} :
    Wrote s (settle k t).2 f (es ++ [.delay k]) :=
  ⟨h.wf, h.reg, by show t.trace ++ _ = _; rw [h.trace, List.append_assoc], h.errlog,
    h.block.trans ⟨rfl, rfl, rfl, rfl, rfl, rfl, rfl, rfl, rfl⟩, h.free⟩

theorem Wrote.sleep {s t : State} {f es} (h : Wrote s t f es) :
    Wrote s (afterSleepOff t) (fun b => if b = 0 then awake (f 0) else f b)
      (es ++ [.rd 0 (.ok (f 0)), .wr 0 (awake (f 0)) .ok, .delay .sleep]) := by
  have h1 := (h.update (a := A_CTRL) (m := M_SLEEP) (v := V_SLEEP_OFF) A_CTRL_le).delay (k := .sleep)
  have : maskedByte (f A_CTRL) M_SLEEP V_SLEEP_OFF = awake (f 0) := by
    show (f 0 &&& ~~~ (0x80#8)) ||| (0x00#8 &&& 0x80#8) = f 0 &&& 0x7F
    generalize f 0 = x
    revert x; decide
  rw [this] at h1
  refine ⟨h1.wf, h1.reg, ?_, h1.errlog, h1.block, h1.free⟩
  have := h1.trace
  rw [List.append_assoc] at this
  exact this

theorem Wrote.current {s t : State} {f es} (h : Wrote s t f es) {ch : Channel} {cur : Byte} :
    Wrote s (afterCurrent ch cur t) (fun b => if b = curAddr ch then currentAfterSet cur (f (curAddr ch)) else f b)
      (es ++ (if cur < 0x20 then [.rd (curAddr ch) (.ok (f (curAddr ch))),
        .wr (curAddr ch) (currentAfterSet cur (f (curAddr ch))) .ok] else [])) := by
  unfold afterCurrent currentAfterSet
  by_cases hc : cur < CUR_KEEP
  · have hc' : cur < 0x20 := hc
    rw [if_pos hc, if_pos hc', if_pos hc']
    have h1 := h.update (a := curAddr ch) (m := M_CUR) (v := cur) (curAddr_le ch)
    have : maskedByte (f (curAddr ch)) M_CUR cur = (f (curAddr ch) &&& 0xE0) ||| cur := by
      show (f (curAddr ch) &&& ~~~ (0x1F#8)) ||| (cur &&& 0x1F#8) = _
      have : cur &&& 0x1F#8 = cur := by
        clear h1 hc; revert hc'; revert cur; decide
      rw [this]; rfl
    rw [this] at h1; exact h1
  · have hc' : ¬ cur < 0x20 := hc
    rw [if_neg hc, if_neg hc', if_neg hc']
    refine ⟨h.wf, ?_, by simpa using h.trace, h.errlog, h.block, h.free⟩
    intro b; rw [h.reg]; split <;> simp_all

/-- A setChannelBrightness (41_chipcontroller.md R102) in which nothing failed. -/
theorem Wrote.set {s t : State} {f es} (h : Wrote s t f es) {ch : Channel} {brt cur : Byte} :
    Wrote s (afterSet ch brt cur t)
      (fun b => if b = 0 then ctrlAfterSet s.cfg ch brt (f 0) else if b = brtAddr ch then brt
        else if b = curAddr ch then currentAfterSet cur (f (curAddr ch)) else f b)
      (es ++ setEvents s.cfg ch brt cur (f 0) (f (curAddr ch))) := by
  have h1 := ((h.sleep.write (a := brtAddr ch) (v := brt) (brtAddr_le ch)).current (ch := ch) (cur := cur)).update
    (a := A_CTRL) (m := enMask t.cfg ch) (v := enableValue (enMask t.cfg ch) brt) A_CTRL_le
  have e0 : afterSet ch brt cur t = afterUpdate A_CTRL (enMask t.cfg ch) (enableValue (enMask t.cfg ch) brt)
      (afterCurrent ch cur (afterWrite (brtAddr ch) brt (afterSleepOff t))) := rfl
  rw [h.block.cfg] at h1 e0
  rw [e0]
  have hm : ∀ x, maskedByte (awake x) (enMask s.cfg ch) (enableValue (enMask s.cfg ch) brt) =
      ctrlAfterSet s.cfg ch brt x := by
    intro x; unfold maskedByte ctrlAfterSet enableValue
    show _ ||| ((if (4:Byte) ≤ brt then enMask s.cfg ch else 0) &&& enMask s.cfg ch) = _
    split <;> simp
  have n1 : brtAddr ch ≠ 0 := by cases ch <;> decide
  have n2 : curAddr ch ≠ 0 := by cases ch <;> decide
  have n3 : curAddr ch ≠ brtAddr ch := by cases ch <;> decide
  have n4 : (A_CTRL : Byte) = 0 := rfl
  simp only [n4, n2, n3, n1.symm, n2.symm, if_false, if_true, hm] at h1
  refine ⟨h1.wf, ?_, ?_, h1.errlog, h1.block, h1.free⟩
  · intro b; rw [show A_CTRL = 0 from rfl, h1.reg]
    by_cases b0 : b = 0
    · subst b0; simp only [if_true]
    · by_cases b1 : b = brtAddr ch
      · subst b1; simp only [n1, n3.symm, if_true, if_false]
      · by_cases b2 : b = curAddr ch
        · subst b2; simp only [n2, n3, if_true, if_false]
        · simp only [b0,b1,b2, if_false]
  · rw [show A_CTRL = 0 from rfl, h1.trace]; simp [setEvents]

theorem channelDriven_afterSet {s : State} (h : FaultFree s) (hw : Memory.wf s.chip = true) (ch : Channel) (brt cur : Byte)
    (st : Status) (v : Byte) : ChannelDriven s ((afterSet ch brt cur s).responded st v) ch brt cur := by
  have k := (wrote_refl h hw).set (ch := ch) (brt := brt) (cur := cur)
  have n1 : brtAddr ch ≠ 0 := by cases ch <;> decide
  have n2 : curAddr ch ≠ 0 := by cases ch <;> decide
  have n3 : curAddr ch ≠ brtAddr ch := by cases ch <;> decide
  refine ⟨?_, ?_, ?_, ?_, ?_, k.errlog, k.block.responded st v, idle_responded _ _ _⟩
  · show (afterSet ch brt cur s).reg _ = _; rw [k.reg]; simp only [n1, if_true, if_false]
  · show (afterSet ch brt cur s).reg _ = _; rw [k.reg]; simp only [n2, n3, if_true, if_false]
  · show (afterSet ch brt cur s).reg _ = _; rw [k.reg]; simp only [if_true]
  · intro a h1 h2 h3; show (afterSet ch brt cur s).reg _ = _; rw [k.reg]; simp only [h1, h2, h3, if_false]
  · show (afterSet ch brt cur s).trace = _; rw [k.trace]; simp

end Sys2Proof.Machine
end

