-- ==== Sys2Proof/Laws/Lockstep.lean ====
section
/-! SUPPORT. Two runs of one command from states that differ at most in what no command reads: the trace, `errlog`, the
step index and the latches `CMD`, `RSP`, `TMP` (STAT reads `errlog`). They stay alike, and do the same to those. -/

namespace Sys2Proof.Machine

/-- A state without the pieces that no command but STAT reads. -/
def State.core (s : State) : State :=
  { s with trace := [], errlog := false, step := 0, cmd := 0, rsp := 0, tmp := 0 }

/-- Equal but for those pieces. -/
def Alike (s s' : State) : Prop := s.core = s'.core

/-- From `s` to `t` and from `s'` to `t'` the same happened: they are alike at the end, the same events were emitted, the
same `BusError`s logged, the same number of micro-steps done and the same reads latched. -/
structure Lockstep (s s' t t' : State) : Prop where
  alike : Alike t t'
  trace : ∃ es, t.trace = s.trace ++ es ∧ t'.trace = s'.trace ++ es
  errlog : ∃ b, t.errlog = (s.errlog || b) ∧ t'.errlog = (s'.errlog || b)
  step : ∃ n, t.step = s.step + n ∧ t'.step = s'.step + n
  cmd : t.cmd = s.cmd ∧ t'.cmd = s'.cmd
  tmp : (t.tmp = s.tmp ∧ t'.tmp = s'.tmp) ∨ t.tmp = t'.tmp

theorem Alike.fields {s s' : State} (h : Alike s s') :
    s'.cfg = s.cfg ∧ s'.busy = s.busy ∧ s'.railEn = s.railEn ∧ s'.attached = s.attached ∧ s'.tblIdx = s.tblIdx ∧
      s'.lastPct = s.lastPct ∧ s'.chip = s.chip ∧ s'.port = s.port ∧ s'.answers = s.answers ∧
      s'.answerRest = s.answerRest ∧ s'.resetIn = s.resetIn :=
  ⟨(congrArg (State.cfg ·) h.symm :), (congrArg (State.busy ·) h.symm :), (congrArg (State.railEn ·) h.symm :),
    (congrArg (State.attached ·) h.symm :), (congrArg (State.tblIdx ·) h.symm :), (congrArg (State.lastPct ·) h.symm :),
    (congrArg (State.chip ·) h.symm :), (congrArg (State.port ·) h.symm :), (congrArg (State.answers ·) h.symm :),
    (congrArg (State.answerRest ·) h.symm :), (congrArg (State.resetIn ·) h.symm :)⟩

theorem Alike.refl (s : State) : Alike s s := Eq.refl s.core

theorem Lockstep.refl {s s' : State} (h : Alike s s') : Lockstep s s' s s' :=
  ⟨h, ⟨[], by simp⟩, ⟨false, by simp⟩, ⟨0, by simp⟩, ⟨rfl, rfl⟩, .inl ⟨rfl, rfl⟩⟩

theorem Lockstep.trans {s s' t t' u u' : State} (h : Lockstep s s' t t') (k : Lockstep t t' u u') :
    Lockstep s s' u u' := by
  obtain ⟨es, e1, e2⟩ := h.trace
  obtain ⟨fs, f1, f2⟩ := k.trace
  obtain ⟨b, b1, b2⟩ := h.errlog
  obtain ⟨c, c1, c2⟩ := k.errlog
  obtain ⟨m, m1, m2⟩ := h.step
  obtain ⟨n, n1, n2⟩ := k.step
  refine ⟨k.alike, ⟨es ++ fs, by rw [f1, e1, List.append_assoc], by rw [f2, e2, List.append_assoc]⟩,
    ⟨b || c, by rw [c1, b1, Bool.or_assoc], by rw [c2, b2, Bool.or_assoc]⟩,
    ⟨m + n, by rw [n1, m1, Nat.add_assoc], by rw [n2, m2, Nat.add_assoc]⟩,
    ⟨k.cmd.1.trans h.cmd.1, k.cmd.2.trans h.cmd.2⟩, ?_⟩
  rcases k.tmp with ⟨x, y⟩ | x
  · rcases h.tmp with ⟨z, w⟩ | z
    · exact .inl ⟨x.trans z, y.trans w⟩
    · exact .inr (x.trans (z.trans y.symm))
  · exact .inr x

/-! ### Updates -/

theorem tick_lockstep {s s' : State} (h : Alike s s') : Lockstep s s' s.tick s'.tick :=
  ⟨h, ⟨[], by simp⟩, ⟨false, by simp⟩, ⟨1, rfl, rfl⟩, ⟨rfl, rfl⟩, .inl ⟨rfl, rfl⟩⟩

theorem emit_lockstep (e : Event) {s s' : State} (h : Alike s s') : Lockstep s s' (s.emit e) (s'.emit e) :=
  ⟨h, ⟨[e], rfl, rfl⟩, ⟨false, by simp⟩, ⟨0, rfl, rfl⟩, ⟨rfl, rfl⟩, .inl ⟨rfl, rfl⟩⟩

theorem logBusError_lockstep {s s' : State} (h : Alike s s') : Lockstep s s' s.logBusError s'.logBusError :=
  ⟨h, ⟨[], by simp⟩, ⟨true, by simp⟩, ⟨0, rfl, rfl⟩, ⟨rfl, rfl⟩, .inl ⟨rfl, rfl⟩⟩

theorem setTmp_lockstep (b : Byte) {s s' : State} (h : Alike s s') : Lockstep s s' (s.setTmp b) (s'.setTmp b) :=
  ⟨h, ⟨[], by simp⟩, ⟨false, by simp⟩, ⟨0, rfl, rfl⟩, ⟨rfl, rfl⟩, .inr rfl⟩

/-- An update of a piece that commands do read keeps alike states alike. -/
theorem Alike.map {s s' : State} (h : Alike s s') {f : State → State} (hf : ∀ s, (f s).core = (f s.core).core) :
    Alike (f s) (f s') := by
  unfold Alike at *; rw [hf s, hf s', h]

theorem setTblIdx_lockstep (v : Byte) {s s' : State} (h : Alike s s') :
    Lockstep s s' (s.setTblIdx v) (s'.setTblIdx v) :=
  ⟨h.map (f := State.setTblIdx v) fun _ => rfl, ⟨[], by simp⟩, ⟨false, by simp⟩, ⟨1, rfl, rfl⟩, ⟨rfl, rfl⟩,
    .inl ⟨rfl, rfl⟩⟩

theorem setLastPct_lockstep (v : Byte) {s s' : State} (h : Alike s s') :
    Lockstep s s' (s.setLastPct v) (s'.setLastPct v) :=
  ⟨h.map (f := State.setLastPct v) fun _ => rfl, ⟨[], by simp⟩, ⟨false, by simp⟩, ⟨1, rfl, rfl⟩, ⟨rfl, rfl⟩,
    .inl ⟨rfl, rfl⟩⟩

theorem setAttached_lockstep (v : Bool) {s s' : State} (h : Alike s s') :
    Lockstep s s' (s.setAttached v) (s'.setAttached v) :=
  ⟨h.map (f := State.setAttached v) fun _ => rfl, ⟨[], by simp⟩, ⟨false, by simp⟩, ⟨1, rfl, rfl⟩, ⟨rfl, rfl⟩,
    .inl ⟨rfl, rfl⟩⟩

theorem enableRail_lockstep {s s' : State} (h : Alike s s') : Lockstep s s' s.enableRail s'.enableRail :=
  ⟨h.map (f := State.enableRail) fun _ => rfl, ⟨[.rail1], rfl, rfl⟩, ⟨false, by simp⟩, ⟨1, rfl, rfl⟩, ⟨rfl, rfl⟩,
    .inl ⟨rfl, rfl⟩⟩

theorem useAnswer_lockstep {s s' : State} (h : Alike s s') : Lockstep s s' s.useAnswer s'.useAnswer :=
  ⟨h.map (f := State.useAnswer) fun _ => rfl, ⟨[], by simp⟩, ⟨false, by simp⟩, ⟨1, rfl, rfl⟩, ⟨rfl, rfl⟩,
    .inl ⟨rfl, rfl⟩⟩

theorem setReg_lockstep (a v : Byte) {s s' : State} (h : Alike s s') : Lockstep s s' (s.setReg a v) (s'.setReg a v) :=
  ⟨h.map (f := State.setReg a v) fun _ => rfl, ⟨[], by simp⟩, ⟨false, by simp⟩, ⟨0, rfl, rfl⟩, ⟨rfl, rfl⟩,
    .inl ⟨rfl, rfl⟩⟩

/-! ### Bus operations and sequences -/

theorem Alike.reg {s s' : State} (h : Alike s s') (a : Byte) : s'.reg a = s.reg a := by
  unfold State.reg; rw [h.fields.2.2.2.2.2.2.1]

theorem Alike.nextAnswer {s s' : State} (h : Alike s s') : s'.nextAnswer = s.nextAnswer := by
  unfold State.nextAnswer; rw [h.fields.2.2.2.2.2.2.2.2.1, h.fields.2.2.2.2.2.2.2.2.2.1]

theorem Alike.cfg {s s' : State} (h : Alike s s') : s'.cfg = s.cfg := h.fields.1

theorem memRead_lockstep (a : Byte) {s s' : State} (h : Alike s s') :
    (memRead a s').1 = (memRead a s).1 ∧ Lockstep s s' (memRead a s).2 (memRead a s').2 := by
  unfold memRead busRd
  split
  · exact ⟨rfl, logBusError_lockstep h⟩
  · have hu := useAnswer_lockstep h
    rw [h.reg, h.nextAnswer]
    dsimp only
    split
    · have he := hu.trans (emit_lockstep (.rd a .fail) hu.alike)
      exact ⟨rfl, he.trans (logBusError_lockstep he.alike)⟩
    · exact ⟨rfl, hu.trans (emit_lockstep _ hu.alike)⟩

/-- A part does the same from alike states. -/
def KeepsLockstep (p : Step) : Prop :=
  ∀ s s', Alike s s' → (p s').1 = (p s).1 ∧ Lockstep s s' (p s).2 (p s').2

theorem memWrite_lockstep (a v : Byte) : KeepsLockstep (memWrite a v) := by
  intro s s' h
  unfold memWrite busWr
  split
  · exact ⟨rfl, logBusError_lockstep h⟩
  · have hu := useAnswer_lockstep h
    have hr := hu.trans (setReg_lockstep a v hu.alike)
    rw [h.nextAnswer]
    cases s.nextAnswer.fails
    · exact ⟨rfl, hr.trans (emit_lockstep (.wr a v .ok) hr.alike)⟩
    · cases s.nextAnswer.taken
      · have he := hu.trans (emit_lockstep (.wr a v .fail) hu.alike)
        exact ⟨rfl, he.trans (logBusError_lockstep he.alike)⟩
      · have he := hr.trans (emit_lockstep (.wr a v .fail) hr.alike)
        exact ⟨rfl, he.trans (logBusError_lockstep he.alike)⟩

theorem memUpdate_lockstep (a mask v : Byte) : KeepsLockstep (memUpdate a mask v) := by
  intro s s' h
  obtain ⟨h1, h2⟩ := memRead_lockstep a h
  unfold memUpdate
  rcases hp : memRead a s with ⟨r, t⟩
  rcases hp' : memRead a s' with ⟨r', t'⟩
  rw [hp, hp'] at h1 h2
  dsimp only at h1 h2
  subst h1
  cases r' with
  | fail => exact ⟨rfl, h2⟩
  | ok b =>
    have h3 := h2.trans (setTmp_lockstep b h2.alike)
    obtain ⟨k1, k2⟩ := memWrite_lockstep a (maskedByte b mask v) _ _ h3.alike
    exact ⟨k1, h3.trans k2⟩

theorem settle_lockstep (k : DelayKind) : KeepsLockstep (settle k) := fun _ _ h =>
  have h1 := emit_lockstep (.delay k) h
  ⟨rfl, h1.trans (tick_lockstep h1.alike)⟩

theorem romRead_lockstep : KeepsLockstep romRead := fun _ _ h => ⟨rfl, tick_lockstep h⟩

theorem abortSeq_lockstep {ps : List Step} (h : ∀ p ∈ ps, KeepsLockstep p) : KeepsLockstep (abortSeq ps) := by
  induction ps with
  | nil => exact fun s s' hs => ⟨rfl, Lockstep.refl hs⟩
  | cons p rest ih =>
    intro s s' hs
    obtain ⟨h1, h2⟩ := h p (by simp) s s' hs
    rcases hp : p s with ⟨r, t⟩
    rcases hp' : p s' with ⟨r', t'⟩
    rw [hp, hp'] at h1 h2
    dsimp only at h1 h2
    subst h1
    cases r' with
    | ok =>
      rw [abortSeq_cons_ok hp, abortSeq_cons_ok hp']
      obtain ⟨k1, k2⟩ := ih (fun q hq => h q (by simp [hq])) t t' h2.alike
      exact ⟨k1, h2.trans k2⟩
    | fail =>
      rw [abortSeq_cons_fail hp, abortSeq_cons_fail hp']
      exact ⟨rfl, h2⟩

theorem aggregateSeq_lockstep {ps : List Step} (h : ∀ p ∈ ps, KeepsLockstep p) : KeepsLockstep (aggregateSeq ps) := by
  induction ps with
  | nil => exact fun s s' hs => ⟨rfl, Lockstep.refl hs⟩
  | cons p rest ih =>
    intro s s' hs
    obtain ⟨h1, h2⟩ := h p (by simp) s s' hs
    obtain ⟨k1, k2⟩ := ih (fun q hq => h q (by simp [hq])) (p s).2 (p s').2 h2.alike
    obtain ⟨a1, a2⟩ := aggregateSeq_cons p rest s
    obtain ⟨b1, b2⟩ := aggregateSeq_cons p rest s'
    refine ⟨?_, by rw [a1, b1]; exact h2.trans k2⟩
    rw [h1, k1] at b2
    cases hx : (aggregateSeq (p :: rest) s).1 with
    | ok => exact b2.mpr (a2.mp hx)
    | fail =>
      cases hy : (aggregateSeq (p :: rest) s').1 with
      | ok => rw [a2.mpr (b2.mp hy)] at hx; cases hx
      | fail => rfl

theorem sleepOff_lockstep : KeepsLockstep sleepOff :=
  abortSeq_lockstep (by
    intro p hp
    simp only [List.mem_cons, List.not_mem_nil, or_false] at hp
    rcases hp with rfl | rfl
    · exact memUpdate_lockstep _ _ _
    · exact settle_lockstep _)

theorem setChannelBrightness_lockstep (ch : Channel) (brt cur : Byte) :
    KeepsLockstep (setChannelBrightness ch brt cur) := by
  intro s s' h
  unfold setChannelBrightness
  rw [h.cfg]
  refine abortSeq_lockstep ?_ s s' h
  intro p hp
  simp only [List.mem_append, List.mem_cons, List.not_mem_nil, or_false] at hp
  rcases hp with ((rfl | rfl) | hp) | rfl
  · exact sleepOff_lockstep
  · exact memWrite_lockstep _ _
  · split at hp
    · simp only [List.mem_cons, List.not_mem_nil, or_false] at hp
      subst hp
      exact memUpdate_lockstep _ _ _
    · simp at hp
  · exact memUpdate_lockstep _ _ _

theorem getChannelBrightness_lockstep (ch : Channel) {s s' : State} (h : Alike s s') :
    (getChannelBrightness ch s').1 = (getChannelBrightness ch s).1 ∧
      Lockstep s s' (getChannelBrightness ch s).2 (getChannelBrightness ch s').2 := by
  obtain ⟨h1, h2⟩ := sleepOff_lockstep s s' h
  unfold getChannelBrightness
  rcases hp : sleepOff s with ⟨r, t⟩
  rcases hp' : sleepOff s' with ⟨r', t'⟩
  rw [hp, hp'] at h1 h2
  dsimp only at h1 h2
  subst h1
  cases r' with
  | fail => exact ⟨rfl, h2⟩
  | ok =>
    obtain ⟨k1, k2⟩ := memRead_lockstep (brtAddr ch) h2.alike
    exact ⟨k1, h2.trans k2⟩

theorem applyPercentage_lockstep (p : Byte) {s s' : State} (h : Alike s s') :
    (applyPercentage p s').1 = (applyPercentage p s).1 ∧
      Lockstep s s' (applyPercentage p s).2 (applyPercentage p s').2 := by
  have ht : s'.tblIdx = s.tblIdx := h.fields.2.2.2.2.1
  unfold applyPercentage
  rw [ht, h.cfg]
  split
  · exact ⟨rfl, Lockstep.refl h⟩
  · split
    · exact ⟨rfl, Lockstep.refl h⟩
    · have hl := setLastPct_lockstep p h
      have key : ∀ q : Step, KeepsLockstep q →
          (applied (q (s'.setLastPct p))).1 = (applied (q (s.setLastPct p))).1 ∧
            Lockstep s s' (applied (q (s.setLastPct p))).2 (applied (q (s'.setLastPct p))).2 := by
        intro q hq
        obtain ⟨k1, k2⟩ := hq _ _ hl.alike
        rcases hx : q (s.setLastPct p) with ⟨r, t⟩
        rcases hx' : q (s'.setLastPct p) with ⟨r', t'⟩
        rw [hx, hx'] at k1 k2
        dsimp only at k1 k2
        subst k1
        cases r' <;> exact ⟨rfl, hl.trans k2⟩
      split
      · refine key _ (abortSeq_lockstep ?_)
        intro q hq
        simp only [fullOffSteps, List.mem_cons, List.not_mem_nil, or_false] at hq
        rcases hq with rfl | rfl <;> exact setChannelBrightness_lockstep _ _ _
      · refine key _ (abortSeq_lockstep ?_)
        intro q hq
        simp only [blendSteps, List.mem_cons, List.not_mem_nil, or_false] at hq
        rcases hq with rfl | rfl | rfl | rfl | rfl
        · exact romRead_lockstep
        · exact romRead_lockstep
        · exact setChannelBrightness_lockstep _ _ _
        · exact setChannelBrightness_lockstep _ _ _
        · exact memUpdate_lockstep _ _ _

/-! ### Commands -/

/-- Two outcomes of one command: the same response, and the same done to both states. -/
def SameOutcome (s s' : State) (o o' : Host.Outcome State Fault Refusal) : Prop :=
  ∃ u u' st v, o = .next (u.responded st v) ∧ o' = .next (u'.responded st v) ∧ Lockstep s s' u u'

theorem finish_lockstep {a b : Byte} {s s' : State} {p p' : BusResult × State} (h : p'.1 = p.1)
    (k : Lockstep s s' p.2 p'.2) : SameOutcome s s' (finish a b p) (finish a b p') := by
  obtain ⟨r, t⟩ := p
  obtain ⟨r', t'⟩ := p'
  dsimp only at h; subst h
  cases r'
  · exact ⟨t, t', .ok, a, rfl, rfl, k⟩
  · exact ⟨t, t', .errBus, b, rfl, rfl, k⟩

theorem finishRead_lockstep {s s' : State} {p p' : ReadResult × State} (h : p'.1 = p.1)
    (k : Lockstep s s' p.2 p'.2) : SameOutcome s s' (finishRead p) (finishRead p') := by
  obtain ⟨r, t⟩ := p
  obtain ⟨r', t'⟩ := p'
  dsimp only at h; subst h
  cases r' with
  | ok b => exact ⟨t, t', .ok, b, rfl, rfl, k⟩
  | fail => exact ⟨t, t', .errBus, 0, rfl, rfl, k⟩

theorem finishApply_lockstep {b : Byte} {s s' : State} {p p' : ApplyResult × State} (h : p'.1 = p.1)
    (k : Lockstep s s' p.2 p'.2) : SameOutcome s s' (finishApply b p) (finishApply b p') := by
  obtain ⟨r, t⟩ := p
  obtain ⟨r', t'⟩ := p'
  dsimp only at h; subst h
  cases r'
  · exact ⟨t, t', .ok, 0, rfl, rfl, k⟩
  · exact ⟨t, t', .errRange, 0, rfl, rfl, k⟩
  · exact ⟨t, t', .errBus, b, rfl, rfl, k⟩

theorem whenAttached_lockstep {s s' : State} {o o' : Host.Outcome State Fault Refusal} (h : Alike s s')
    (k : SameOutcome s s' o o') : SameOutcome s s' (whenAttached s o) (whenAttached s' o') := by
  have ha : s'.attached = s.attached := h.fields.2.2.2.1
  cases hs : s.attached with
  | true => rw [whenAttached_of hs, whenAttached_of (ha.trans hs)]; exact k
  | false =>
    rw [whenAttached_not hs, whenAttached_not (ha.trans hs)]
    exact ⟨s, s', .errState, 0, rfl, rfl, Lockstep.refl h⟩

theorem curveRead_lockstep (p : Byte) {s s' : State} (h : Alike s s') :
    Lockstep s s' (curveRead p s) (curveRead p s') := by
  unfold curveRead; split
  · exact Lockstep.refl h
  · exact tick_lockstep h

theorem backendSet_lockstep (ch : Channel) (brt okValue : Byte) {s s' : State} (h : Alike s s') :
    SameOutcome s s' (backendSet ch brt okValue s) (backendSet ch brt okValue s') := by
  unfold backendSet
  rw [h.cfg]
  split
  · exact ⟨s, s', .errRange, 0, rfl, rfl, Lockstep.refl h⟩
  · obtain ⟨k1, k2⟩ := setChannelBrightness_lockstep ch brt (pick s.cfg.fullScale ch) s s' h
    exact finish_lockstep k1 k2

theorem initStart_lockstep {s s' : State} (h : Alike s s') : Lockstep s s' (initStart s) (initStart s') := by
  have h1 := setTblIdx_lockstep 0 h
  have h2 := h1.trans (setLastPct_lockstep 0 h1.alike)
  have h3 := h2.trans (enableRail_lockstep h2.alike)
  exact h3.trans (settle_lockstep .rail _ _ h3.alike).2

theorem initSteps_lockstep (c : Config) : ∀ p ∈ initSteps c, KeepsLockstep p := by
  intro p hp
  simp only [initSteps, List.mem_cons, List.not_mem_nil, or_false] at hp
  rcases hp with rfl | rfl | rfl | rfl | rfl | rfl | rfl | rfl | rfl | rfl
  all_goals
    first
      | exact memWrite_lockstep _ _
      | exact memUpdate_lockstep _ _ _
      | exact settle_lockstep _

/-- One command from alike states: the same response, and the same done to both (STAT apart, which reads `errlog`). -/
theorem exec_lockstep {i : Instr} {s s' : State} (h : Alike s s') (hi : i = .stat → s'.errlog = s.errlog) :
    SameOutcome s s' (exec i s) (exec i s') := by
  cases i
  case rd a =>
    obtain ⟨k1, k2⟩ := memRead_lockstep a h
    exact finishRead_lockstep k1 k2
  case wr a v =>
    obtain ⟨k1, k2⟩ := memWrite_lockstep a v s s' h
    exact finish_lockstep k1 k2
  case upd a m v =>
    obtain ⟨k1, k2⟩ := memUpdate_lockstep a m v s s' h
    exact finish_lockstep k1 k2
  case stat =>
    have hb : statByte s' = statByte s := by
      unfold statByte; rw [hi rfl, h.fields.2.2.1, h.fields.2.2.2.1]
    exact ⟨s, s', .ok, statByte s, rfl, by simp only [exec, execStat, respond, hb], Lockstep.refl h⟩
  case init =>
    have ha : s'.attached = s.attached := h.fields.2.2.2.1
    cases hs : s.attached with
    | true =>
      simp only [exec, execInit, whenDetached_not hs, whenDetached_not (ha.trans hs)]
      exact ⟨s, s', .errState, 0, rfl, rfl, Lockstep.refl h⟩
    | false =>
      have h0 := initStart_lockstep h
      obtain ⟨k1, k2⟩ := aggregateSeq_lockstep (initSteps_lockstep s.cfg) _ _ h0.alike
      rcases exec_init_cases s hs with ⟨e, he⟩ | ⟨e, he⟩ <;>
        rcases exec_init_cases s' (ha.trans hs) with ⟨e', he'⟩ | ⟨e', he'⟩ <;>
        rw [h.cfg] at e' he' <;> rw [e, e'] at k1
      · have h1 := h0.trans k2
        exact ⟨_, _, _, _, he, he', h1.trans (setAttached_lockstep true h1.alike)⟩
      · cases k1
      · cases k1
      · exact ⟨_, _, _, _, he, he', h0.trans k2⟩
  case pct2raw ch p =>
    refine ⟨curveRead p s, curveRead p s', .ok, percentToRaw s.cfg ch p, rfl, ?_, curveRead_lockstep p h⟩
    simp only [exec, execPct2raw, respond, h.cfg]
  case blpct ch p =>
    refine whenAttached_lockstep h ?_
    have h1 := curveRead_lockstep p h
    rw [h.cfg]
    obtain ⟨u, u', st, v, e, e', k⟩ := backendSet_lockstep ch (percentToRaw s.cfg ch p) (percentToRaw s.cfg ch p) h1.alike
    exact ⟨u, u', st, v, e, e', h1.trans k⟩
  all_goals refine whenAttached_lockstep h ?_
  case setch ch b c =>
    obtain ⟨k1, k2⟩ := setChannelBrightness_lockstep ch b c s s' h
    exact finish_lockstep k1 k2
  case getch ch =>
    obtain ⟨k1, k2⟩ := getChannelBrightness_lockstep ch h
    exact finishRead_lockstep k1 k2
  case blget ch =>
    obtain ⟨k1, k2⟩ := getChannelBrightness_lockstep ch h
    exact finishRead_lockstep k1 k2
  case shutdown =>
    obtain ⟨k1, k2⟩ := aggregateSeq_lockstep (ps := shutdownSteps) (by
      intro p hp
      simp only [shutdownSteps, List.mem_cons, List.not_mem_nil, or_false] at hp
      rcases hp with rfl | rfl <;> exact memWrite_lockstep _ _) s s' h
    exact ⟨_, _, .ok, 0, rfl, rfl, k2.trans (setAttached_lockstep false k2.alike)⟩
  case flsel idx =>
    have hl : s'.lastPct = s.lastPct := h.fields.2.2.2.2.2.1
    split
    · exact ⟨s, s', .errRange, 0, rfl, rfl, Lockstep.refl h⟩
    · have h1 := setTblIdx_lockstep idx h
      obtain ⟨-, k2⟩ := applyPercentage_lockstep s.lastPct h1.alike
      refine ⟨selectTable idx s, selectTable idx s', .ok, 0, rfl, rfl, ?_⟩
      unfold selectTable
      rw [hl]
      exact h1.trans k2
  case flapply p =>
    obtain ⟨k1, k2⟩ := applyPercentage_lockstep p h
    exact finishApply_lockstep k1 k2
  case vset p =>
    obtain ⟨k1, k2⟩ := applyPercentage_lockstep p h
    exact finishApply_lockstep k1 k2
  case flidx =>
    exact ⟨s, s', .ok, s.tblIdx, rfl, by rw [h.fields.2.2.2.2.1]; rfl, Lockstep.refl h⟩
  case vget =>
    exact ⟨s, s', .ok, s.lastPct, rfl, by rw [h.fields.2.2.2.2.2.1]; rfl, Lockstep.refl h⟩
  case blset ch b => exact backendSet_lockstep ch b 0 h

end Sys2Proof.Machine
end

