-- ==== Sys2Proof/Laws/PerInstr.lean ====
section
/-! SUPPORT. The per-instruction family `Legal` (LAWS.json): the word a command encodes to selects a row of the opcode
map (30_encoding.md R75). -/

namespace Sys2Proof.Laws

/-- The encoding of `i` is a legal word. -/
def Legal.Statement (i : Instr) : Prop := legalWord (encode i) = true

/-- A word is legal if a row, written by fields, selects it. -/
theorem legal_of_selects {w : CommandWord} {r : OpcodeRow} (hr : r ∈ opcodeRowsByField) (h : r.selects w = true) :
    legalWord w = true := by
  unfold legalWord
  rw [opcodeRows_eq_byField]
  exact List.any_eq_true.mpr ⟨r, hr, h⟩

theorem Legal.rd (addr : Byte) : Legal.Statement (.rd addr) :=
  legal_of_selects (r := ⟨"RD", packWord 0x01 0 0 0, packWord 0xFF 0x00 0xFF 0xFF⟩) (by decide)
    (by simp [encode, selects_packWord])

theorem Legal.wr (addr value : Byte) : Legal.Statement (.wr addr value) :=
  legal_of_selects (r := ⟨"WR", packWord 0x02 0 0 0, packWord 0xFF 0x00 0xFF 0x00⟩) (by decide)
    (by simp [encode, selects_packWord])

theorem Legal.upd (addr mask value : Byte) : Legal.Statement (.upd addr mask value) :=
  legal_of_selects (r := ⟨"UPD", packWord 0x03 0 0 0, packWord 0xFF 0x00 0x00 0x00⟩) (by decide)
    (by simp [encode, selects_packWord])

theorem Legal.stat : Legal.Statement .stat := by unfold Legal.Statement; decide

theorem Legal.init : Legal.Statement .init := by unfold Legal.Statement; decide

theorem Legal.setch (ch : Channel) (brt cur : Byte) : Legal.Statement (.setch ch brt cur) :=
  legal_of_selects (r := ⟨"SETCH", packWord 0x11 0 0 0, packWord 0xFF 0xFE 0x00 0x00⟩) (by decide)
    (by cases ch <;> simp [encode, selects_packWord, channelCode])

theorem Legal.getch (ch : Channel) : Legal.Statement (.getch ch) := by
  unfold Legal.Statement; cases ch <;> decide

theorem Legal.shutdown : Legal.Statement .shutdown := by unfold Legal.Statement; decide

theorem Legal.pct2raw (ch : Channel) (pct : Byte) : Legal.Statement (.pct2raw ch pct) :=
  legal_of_selects (r := ⟨"PCT2RAW", packWord 0x20 0 0 0, packWord 0xFF 0xFE 0xFF 0x00⟩) (by decide)
    (by cases ch <;> simp [encode, selects_packWord, channelCode])

theorem Legal.flsel (idx : Byte) : Legal.Statement (.flsel idx) :=
  legal_of_selects (r := ⟨"FLSEL", packWord 0x30 0 0 0, packWord 0xFF 0xFF 0xFF 0x00⟩) (by decide)
    (by simp [encode, selects_packWord])

theorem Legal.flapply (pct : Byte) : Legal.Statement (.flapply pct) :=
  legal_of_selects (r := ⟨"FLAPPLY", packWord 0x31 0 0 0, packWord 0xFF 0xFF 0xFF 0x00⟩) (by decide)
    (by simp [encode, selects_packWord])

theorem Legal.flidx : Legal.Statement .flidx := by unfold Legal.Statement; decide

theorem Legal.blset (ch : Channel) (brt : Byte) : Legal.Statement (.blset ch brt) :=
  legal_of_selects (r := ⟨"BLSET", packWord 0x40 0 0 0, packWord 0xFF 0xFE 0x00 0xFF⟩) (by decide)
    (by cases ch <;> simp [encode, selects_packWord, channelCode])

theorem Legal.blget (ch : Channel) : Legal.Statement (.blget ch) := by
  unfold Legal.Statement; cases ch <;> decide

theorem Legal.vset (pct : Byte) : Legal.Statement (.vset pct) :=
  legal_of_selects (r := ⟨"VSET", packWord 0x42 0 0 0, packWord 0xFF 0xFF 0xFF 0x00⟩) (by decide)
    (by simp [encode, selects_packWord])

theorem Legal.vget : Legal.Statement .vget := by unfold Legal.Statement; decide

theorem Legal.blpct (ch : Channel) (pct : Byte) : Legal.Statement (.blpct ch pct) :=
  legal_of_selects (r := ⟨"BLPCT", packWord 0x44 0 0 0, packWord 0xFF 0xFE 0xFF 0x00⟩) (by decide)
    (by cases ch <;> simp [encode, selects_packWord, channelCode])

end Sys2Proof.Laws
end

