-- ==== Sys2Proof/Tests/Slice0.lean ====
section
/-! SUPPORT. The model's own tests. Expected words, traces and responses are those of spec/95_test_vectors.md (its
vectors follow the rules by hand, not a run of this model); each test names its vector. Then, for every obligation with
premises, a witness that meets them. -/

namespace Sys2Proof.Tests

open Sys2Proof Sys2Proof.Machine

-- one theorem at a time: a hundred kernel evaluations at once would each hold a thread's stack
set_option Elab.async false

/-! ### Decoding: a word of every command (95_test_vectors.md section 3.1) -/

/-- V-EN-1 -/
theorem test_decode_rd : decode 0x01030000 = .command (.rd 0x03) := by decide

/-- V-EN-2 -/
theorem test_decode_wr : decode 0x02040080 = .command (.wr 0x04 0x80) := by decide

/-- V-EN-3 -/
theorem test_decode_upd : decode 0x030107FD = .command (.upd 0x01 0x07 0xFD) := by decide

/-- V-EN-4 -/
theorem test_decode_stat : decode 0x04000000 = .command .stat := by decide

/-- V-EN-5 -/
theorem test_decode_init : decode 0x10000000 = .command .init := by decide

/-- V-EN-6 -/
theorem test_decode_setch_a : decode 0x1100030A = .command (.setch .A 3 10) := by decide

/-- V-EN-7 -/
theorem test_decode_setch_b : decode 0x11014020 = .command (.setch .B 0x40 0x20) := by decide

/-- V-EN-8 -/
theorem test_decode_getch : decode 0x12010000 = .command (.getch .B) := by decide

/-- V-EN-9 -/
theorem test_decode_shutdown : decode 0x13000000 = .command .shutdown := by decide

/-- V-EN-10 -/
theorem test_decode_pct2raw : decode 0x20010050 = .command (.pct2raw .B 80) := by decide

/-- V-EN-11 -/
theorem test_decode_flsel : decode 0x30000001 = .command (.flsel 1) := by decide

/-- V-EN-12 -/
theorem test_decode_flapply : decode 0x31000032 = .command (.flapply 50) := by decide

/-- V-EN-13 -/
theorem test_decode_flidx : decode 0x32000000 = .command .flidx := by decide

/-- V-EN-14 -/
theorem test_decode_blset_a : decode 0x40000300 = .command (.blset .A 3) := by decide

/-- V-EN-20 -/
theorem test_decode_blset_b : decode 0x40010000 = .command (.blset .B 0) := by decide

/-- V-EN-15 -/
theorem test_decode_blget : decode 0x41000000 = .command (.blget .A) := by decide

/-- V-EN-16 -/
theorem test_decode_vset : decode 0x42000032 = .command (.vset 50) := by decide

/-- V-EN-17 -/
theorem test_decode_vget : decode 0x43000000 = .command .vget := by decide

/-- V-EN-18 -/
theorem test_decode_blpct : decode 0x4401000A = .command (.blpct .B 10) := by decide

/-- V-EN-30 to V-EN-33: opcodes the table does not hold. -/
theorem test_decode_unassigned :
    decode 0x00000000 = .illegal .unassignedOpcode ∧ decode 0xFFFFFFFF = .illegal .unassignedOpcode ∧
      decode 0x05000000 = .illegal .unassignedOpcode ∧ decode 0x45000000 = .illegal .unassignedOpcode := by decide

/-- V-EN-34, 35, 36, 39, 40, 41, 42, 43: a non-zero field that the format does not use. -/
theorem test_decode_nonZeroField :
    decode 0x10000001 = .illegal .nonZeroField ∧ decode 0x01030001 = .illegal .nonZeroField ∧
      decode 0x02040180 = .illegal .nonZeroField ∧ decode 0x20000105 = .illegal .nonZeroField ∧
      decode 0x30000100 = .illegal .nonZeroField ∧ decode 0x40000301 = .illegal .nonZeroField ∧
      decode 0x41000001 = .illegal .nonZeroField ∧ decode 0x12010100 = .illegal .nonZeroField := by
  decide

/-- V-EN-37, V-EN-38: a channel field of 2. -/
theorem test_decode_badChannel :
    decode 0x11020000 = .illegal .badChannel ∧ decode 0x20020005 = .illegal .badChannel := by decide

/-- The opcode table numbers a word's bits as the word does, and has no bits above 32. -/
theorem test_decodeTableWord :
    decodeTableWord 32 0x1100030A = some (.setch .A 3 10) ∧ decodeTableWord 32 0x11020000 = none := by decide

/-- The encoder writes the words of V-EN-7 and V-EN-18. -/
theorem test_encode :
    encode (.setch .B 0x40 0x20) = 0x11014020 ∧ encode (.blpct .B 10) = 0x4401000A := by decide

/-! ### Well-formedness: an ill-formed configuration for each check of 00_scope.md R7, and the fixture -/

theorem test_wf_fixture : cfgTest.wf = true := by decide +kernel

/-- A curve whose second entry falls below its first. -/
def fallingCurve : Config :=
  { cfgTest with curve := { cfgTest.curve with a := cfgTest.curve.a.set 0 0xFF } }

theorem test_wf_curve : fallingCurve.curvesMonotone = false ∧ fallingCurve.wf = false := by decide +kernel

/-- `FL[1][A][49]` is not 200. -/
def wrongEntry : Config :=
  { cfgTest with fl := cfgTest.fl.set 1 { cfgTest.fl[1] with a := cfgTest.fl[1].a.set 49 0 } }

theorem test_wf_entries : wrongEntry.givenEntries = false ∧ wrongEntry.wf = false := by decide +kernel

/-- Enable masks: zero, overlapping, on the sleep bit. -/
theorem test_wf_enableMasks :
    ∀ m ∈ ([⟨0x00, 0x02⟩, ⟨0x04, 0x00⟩, ⟨0x06, 0x02⟩, ⟨0x84, 0x02⟩, ⟨0x04, 0x82⟩] : List (PerChannel Byte)),
      ({ cfgTest with mEn := m } : Config).enableMasksOk = false ∧
        ({ cfgTest with mEn := m } : Config).wf = false := by decide +kernel

/-- Mode masks: overlapping, on the sleep bit. -/
theorem test_wf_modeMasks :
    ∀ m ∈ ([⟨0x15, 0x0B⟩, ⟨0x94, 0x0B⟩, ⟨0x14, 0x8B⟩] : List (PerChannel Byte)),
      ({ cfgTest with mLeda := m.a, mLedb := m.b } : Config).modeMasksOk = false ∧
        ({ cfgTest with mLeda := m.a, mLedb := m.b } : Config).wf = false := by decide +kernel

/-- `A_FILTER` at a named address; just above the range it is accepted (10_state.md R30). -/
theorem test_wf_filter :
    (∀ a ∈ namedAddresses, ({ cfgTest with aFilter := a } : Config).wf = false) ∧
      ({ cfgTest with aFilter := 0x20 } : Config).wf = true := by decide +kernel

/-- An ill-formed configuration is refused when the machine is built. -/
theorem test_powerOn_refuses : powerOn fallingCurve = .refused .configuration := by
  unfold powerOn
  rw [if_neg]
  rw [test_wf_curve.2]
  decide

/-! ### One command each (95_test_vectors.md sections 3.2 to 3.6) -/

/-- The state a command leaves. -/
def stateAfter (o : Host.Outcome State Fault Refusal) : State :=
  match o with
  | .next t => t
  | .fault _ => State.reset
  | .refused _ => State.reset

/-- An attached block with the fixture, and the chip's non-zero registers. -/
def attachedWith (chip : Memory) : State := { State.reset with attached := true, chip := chip }

/-- The transport fails the transaction at index `n` (the "f@n" of the vectors). -/
def failingAt (n : Nat) (taken : Bool) (s : State) : State :=
  { s with answers := List.replicate n Answer.good ++ [{ fails := true, taken := taken, status := none }] }

/-- V-RB-1 -/
theorem test_rd :
    let t := stateAfter (exec (.rd 0x03) ({ State.reset with chip := [(3, 0x2A)] }))
    t.trace = [.rd 0x03 (.ok 0x2A)] ∧
      t.rsp = 0x002A ∧ t.errlog = false := by decide +kernel

/-- V-RB-18: a negative status is a failure -/
theorem test_rd_negative :
    let t := stateAfter (exec (.rd 0x03) ({ State.reset with answers := [⟨false, false, some 0xFFFFFFFF⟩] }))
    t.trace = [.rd 0x03 .fail] ∧
      t.rsp = 0x0100 ∧ t.errlog = true := by decide +kernel

/-- V-RB-4 -/
theorem test_wr :
    let t := stateAfter (exec (.wr 0x04 0x80) (State.reset))
    t.trace = [.wr 0x04 0x80 .ok] ∧
      t.rsp = 0x0000 ∧ t.chip = [(4, 0x80)] := by decide +kernel

/-- V-RB-15, the new value taken -/
theorem test_wr_failed :
    let t := stateAfter (exec (.wr 0x04 0x80) (failingAt 0 true State.reset))
    t.trace = [.wr 0x04 0x80 .fail] ∧
      t.rsp = 0x0100 ∧ t.chip = [(4, 0x80)] := by decide +kernel

/-- V-RB-7 -/
theorem test_upd :
    let t := stateAfter (exec (.upd 0x01 0x07 0xFD) ({ State.reset with chip := [(1, 0x18)] }))
    t.trace = [.rd 0x01 (.ok 0x18), .wr 0x01 0x1D .ok] ∧
      t.rsp = 0x0000 ∧ t.reg 0x01 = 0x1D ∧ t.tmp = 0x18 := by decide +kernel

/-- V-RB-12 -/
theorem test_upd_failed_read :
    let t := stateAfter (exec (.upd 0x01 0x07 0xFD) (failingAt 0 true { State.reset with chip := [(1, 0x18)] }))
    t.trace = [.rd 0x01 .fail] ∧
      t.rsp = 0x0100 ∧ t.reg 0x01 = 0x18 := by decide +kernel

/-- V-CC-20 -/
theorem test_stat :
    let t := stateAfter (exec (.stat) ({ State.reset with errlog := true, railEn := true }))
    t.trace = [] ∧
      t.rsp = 0x0006 ∧ t.errlog = true := by decide +kernel

/-- V-CC-1 -/
theorem test_init :
    let t := stateAfter (exec (.init) ({ State.reset with chip := [(0, 0x80), (1, 0x18)] }))
    t.trace = [.rail1, .delay .rail, .wr 0x10 0x03 .ok, .rd 0x01 (.ok 0x18), .wr 0x01 0x18 .ok,
        .wr 0x02 0x38 .ok, .wr 0x05 0x00 .ok, .wr 0x06 0x00 .ok, .rd 0x00 (.ok 0x80), .wr 0x00 0x84 .ok,
        .rd 0x00 (.ok 0x84), .wr 0x00 0x86 .ok, .delay .init, .wr 0x03 0x00 .ok, .wr 0x04 0x00 .ok] ∧
      t.rsp = 0x0000 ∧ t.attached = true ∧ t.railEn = true := by decide +kernel

/-- V-CC-52: the first control write fails and is not taken -/
theorem test_init_failed :
    let t := stateAfter (exec (.init) (failingAt 7 false { State.reset with chip := [(0, 0x80), (1, 0x18)] }))
    t.trace = [.rail1, .delay .rail, .wr 0x10 0x03 .ok, .rd 0x01 (.ok 0x18), .wr 0x01 0x18 .ok,
        .wr 0x02 0x38 .ok, .wr 0x05 0x00 .ok, .wr 0x06 0x00 .ok, .rd 0x00 (.ok 0x80), .wr 0x00 0x84 .fail,
        .rd 0x00 (.ok 0x80), .wr 0x00 0x82 .ok, .delay .init, .wr 0x03 0x00 .ok, .wr 0x04 0x00 .ok] ∧
      t.rsp = 0x0200 ∧ t.attached = false ∧ t.reg 0x00 = 0x82 := by decide +kernel

/-- V-CC-6 -/
theorem test_setch :
    let t := stateAfter (exec (.setch .A 5 0x0A) (attachedWith [(0, 0x86), (5, 0xE0)]))
    t.trace = [.rd 0x00 (.ok 0x86), .wr 0x00 0x06 .ok, .delay .sleep, .wr 0x03 0x05 .ok, .rd 0x05 (.ok 0xE0),
        .wr 0x05 0xEA .ok, .rd 0x00 (.ok 0x06), .wr 0x00 0x06 .ok] ∧
      t.rsp = 0x0000 ∧ t.reg 0x05 = 0xEA := by decide +kernel

/-- V-CC-10 -/
theorem test_setch_off :
    let t := stateAfter (exec (.setch .B 0 0) (attachedWith [(0, 0x86), (4, 0x77), (6, 0x1F)]))
    t.trace = [.rd 0x00 (.ok 0x86), .wr 0x00 0x06 .ok, .delay .sleep, .wr 0x04 0x00 .ok, .rd 0x06 (.ok 0x1F),
        .wr 0x06 0x00 .ok, .rd 0x00 (.ok 0x06), .wr 0x00 0x04 .ok] ∧
      t.rsp = 0x0000 ∧ t.chip = [(0, 0x04)] := by decide +kernel

/-- V-CC-3, with R105's value -/
theorem test_getch :
    let t := stateAfter (exec (.getch .B) (attachedWith [(0, 0x06), (4, 0x40)]))
    t.trace = [.rd 0x00 (.ok 0x06), .wr 0x00 0x06 .ok, .delay .sleep, .rd 0x04 (.ok 0x40)] ∧
      t.rsp = 0x0040 := by decide +kernel

/-- V-CC-41: after a failed sleep-disable the brightness register is not read -/
theorem test_getch_failed :
    let t := stateAfter (exec (.getch .A) (failingAt 1 false (attachedWith [(0, 0x86)])))
    t.trace = [.rd 0x00 (.ok 0x86), .wr 0x00 0x06 .fail] ∧
      t.rsp = 0x0100 ∧ t.reg 0x00 = 0x86 := by decide +kernel

/-- V-CC-14: the first write fails, the second is attempted -/
theorem test_shutdown :
    let t := stateAfter (exec (.shutdown) (failingAt 0 false (attachedWith [(0, 0x06), (3, 0xC8), (4, 0x80)])))
    t.trace = [.wr 0x03 0x00 .fail, .wr 0x04 0x00 .ok] ∧
      t.rsp = 0x0000 ∧ t.attached = false ∧ t.reg 0x03 = 0xC8 ∧ t.reg 0x04 = 0 ∧ t.errlog = true := by decide +kernel

/-- V-BC-4 -/
theorem test_pct2raw :
    let t := stateAfter (exec (.pct2raw .A 50) (State.reset))
    t.trace = [] ∧
      t.rsp = 0x0097 := by decide +kernel

/-- V-BC-18 -/
theorem test_pct2raw_clamped :
    let t := stateAfter (exec (.pct2raw .B 255) (State.reset))
    t.trace = [] ∧
      t.rsp = 0x009A := by decide +kernel

/-- V-FL-11 -/
theorem test_flsel :
    let t := stateAfter (exec (.flsel 2) ({ attachedWith [(0, 0x06), (3, 0xC8), (4, 0x80), (5, 0x04), (6, 0x07)] with tblIdx := 1, lastPct := 50 }))
    t.trace = [.rd 0x00 (.ok 0x06), .wr 0x00 0x06 .ok, .delay .sleep, .wr 0x03 0x00 .ok, .rd 0x05 (.ok 0x04),
        .wr 0x05 0x04 .ok, .rd 0x00 (.ok 0x06), .wr 0x00 0x02 .ok, .rd 0x00 (.ok 0x02), .wr 0x00 0x02 .ok,
        .delay .sleep, .wr 0x04 0x95 .ok, .rd 0x06 (.ok 0x07), .wr 0x06 0x07 .ok, .rd 0x00 (.ok 0x02),
        .wr 0x00 0x02 .ok, .rd 0x00 (.ok 0x02), .wr 0x00 0x06 .ok] ∧
      t.rsp = 0x0000 ∧ t.tblIdx = 2 ∧ t.lastPct = 50 := by decide +kernel

/-- V-FL-13: a failed re-application is not reported -/
theorem test_flsel_failed :
    let t := stateAfter (exec (.flsel 2) (failingAt 2 false { attachedWith [(0, 0x06), (3, 0xC8)] with tblIdx := 1, lastPct := 50 }))
    t.trace = [.rd 0x00 (.ok 0x06), .wr 0x00 0x06 .ok, .delay .sleep, .wr 0x03 0x00 .fail] ∧
      t.rsp = 0x0000 ∧ t.tblIdx = 2 ∧ t.errlog = true := by decide +kernel

/-- V-FL-1 -/
theorem test_flapply :
    let t := stateAfter (exec (.flapply 50) ({ attachedWith [] with tblIdx := 1 }))
    t.trace = [.rd 0x00 (.ok 0x00), .wr 0x00 0x00 .ok, .delay .sleep, .wr 0x03 0xC8 .ok, .rd 0x05 (.ok 0x00),
        .wr 0x05 0x04 .ok, .rd 0x00 (.ok 0x00), .wr 0x00 0x04 .ok, .rd 0x00 (.ok 0x04), .wr 0x00 0x04 .ok,
        .delay .sleep, .wr 0x04 0x80 .ok, .rd 0x06 (.ok 0x00), .wr 0x06 0x07 .ok, .rd 0x00 (.ok 0x04),
        .wr 0x00 0x06 .ok, .rd 0x00 (.ok 0x06), .wr 0x00 0x06 .ok] ∧
      t.rsp = 0x0000 ∧ t.lastPct = 50 := by decide +kernel

/-- V-FL-5 -/
theorem test_flapply_off :
    let t := stateAfter (exec (.flapply 0) ({ attachedWith [(0, 0x06)] with tblIdx := 1, lastPct := 7 }))
    t.trace = [.rd 0x00 (.ok 0x06), .wr 0x00 0x06 .ok, .delay .sleep, .wr 0x03 0x00 .ok, .rd 0x05 (.ok 0x00),
        .wr 0x05 0x00 .ok, .rd 0x00 (.ok 0x06), .wr 0x00 0x02 .ok, .rd 0x00 (.ok 0x02), .wr 0x00 0x02 .ok,
        .delay .sleep, .wr 0x04 0x00 .ok, .rd 0x06 (.ok 0x00), .wr 0x06 0x00 .ok, .rd 0x00 (.ok 0x02),
        .wr 0x00 0x00 .ok] ∧
      t.rsp = 0x0000 ∧ t.lastPct = 0 := by decide +kernel

/-- V-FL-14 -/
theorem test_flidx :
    let t := stateAfter (exec (.flidx) ({ attachedWith [] with tblIdx := 2 }))
    t.trace = [] ∧
      t.rsp = 0x0002 := by decide +kernel

/-- P1 step 3 -/
theorem test_blset :
    let t := stateAfter (exec (.blset .A 3) (attachedWith [(0, 0x86)]))
    t.trace = [.rd 0x00 (.ok 0x86), .wr 0x00 0x06 .ok, .delay .sleep, .wr 0x03 0x03 .ok, .rd 0x05 (.ok 0x00),
        .wr 0x05 0x0A .ok, .rd 0x00 (.ok 0x06), .wr 0x00 0x02 .ok] ∧
      t.rsp = 0x0000 ∧ t.reg 0x00 = 0x02 := by decide +kernel

/-- V-CB-7: a sentinel full scale -/
theorem test_blset_sentinel :
    let t := stateAfter (exec (.blset .A 0xFF) ({ attachedWith [(0, 0x86), (5, 0x11)] with
      cfg := { cfgTest with fullScale := { a := 0x20, b := 0x0A } } }))
    t.trace = [.rd 0x00 (.ok 0x86), .wr 0x00 0x06 .ok, .delay .sleep, .wr 0x03 0xFF .ok, .rd 0x00 (.ok 0x06),
        .wr 0x00 0x06 .ok] ∧
      t.rsp = 0x0000 ∧ t.reg 0x05 = 0x11 := by decide +kernel

/-- P1 step 5 -/
theorem test_blget :
    let t := stateAfter (exec (.blget .A) (attachedWith [(0, 0x06), (3, 0x04)]))
    t.trace = [.rd 0x00 (.ok 0x06), .wr 0x00 0x06 .ok, .delay .sleep, .rd 0x03 (.ok 0x04)] ∧
      t.rsp = 0x0004 := by decide +kernel

/-- V-FL-8: both channels below the on/off threshold, both enabled -/
theorem test_vset :
    let t := stateAfter (exec (.vset 2) (attachedWith [(0, 0x86)]))
    t.trace = [.rd 0x00 (.ok 0x86), .wr 0x00 0x06 .ok, .delay .sleep, .wr 0x03 0x02 .ok, .rd 0x05 (.ok 0x00),
        .wr 0x05 0x04 .ok, .rd 0x00 (.ok 0x06), .wr 0x00 0x02 .ok, .rd 0x00 (.ok 0x02), .wr 0x00 0x02 .ok,
        .delay .sleep, .wr 0x04 0x00 .ok, .rd 0x06 (.ok 0x00), .wr 0x06 0x07 .ok, .rd 0x00 (.ok 0x02),
        .wr 0x00 0x00 .ok, .rd 0x00 (.ok 0x00), .wr 0x00 0x06 .ok] ∧
      t.rsp = 0x0000 ∧ t.lastPct = 2 := by decide +kernel

/-- V-CB-16 -/
theorem test_vset_range :
    let t := stateAfter (exec (.vset 101) ({ attachedWith [] with lastPct := 50 }))
    t.trace = [] ∧
      t.rsp = 0x0300 ∧ t.lastPct = 50 := by decide +kernel

/-- V-CB-15 -/
theorem test_vget :
    let t := stateAfter (exec (.vget) ({ attachedWith [] with lastPct := 50 }))
    t.trace = [] ∧
      t.rsp = 0x0032 := by decide +kernel

/-- V-CB-9 -/
theorem test_blpct :
    let t := stateAfter (exec (.blpct .B 10) (attachedWith [(0, 0x06)]))
    t.trace = [.rd 0x00 (.ok 0x06), .wr 0x00 0x06 .ok, .delay .sleep, .wr 0x04 0x14 .ok, .rd 0x06 (.ok 0x00),
        .wr 0x06 0x0A .ok, .rd 0x00 (.ok 0x06), .wr 0x00 0x06 .ok] ∧
      t.rsp = 0x0014 := by decide +kernel

/-- V-CB-12: above the maximum -/
theorem test_blpct_range :
    let t := stateAfter (exec (.blpct .A 43) ({ attachedWith [] with cfg := { cfgTest with maxBrt := { a := 0x7F, b := 0xFF } } }))
    t.trace = [] ∧
      t.rsp = 0x0300 ∧ t.errlog = false := by decide +kernel

/-! ### Steps: acceptance, errors and reset -/

/-- V-EX-1, V-EX-2: illegal outranks state, state outranks range. -/
theorem test_step_priority :
    (stateAfter (step { State.reset with port := [0x30000103] })).rsp = 0x0400 ∧
      (stateAfter (step { State.reset with port := [0x30000003] })).rsp = 0x0500 := by decide +kernel

/-- The word the host of the proofs places is the next one run: STAT before a waiting INIT. -/
theorem test_withFetchWord :
    let t := stateAfter (step (({ State.reset with port := [0x10000000] }).withFetchWord 32 0x04000000))
    t.cmd = 0x04000000 ∧ t.rsp = 0x0000 ∧ t.port = [0x10000000] ∧ t.attached = false := by decide +kernel

/-- R190: a WR cut with its one transaction in flight and taken: the register is written, nothing is answered. -/
theorem test_step_cut :
    let t := stateAfter (step { State.reset with port := [0x02040080], resetIn := some (.during 0 true), errlog := true })
    t.chip = [(4, 0x80)] ∧ t.rsp = 0 ∧ t.errlog = false ∧ t.trace = [] ∧ t.port = [] := by decide +kernel

/-- R13: the longest sequence, FLSEL re-applying a non-zero percentage, has 22 micro-steps before its response. -/
theorem test_flsel_steps : (selectTable 2 { attachedWith [] with lastPct := 50 }).step = 22 := by decide +kernel

/-! ### Witnesses: for every obligation with premises, states and operands that meet them all -/

/-- With no draw waiting, and the reference target after them, nothing fails. -/
theorem faultFree_of_good {s : State} (h : s.answers = []) (k : s.answerRest = Answer.good) : FaultFree s := by
  unfold FaultFree PlainTarget
  rw [h, k]
  exact ⟨⟨by simp, rfl⟩, by simp, rfl⟩

theorem cfgTest_wf : State.reset.cfg.wf = true := test_wf_fixture

/-- A command that is run answers a next state. -/
theorem exec_stateAfter (i : Instr) (s : State) : exec i s = .next (stateAfter (exec i s)) := by
  obtain ⟨u, st, v, h⟩ := exec_responds i s
  rw [h]; rfl

theorem step_stateAfter (s : State) (h : s.resetIn = none) : step s = .next (stateAfter (step s)) := by
  unfold step
  rw [h]
  split
  · next h' _ _ => cases h'
  · next h' _ => cases h'
  · next w rest _ _ _ =>
    obtain ⟨u, st, v, h⟩ := runWord_responds w (accept w rest s)
    rw [h]; rfl
  · rfl

/-- The attached fixture with an empty chip. -/
abbrev bench : State := attachedWith []

theorem witness_DecodeAndEncodeAreInverse :
    legalWord 0x01030000 = true ∧
      (∃ r ∈ opcodeRows, fieldOp 0x10000001 = fieldOp r.bits ∧ r.selects 0x10000001 = false) := by decide +kernel

theorem witness_DecoderAcceptsExactlyTheTable :
    (∃ r ∈ opcodeRows, ∃ q ∈ opcodeRows, r.selects 0x1101FFFF = true ∧ q.selects 0x1101FFFF = true) := by
  decide +kernel

theorem witness_StepRunsTheDecodedCommand :
    let s : State := { State.reset with port := [0x01030000, 0x04000000] }
    s.resetIn = none ∧ s.busy = false ∧ s.port = 0x01030000 :: [0x04000000] ∧
      decode 0x01030000 = .command (.rd 0x03) := by decide +kernel

theorem witness_IllegalWordAnswersAndChangesNothingElse :
    let s : State := { State.reset with port := [0x10000001] }
    s.resetIn = none ∧ Idle s ∧ s.port = 0x10000001 :: [] ∧ legalWord 0x10000001 = false :=
  ⟨rfl, ⟨rfl, rfl⟩, rfl, by decide +kernel⟩

/-- One state for each side of the premise. -/
theorem witness_PortHoldsOffAndIdleBlockRests :
    let s : State := { State.reset with busy := true, port := [0x04000000] }
    (s.resetIn = none ∧ s.busy = true) ∧ (State.reset.resetIn = none ∧ State.reset.port = []) :=
  ⟨⟨rfl, rfl⟩, rfl, rfl⟩

/-- The first and the last address. -/
theorem witness_StoreReadsBackWhatWasWritten :
    Memory.wf [] = true ∧ Memory.wf [(0, 0x86), (0x1F, 0x01)] = true ∧ 0 ≤ 0x1F ∧ 0x1F ≤ 0x1F := by decide

/-- A failed access of both kinds, the new value taken and not. -/
theorem witness_FailedAccessLeavesOldOrNew :
    ∀ taken : Bool, Memory.wf (failingAt 0 taken bench).chip = true ∧
      (failingAt 0 taken bench).nextAnswer.fails = true ∧ (failingAt 0 taken bench).nextAnswer.taken = taken := by
  decide +kernel

/-- The first address above the range, in an operand and as the filter register. -/
theorem witness_AddressAboveRangeFailsWithoutTransaction :
    let s : State := { State.reset with cfg := { cfgTest with aFilter := 0x20 } }
    (0x1F : Byte) < 0x20 ∧ s.attached = false ∧ 0x1F < s.cfg.aFilter := by decide +kernel

/-- The last address; a read that brings the target's byte, one that brings a status word's low byte, a failed one and a
negative one. -/
theorem witness_RdReadsOneRegister :
    (0x1F : Byte) ≤ 0x1F ∧ drawnByte Answer.good 0x2A = some 0x2A ∧
      drawnByte { fails := false, taken := false, status := some 0x7FFFFFFF } 0x2A = some 0xFF ∧
      drawnByte { fails := true, taken := false, status := none } 0x2A = none ∧
      drawnByte { fails := false, taken := false, status := some 0x80000000 } 0x2A = none := by decide +kernel

theorem witness_WrWritesOneRegister :
    Memory.wf bench.chip = true ∧ (0x1F : Byte) ≤ 0x1F ∧ bench.nextAnswer.fails = false ∧
      (failingAt 0 true bench).nextAnswer.fails = true := by decide +kernel

/-- The read fails; the read succeeds and the write does; the read succeeds and the write fails. -/
theorem witness_UpdReadsThenWritesTheMaskedByte :
    let s := failingAt 1 true bench
    Memory.wf bench.chip = true ∧ (0x1F : Byte) ≤ 0x1F ∧
      drawnByte (failingAt 0 true bench).nextAnswer 0x18 = none ∧
      drawnByte bench.nextAnswer 0x18 = some 0x18 ∧ (bench.answers.tail.headD bench.answerRest).fails = false ∧
      drawnByte s.nextAnswer 0x18 = some 0x18 ∧ (s.answers.tail.headD s.answerRest).fails = true := by decide +kernel

theorem witness_StatReportsTheFlags :
    let s : State := { bench with railEn := true }
    s.attached = true ∧ s.railEn = true ∧ s.errlog = false := by decide +kernel

theorem witness_InitWithoutFailureAttaches :
    FaultFree State.reset ∧ State.reset.cfg.wf = true ∧ Memory.wf State.reset.chip = true ∧
      State.reset.attached = false ∧ State.reset.cfg.aFilter ≤ 0x1F :=
  ⟨faultFree_of_good rfl rfl, cfgTest_wf, rfl, rfl, by decide +kernel⟩

/-- Detached with the filter register in range, where nothing fails; detached with it out of range; a command that
answers `ERR_INIT`. -/
theorem witness_InitAttemptsAllStepsAndAggregates :
    let s : State := { State.reset with cfg := { cfgTest with aFilter := 0x50 } }
    (State.reset.attached = false ∧ State.reset.cfg.aFilter ≤ 0x1F ∧
        (stateAfter (exec .init State.reset)).rsp = 0x0000) ∧
      (s.attached = false ∧ 0x1F < s.cfg.aFilter) ∧
      exec .init s = .next (stateAfter (exec .init s)) ∧ statusOf (stateAfter (exec .init s)) = 0x02 :=
  ⟨by decide +kernel, by decide +kernel, exec_stateAfter _ _, by decide +kernel⟩

theorem witness_SetchDrivesTheChannel :
    FaultFree bench ∧ Memory.wf bench.chip = true ∧ bench.attached = true :=
  ⟨faultFree_of_good rfl rfl, rfl, rfl⟩

/-- The brightness on each side of the threshold, and the other channel. -/
theorem witness_SetchSetsOrClearsTheEnableBit :
    FaultFree bench ∧ Memory.wf bench.chip = true ∧ bench.cfg.wf = true ∧ bench.attached = true ∧
      exec (.setch .A 4 0) bench = .next (stateAfter (exec (.setch .A 4 0) bench)) ∧ (4 : Byte) ≤ 4 ∧
      exec (.setch .A 3 0) bench = .next (stateAfter (exec (.setch .A 3 0) bench)) ∧ (3 : Byte) < 4 ∧
      Channel.B ≠ Channel.A :=
  ⟨faultFree_of_good rfl rfl, rfl, cfgTest_wf, rfl, exec_stateAfter _ _, by decide, exec_stateAfter _ _, by decide,
    by decide⟩

theorem witness_GetchReadsTheBrightness :
    FaultFree bench ∧ Memory.wf bench.chip = true ∧ bench.attached = true := witness_SetchDrivesTheChannel

theorem witness_SetThenGetReturnsTheBrightness :
    let t := stateAfter (exec (.setch .B 0x40 0x20) bench)
    FaultFree bench ∧ Memory.wf bench.chip = true ∧ bench.attached = true ∧
      exec (.setch .B 0x40 0x20) bench = .next t ∧ exec (.getch .B) t = .next (stateAfter (exec (.getch .B) t)) :=
  ⟨faultFree_of_good rfl rfl, rfl, rfl, exec_stateAfter _ _, exec_stateAfter _ _⟩

theorem witness_ShutdownAttemptsBothWritesAndDetaches : Memory.wf bench.chip = true ∧ bench.attached = true :=
  ⟨rfl, rfl⟩

/-- Percentages 0, 1, 77 and 78. -/
theorem witness_PercentToRawLooksUpAndClamps :
    (0x00 : Byte) = 0 ∧ (0 < 77 ∧ (1 : Byte).toNat = 0 + 1) ∧ (76 < 77 ∧ (77 : Byte).toNat = 76 + 1) ∧
      (77 : Byte) < 78 := by decide

theorem witness_CurveIsMonotone :
    cfgTest.wf = true ∧ (0 ≤ 76 ∧ 76 < 77) ∧ ((1 : Byte) ≤ 1 ∧ (1 : Byte) ≤ 255) ∧ (78 : Byte) ≤ 78 :=
  ⟨test_wf_fixture, by decide, by decide, by decide⟩

/-- The first entry of the first table and the last of the last. -/
theorem witness_FlapplyBlendsBothChannels :
    let s : State := { bench with tblIdx := 2 }
    (FaultFree bench ∧ Memory.wf bench.chip = true ∧ bench.attached = true ∧ bench.tblIdx.toNat = 0 ∧
        (1 : Byte).toNat = 0 + 1 ∧ 0 < 3 ∧ 0 < 100) ∧
      (FaultFree s ∧ Memory.wf s.chip = true ∧ s.attached = true ∧ s.tblIdx.toNat = 2 ∧
        (100 : Byte).toNat = 99 + 1 ∧ 2 < 3 ∧ 99 < 100) :=
  ⟨⟨faultFree_of_good rfl rfl, rfl, rfl, rfl, rfl, by decide, by decide⟩,
    faultFree_of_good rfl rfl, rfl, rfl, rfl, rfl, by decide, by decide⟩

theorem witness_FlapplyZeroIsFullOff :
    FaultFree bench ∧ Memory.wf bench.chip = true ∧ bench.attached = true ∧ bench.tblIdx < 3 :=
  ⟨faultFree_of_good rfl rfl, rfl, rfl, by decide⟩

theorem witness_FlselStoresAndReapplies :
    let s : State := { bench with lastPct := 100 }
    s.attached = true ∧ (2 : Byte) < 3 ∧ s.lastPct ≤ 100 := by decide +kernel

theorem witness_FlidxAnswersTheTableIndex : bench.attached = true := rfl

theorem witness_BlsetDrivesAtFullScale :
    FaultFree bench ∧ Memory.wf bench.chip = true ∧ bench.attached = true ∧ 0xFF ≤ pick bench.cfg.maxBrt .A :=
  ⟨faultFree_of_good rfl rfl, rfl, rfl, by decide⟩

theorem witness_BlpctDrivesToTheLookedUpValue :
    FaultFree bench ∧ Memory.wf bench.chip = true ∧ bench.attached = true ∧
      percentToRaw bench.cfg .A 77 ≤ pick bench.cfg.maxBrt .A :=
  ⟨faultFree_of_good rfl rfl, rfl, rfl, by decide +kernel⟩

theorem witness_BlgetReadsTheBrightness :
    FaultFree bench ∧ Memory.wf bench.chip = true ∧ bench.attached = true := witness_SetchDrivesTheChannel

theorem witness_VsetBlendsBothChannels :
    let s : State := { bench with tblIdx := 2 }
    (FaultFree bench ∧ Memory.wf bench.chip = true ∧ bench.attached = true ∧ bench.tblIdx.toNat = 0 ∧
        (1 : Byte).toNat = 0 + 1 ∧ 0 < 3 ∧ 0 < 100) ∧
      (FaultFree s ∧ Memory.wf s.chip = true ∧ s.attached = true ∧ s.tblIdx.toNat = 2 ∧
        (100 : Byte).toNat = 99 + 1 ∧ 2 < 3 ∧ 99 < 100) := witness_FlapplyBlendsBothChannels

theorem witness_VgetAnswersTheLastPercentage : bench.attached = true := rfl

/-- A gated command in each wrong state, and an admitted one. -/
theorem witness_LifecycleGate :
    admitted .vget State.reset = false ∧ admitted .init bench = false ∧ admitted .vget bench = true ∧
      admitted .init State.reset = true := by decide +kernel

/-- Each cause of R163 at the boundary, and the two clauses about next states. -/
theorem witness_RangeErrorsTouchNothing :
    let c : Config := { cfgTest with maxBrt := { a := 0x7F, b := 0xFF } }
    let s : State := { bench with cfg := c }
    let u : State := { bench with tblIdx := 3 }
    bench.attached = true ∧ (3 : Byte) ≤ 3 ∧ (100 : Byte) < 101 ∧ (u.attached = true ∧ 3 ≤ u.tblIdx) ∧
      (s.attached = true ∧ pick s.cfg.maxBrt .A < 0x80) ∧
      (s.attached = true ∧ pick s.cfg.maxBrt .A < percentToRaw s.cfg .A 43) ∧
      (bench.tblIdx < 3 ∧ step bench = .next (stateAfter (step bench))) ∧
      exec (.pct2raw .A 255) bench = .next (stateAfter (exec (.pct2raw .A 255) bench)) ∧
      (pick bench.cfg.maxBrt .B = 0xFF ∧
        exec (.blpct .B 255) bench = .next (stateAfter (exec (.blpct .B 255) bench))) :=
  ⟨rfl, by decide, by decide, ⟨rfl, by decide⟩, ⟨rfl, by decide⟩, ⟨rfl, by decide +kernel⟩,
    ⟨by decide, step_stateAfter _ rfl⟩, exec_stateAfter _ _, rfl, exec_stateAfter _ _⟩

/-- A run without a failure and one that a failure ends. -/
theorem witness_AbortCommandsStopAtTheFirstFailure :
    let s := failingAt 2 false bench
    abortValue bench.cfg (.setch .A 9 0) = some 9 ∧ refusesAddress (.setch .A 9 0) bench = false ∧
      exec (.setch .A 9 0) bench = .next (stateAfter (exec (.setch .A 9 0) bench)) ∧
      abortValue s.cfg (.rd 0x1F) = some 0 ∧ refusesAddress (.rd 0x1F) s = false ∧
      exec (.setch .A 9 0) s = .next (stateAfter (exec (.setch .A 9 0) s)) ∧
      statusOf (stateAfter (exec (.setch .A 9 0) s)) = 0x01 :=
  ⟨rfl, rfl, exec_stateAfter _ _, rfl, by decide, exec_stateAfter _ _, by decide +kernel⟩

/-- A failure at the third transaction of a blended set. -/
theorem witness_AbortedTraceIsAPrefixOfTheFaultFreeTrace :
    let s := failingAt 2 true bench
    let f : State := { s with answers := [], answerRest := Answer.good }
    abortValue s.cfg (.vset 50) = some 50 ∧ PlainTarget s ∧
      exec (.vset 50) s = .next (stateAfter (exec (.vset 50) s)) ∧
      exec (.vset 50) f = .next (stateAfter (exec (.vset 50) f)) :=
  ⟨rfl, ⟨by decide +kernel, rfl⟩, exec_stateAfter _ _, exec_stateAfter _ _⟩

/-- One response of each of the three codes. -/
theorem witness_RejectionsLeaveEverythingAsBefore :
    statusOf (stateAfter (runWord 0x30000003 bench)) = 0x03 ∧ statusOf (stateAfter (runWord 0 bench)) = 0x04 ∧
      statusOf (stateAfter (runWord 0x43000000 State.reset)) = 0x05 ∧
      runWord 0 bench = .next (stateAfter (runWord 0 bench)) :=
  ⟨by decide +kernel, by decide +kernel, by decide +kernel, rfl⟩

theorem witness_ErrlogRecordsEveryBusError :
    let s : State := { bench with errlog := true, port := [0x04000000] }
    exec (.rd 0x20) bench = .next (stateAfter (exec (.rd 0x20) bench)) ∧
      (s.errlog = true ∧ s.resetIn = none ∧ step s = .next (stateAfter (step s))) ∧
      exec .stat s = .next (stateAfter (exec .stat s)) :=
  ⟨exec_stateAfter _ _, ⟨rfl, rfl, step_stateAfter _ rfl⟩, exec_stateAfter _ _⟩

theorem witness_RailIsSetByInitAlone :
    let s : State := { bench with railEn := true, port := [0x13000000] }
    exec .init State.reset = .next (stateAfter (exec .init State.reset)) ∧
      (s.railEn = true ∧ s.resetIn = none ∧ step s = .next (stateAfter (step s))) :=
  ⟨exec_stateAfter _ _, rfl, rfl, step_stateAfter _ rfl⟩

theorem witness_AttachedFollowsInitAndShutdown :
    exec .stat bench = .next (stateAfter (exec .stat bench)) ∧
      (State.reset.attached = false ∧ exec .init State.reset = .next (stateAfter (exec .init State.reset))) ∧
      exec .shutdown bench = .next (stateAfter (exec .shutdown bench)) :=
  ⟨exec_stateAfter _ _, ⟨rfl, exec_stateAfter _ _⟩, exec_stateAfter _ _⟩

/-- Each clause: INIT, FLSEL of the last table, VSET of the largest percentage, and a command that writes neither. -/
theorem witness_BlenderRegistersChangeOnlyAsStated :
    (exec .init State.reset = .next (stateAfter (exec .init State.reset)) ∧ State.reset.attached = false) ∧
      (exec (.flsel 2) bench = .next (stateAfter (exec (.flsel 2) bench)) ∧ bench.attached = true ∧ (2 : Byte) < 3) ∧
      (exec (.vset 100) bench = .next (stateAfter (exec (.vset 100) bench)) ∧ bench.tblIdx < 3 ∧
        (100 : Byte) ≤ 100) ∧
      exec (.rd 0) bench = .next (stateAfter (exec (.rd 0) bench)) :=
  ⟨⟨exec_stateAfter _ _, rfl⟩, ⟨exec_stateAfter _ _, rfl, by decide⟩, ⟨exec_stateAfter _ _, by decide, by decide⟩,
    exec_stateAfter _ _⟩

theorem witness_ConfigurationIsConstant :
    let s : State := { bench with port := [0x10000000] }
    step s = .next (stateAfter (step s)) := step_stateAfter _ rfl

theorem witness_UnspecifiedLatchesAreNeverRead :
    exec (.upd 0 0 0) bench = .next (stateAfter (exec (.upd 0 0 0) bench)) := exec_stateAfter _ _

theorem witness_TraceIsWriteOnly : exec .init State.reset = .next (stateAfter (exec .init State.reset)) :=
  exec_stateAfter _ _

/-- The smallest and the largest percentage that is blended. -/
theorem witness_LongestSequenceHasTwentyThreeMicroSteps :
    let s : State := { bench with lastPct := 1 }
    let u : State := { bench with lastPct := 100 }
    (FaultFree s ∧ s.attached = true ∧ (2 : Byte) < 3 ∧ 1 ≤ s.lastPct ∧ s.lastPct ≤ 100) ∧
      (FaultFree u ∧ u.attached = true ∧ (0 : Byte) < 3 ∧ 1 ≤ u.lastPct ∧ u.lastPct ≤ 100) :=
  ⟨⟨faultFree_of_good rfl rfl, rfl, by decide, by decide, by decide⟩, faultFree_of_good rfl rfl, rfl, by decide,
    by decide, by decide⟩

theorem witness_EveryStepKeepsTheInvariant :
    let s : State := { State.reset with port := [0x10000000], answerRest := { fails := true, taken := true, status := none } }
    Inv s ∧ step s = .next (stateAfter (step s)) :=
  ⟨⟨cfgTest_wf, rfl, ⟨rfl, rfl⟩, by decide, by decide, by intro e he; cases he⟩, step_stateAfter _ rfl⟩

theorem witness_ResetValuesAndBounds :
    let s : State := { bench with tblIdx := 2, lastPct := 100, port := [0x30000001] }
    s.tblIdx ≤ 2 ∧ s.lastPct ≤ 100 ∧ step s = .next (stateAfter (step s)) :=
  ⟨by decide, by decide, step_stateAfter _ rfl⟩

theorem cfgTest_meetsConstraints : MeetsConstraints cfgTest where
  curve := (Config.curvesMonotone_iff cfgTest).mp (by decide +kernel)
  givenA := by decide +kernel
  givenB := by decide +kernel
  enableNonZero := by intro ch; cases ch <;> decide +kernel
  enableDisjoint := by decide +kernel
  enableAwake := by intro ch; cases ch <;> decide +kernel
  modeDisjoint := by decide +kernel
  modeAwakeA := by decide +kernel
  modeAwakeB := by decide +kernel
  filter := by decide +kernel

/-- The fixture, the fixture with the filter register at the end of the range, and one with a falling curve. -/
theorem witness_OnlyWellFormedConfigurationsPowerOn :
    MeetsConstraints cfgTest ∧ MeetsConstraints { cfgTest with aFilter := 0x1F } ∧ ¬ MeetsConstraints fallingCurve :=
  ⟨cfgTest_meetsConstraints, { cfgTest_meetsConstraints with filter := by decide +kernel },
    fun h => absurd ((Config.curvesMonotone_iff fallingCurve).mpr h.curve) (by rw [test_wf_curve.1]; decide)⟩

theorem witness_IdleResetSparesTheChip :
    ({ State.reset with resetIn := some .idle } : State).resetIn = some .idle := rfl

/-- A WR cut before its transaction, inside it and after it, which succeeds and takes effect. -/
theorem witness_ResetCutsACommandAtATransaction :
    let s : State := { State.reset with port := [0x02040080] }
    s.busy = false ∧ s.port = 0x02040080 :: [] ∧ (s.answers.getD 0 s.answerRest).fails = false ∧
      step { s with resetIn := some (.during 0 true) } =
        .next (stateAfter (step { s with resetIn := some (.during 0 true) })) ∧
      step { s with resetIn := some (.during 1 false) } =
        .next (stateAfter (step { s with resetIn := some (.during 1 false) })) ∧
      (stateAfter (step { s with resetIn := none })).trace = s.trace ++ [Event.wr 0x04 0x80 .ok] ∧
      ([Event.wr 0x04 0x80 .ok].filter Event.onBus).length ≤ 1 :=
  ⟨rfl, rfl, rfl, rfl, rfl, rfl, by decide⟩

theorem witness_NoSequenceSetsTheSleepBit :
    let s := failingAt 7 true State.reset
    rawWrite .init = false ∧ PlainTarget s ∧ Memory.wf s.chip = true ∧ s.cfg.wf = true ∧
      exec .init s = .next (stateAfter (exec .init s)) ∧ s.reg 0x00 &&& 0x80 = 0 :=
  ⟨rfl, ⟨by decide +kernel, rfl⟩, rfl, cfgTest_wf, exec_stateAfter _ _, by decide +kernel⟩

/-- P4 of the vectors: a failed blended set and its re-issue. -/
theorem witness_ReissueRepairsTheChip :
    let s := failingAt 9 false { bench with tblIdx := 1 }
    let i : Instr := .flapply 50
    let t := stateAfter (exec i s)
    let f : State := { s with answers := [], answerRest := Answer.good }
    let g : State := { t with answers := [], answerRest := Answer.good }
    i ≠ .shutdown ∧ PlainTarget s ∧ Memory.wf s.chip = true ∧ FaultFree f ∧ exec i s = .next t ∧
      exec i g = .next (stateAfter (exec i g)) ∧ exec i f = .next (stateAfter (exec i f)) :=
  ⟨by decide, ⟨by decide +kernel, rfl⟩, rfl, faultFree_of_good rfl rfl, exec_stateAfter _ _, exec_stateAfter _ _,
    exec_stateAfter _ _⟩

theorem witness_ErrlogChangesNoBehaviour :
    Instr.init ≠ .stat ∧ exec .init State.reset = .next (stateAfter (exec .init State.reset)) :=
  ⟨by decide, exec_stateAfter _ _⟩

end Sys2Proof.Tests
end

/-! ### The check of a configuration (O50)

Each part of `Config.wf` in the words of 00_scope.md R7, and from them the check as a whole. -/

namespace Sys2Proof

@[simp] theorem Config.givenEntries_iff (c : Config) :
    c.givenEntries = true ↔ c.fl[1].a[49] = 200 ∧ c.fl[1].b[49] = 128 := by
  simp [Config.givenEntries]

@[simp] theorem Config.enableMasksOk_iff (c : Config) :
    c.enableMasksOk = true ↔ (∀ ch, Machine.enMask c ch ≠ 0) ∧ c.mEn.a &&& c.mEn.b = 0 ∧
      ∀ ch, Machine.enMask c ch &&& 0x80 = 0 := by
  simp only [Config.enableMasksOk, Machine.M_SLEEP, Bool.and_eq_true, bne_iff_ne, beq_iff_eq]
  constructor
  · rintro ⟨⟨⟨⟨zeroA, zeroB⟩, disjoint⟩, awakeA⟩, awakeB⟩
    exact ⟨fun | .A => zeroA | .B => zeroB, disjoint, fun | .A => awakeA | .B => awakeB⟩
  · rintro ⟨nonZero, disjoint, awake⟩
    exact ⟨⟨⟨⟨nonZero .A, nonZero .B⟩, disjoint⟩, awake .A⟩, awake .B⟩

@[simp] theorem Config.modeMasksOk_iff (c : Config) :
    c.modeMasksOk = true ↔ c.mLeda &&& c.mLedb = 0 ∧ c.mLeda &&& 0x80 = 0 ∧ c.mLedb &&& 0x80 = 0 := by
  simp [Config.modeMasksOk, Machine.M_SLEEP, and_assoc]

/-- R6's twelve register addresses, as numbers. -/
theorem Machine.namedAddresses_eq : Machine.namedAddresses =
    [0x00, 0x01, 0x02, 0x03, 0x04, 0x05, 0x06, 0x09, 0x0A, 0x0B, 0x12, 0x13] := rfl

@[simp] theorem Config.filterOk_iff (c : Config) : c.filterOk = true ↔ c.aFilter ∉ Machine.namedAddresses := by
  simp [Config.filterOk]

namespace Machine

/-- R7: the check on a configuration is its constraints, all of them and no more. -/
theorem wf_iff_meetsConstraints (c : Config) : c.wf = true ↔ MeetsConstraints c := by
  simp only [Config.wf, Bool.and_eq_true, Config.curvesMonotone_iff, Config.givenEntries_iff,
    Config.enableMasksOk_iff, Config.modeMasksOk_iff, Config.filterOk_iff, namedAddresses_eq]
  constructor
  · rintro ⟨⟨⟨⟨curve, givenA, givenB⟩, nonZero, enDisjoint, enAwake⟩, modeDisjoint, awakeA, awakeB⟩, filter⟩
    exact ⟨curve, givenA, givenB, nonZero, enDisjoint, enAwake, modeDisjoint, awakeA, awakeB, filter⟩
  · intro h
    exact ⟨⟨⟨⟨h.curve, h.givenA, h.givenB⟩, h.enableNonZero, h.enableDisjoint, h.enableAwake⟩,
      h.modeDisjoint, h.modeAwakeA, h.modeAwakeB⟩, h.filter⟩

/-- A configuration that passes the check is built in. -/
theorem powerOn_of_wf {c : Config} (h : c.wf = true) : powerOn c = .next (State.resetWith c) := if_pos h

/-- A configuration that fails the check is refused by name. -/
theorem powerOn_of_not_wf {c : Config} (h : ¬ c.wf = true) : powerOn c = .refused .configuration := if_neg h

/-- Settles O50: `powerOn` decides by `Config.wf`, which is `MeetsConstraints`. -/
theorem onlyWellFormedConfigurationsPowerOn : Obligations.OnlyWellFormedConfigurationsPowerOn := by
  intro c
  rw [← wf_iff_meetsConstraints]
  exact ⟨powerOn_of_wf, powerOn_of_not_wf⟩

end Machine

end Sys2Proof

/-! ### The block's registers (O39 to O46)

Each command is `beforeResponse` and its response, so what a command does to `errlog`, to the block's registers and to
the step index is said once of `beforeResponse`, from one lemma for each operation. -/

namespace Sys2Proof.Machine

/-! #### Commands and steps -/

/-- A command ends in the response of the state before it. -/
theorem eq_responded_of_exec {i : Instr} {s t : State} (h : exec i s = .next t) :
    ∃ st v, t = (beforeResponse i s).responded st v := by
  obtain ⟨st, v, hr⟩ := exec_beforeResponse i s
  exact ⟨st, v, Host.Outcome.next.inj (h.symm.trans hr)⟩

theorem beforeResponse_of_admitted {i : Instr} {s : State} (h : admitted i s = true) :
    beforeResponse i s = commandSequence i s := if_pos h

theorem beforeResponse_of_not_admitted {i : Instr} {s : State} (h : ¬ admitted i s = true) :
    beforeResponse i s = s := if_neg h

theorem commandSequence_init (s : State) :
    commandSequence .init s =
      if (aggregateSeq (initSteps s.cfg) (initStart s)).1 = .ok
      then (aggregateSeq (initSteps s.cfg) (initStart s)).2.setAttached true
      else (aggregateSeq (initSteps s.cfg) (initStart s)).2 := by
  simp only [commandSequence]
  rcases aggregateSeq (initSteps s.cfg) (initStart s) with ⟨_ | _, t⟩ <;> rfl

theorem commandSequence_flsel (idx : Byte) (s : State) :
    commandSequence (.flsel idx) s = if 3 ≤ idx then s else selectTable idx s := rfl

theorem commandSequence_blset (ch : Channel) (brt : Byte) (s : State) :
    commandSequence (.blset ch brt) s =
      if pick s.cfg.maxBrt ch < brt then s else (setChannelBrightness ch brt (pick s.cfg.fullScale ch) s).2 := rfl

theorem commandSequence_blpct (ch : Channel) (pct : Byte) (s : State) :
    commandSequence (.blpct ch pct) s =
      if pick s.cfg.maxBrt ch < percentToRaw s.cfg ch pct then curveRead pct s
      else (setChannelBrightness ch (percentToRaw s.cfg ch pct) (pick s.cfg.fullScale ch) (curveRead pct s)).2 := rfl

@[simp] theorem admitted_init (s : State) : admitted .init s = !s.attached := rfl

/-- A word runs as the command it decodes to, or is answered as illegal. -/
theorem runWord_cases {w : CommandWord} {s t : State} (h : runWord w s = .next t) :
    (∃ i, exec i s = .next t) ∨ t = s.responded .errIllegal 0x00 := by
  unfold runWord at h
  split at h
  · exact .inl ⟨_, h⟩
  · exact .inr (Host.Outcome.next.inj h).symm

/-- What a step without a reset can be: nothing, or an accepted word. -/
theorem step_cases_of_no_reset {s t : State} (hr : s.resetIn = none) (h : step s = .next t) :
    t = s ∨ ∃ w rest, runWord w (accept w rest s) = .next t := by
  rcases step_cases h with ⟨n, taken, w, rest, u, hcut, -⟩ | ⟨hreset, -⟩ | ⟨w, rest, -, -, -, hrun⟩ | ⟨-, hsame⟩
  · rw [hr] at hcut; cases hcut
  · exact absurd hr hreset
  · exact .inr ⟨w, rest, hrun⟩
  · exact .inl hsame

/-! #### The configuration (R19) -/

/-- Settles O43: a reset keeps the configuration and so does every command (`CommandEffect`). -/
theorem configurationIsConstant : Obligations.ConfigurationIsConstant := by
  intro s t h
  rcases step_cases h with ⟨n, taken, w, rest, u, -, -, -, hrun, rfl⟩ | ⟨-, rfl⟩ | ⟨w, rest, -, -, -, hrun⟩ | ⟨-, rfl⟩
  · exact (runWord_commandEffect hrun).cfg
  · rfl
  · exact (runWord_commandEffect hrun).cfg
  · rfl

/-! #### The latches and the trace, which no command reads (R11, R22) -/

/-- Alike states with the same values in what no command reads are the same state. -/
theorem Alike.eq {s s' : State} (h : Alike s s') (htrace : s.trace = s'.trace) (herrlog : s.errlog = s'.errlog)
    (hstep : s.step = s'.step) (hcmd : s.cmd = s'.cmd) (hrsp : s.rsp = s'.rsp) (htmp : s.tmp = s'.tmp) : s = s' :=
  calc
    s = { s.core with
          trace := s.trace, errlog := s.errlog, step := s.step, cmd := s.cmd, rsp := s.rsp, tmp := s.tmp } := rfl
    _ = { s'.core with
          trace := s'.trace, errlog := s'.errlog, step := s'.step, cmd := s'.cmd, rsp := s'.rsp, tmp := s'.tmp } := by
      rw [show s.core = s'.core from h, htrace, herrlog, hstep, hcmd, hrsp, htmp]
    _ = s' := rfl

theorem Alike.responded {s s' : State} (h : Alike s s') (st : Status) (v : Byte) :
    Alike (s.responded st v) (s'.responded st v) := h.map (f := State.responded st v) fun _ => rfl

theorem Lockstep.errlog_eq {s s' t t' : State} (k : Lockstep s s' t t') (h : s.errlog = s'.errlog) :
    t.errlog = t'.errlog := by
  obtain ⟨b, hb, hb'⟩ := k.errlog
  rw [hb, hb', h]

theorem Lockstep.trace_eq {s s' t t' : State} (k : Lockstep s s' t t') (h : s.trace = s'.trace) :
    t.trace = t'.trace := by
  obtain ⟨es, hes, hes'⟩ := k.trace
  rw [hes, hes', h]

/-- The events of one run are those of the other. -/
theorem Lockstep.trace_append {s s' t t' : State} (k : Lockstep s s' t t') {es : List Event}
    (h : t.trace = s.trace ++ es) : t'.trace = s'.trace ++ es := by
  obtain ⟨fs, hfs, hfs'⟩ := k.trace
  rw [hfs', List.append_cancel_left (hfs.symm.trans h)]

theorem Lockstep.tmp_eq {s s' t t' : State} (k : Lockstep s s' t t') (h : s.tmp = s'.tmp) : t.tmp = t'.tmp := by
  rcases k.tmp with ⟨ht, ht'⟩ | ht
  · rw [ht, ht', h]
  · exact ht

theorem Lockstep.cmd_eq {s s' t t' : State} (k : Lockstep s s' t t') (h : s.cmd = s'.cmd) : t.cmd = t'.cmd := by
  rw [k.cmd.1, k.cmd.2, h]

/-- A command from a state alike to that of a given run ends with the response of that run, in lockstep with it. -/
theorem exec_of_alike {i : Instr} {s s' t : State} (h : exec i s = .next t) (ha : Alike s s')
    (herr : s'.errlog = s.errlog) :
    ∃ u u' st v, t = u.responded st v ∧ exec i s' = .next (u'.responded st v) ∧ Lockstep s s' u u' := by
  obtain ⟨u, u', st, v, hu, hu', k⟩ := exec_lockstep (i := i) ha fun _ => herr
  exact ⟨u, u', st, v, Host.Outcome.next.inj (h.symm.trans hu), hu', k⟩

/-- Settles O44: two states that differ in the latches are alike, and runs from alike states stay in lockstep. -/
theorem unspecifiedLatchesAreNeverRead : Obligations.UnspecifiedLatchesAreNeverRead := by
  intro i s t c r b ht
  obtain ⟨u, u', st, v, rfl, hu', k⟩ :=
    exec_of_alike (s' := { s with cmd := c, rsp := r, tmp := b }) ht (Alike.refl s) rfl
  refine ⟨_, hu', Eq.symm ?_⟩
  exact Alike.eq (k.alike.responded st v) (k.trace_eq rfl) (k.errlog_eq rfl) rfl rfl rfl rfl

/-- Settles O45: two states that differ in the trace are alike, and runs from alike states emit the same events. -/
theorem traceIsWriteOnly : Obligations.TraceIsWriteOnly := by
  intro i s t ht
  obtain ⟨es, hes, -⟩ := (exec_commandEffect ht).trace
  refine ⟨es, hes, fun old => ?_⟩
  obtain ⟨u, u', st, v, rfl, hu', k⟩ := exec_of_alike (s' := { s with trace := old }) ht (Alike.refl s) rfl
  rw [hu']
  refine congrArg _ (Eq.symm ?_)
  exact Alike.eq (k.alike.responded st v) (k.trace_append hes).symm (k.errlog_eq rfl) rfl (k.cmd_eq rfl) rfl
    (k.tmp_eq rfl)

/-! #### The error log (R16) -/

/-- From `s` to `t` events were emitted, and `errlog` was set exactly if one failed or an address was refused. -/
def Logged (refused : Bool) (s t : State) : Prop :=
  ∃ es, t.trace = s.trace ++ es ∧ t.errlog = (s.errlog || es.any Event.failed || refused)

theorem Logged.of_same {s t : State} (htrace : t.trace = s.trace) (herrlog : t.errlog = s.errlog) :
    Logged false s t := ⟨[], by simp [htrace], by simp [herrlog]⟩

theorem Logged.trans {b c : Bool} {s t u : State} (h : Logged b s t) (k : Logged c t u) : Logged (b || c) s u := by
  obtain ⟨es, hes, herr⟩ := h
  obtain ⟨fs, hfs, kerr⟩ := k
  refine ⟨es ++ fs, by rw [hfs, hes, List.append_assoc], ?_⟩
  rw [kerr, herr, List.any_append]
  ac_rfl

theorem Logged.of_abortRun {s : State} {p : BusResult × State} (h : AbortRun s p) : Logged false s p.2 := by
  obtain ⟨es, htrace, ⟨-, herr, hgood⟩ | ⟨-, herr, pre, last, rfl, hlast, -⟩⟩ := h
  · have hany : es.any Event.failed = false := List.any_eq_false.mpr fun e he => by simp [hgood e he]
    exact ⟨es, htrace, by simp [herr, hany]⟩
  · exact ⟨pre ++ [last], htrace, by simp [herr, hlast]⟩

theorem Logged.of_refused (s : State) : Logged true s s.logBusError := ⟨[], by simp, by simp⟩

theorem memRead_of_refused {a : Byte} (h : ADDR_MAX < a) (s : State) : memRead a s = (.fail, s.logBusError) := if_pos h

theorem memWrite_of_refused {a : Byte} (v : Byte) (h : ADDR_MAX < a) (s : State) :
    memWrite a v s = (.fail, s.logBusError) := if_pos h

theorem memUpdate_of_refused {a : Byte} (mask v : Byte) (h : ADDR_MAX < a) (s : State) :
    memUpdate a mask v s = (.fail, s.logBusError) := by simp [memUpdate, memRead_of_refused h]

theorem readRun_snd (p : ReadResult × State) : (readRun p).2 = p.2 := by
  obtain ⟨r, t⟩ := p
  cases r <;> rfl

theorem memRead_logged (a : Byte) (s : State) : Logged (ADDR_MAX < a) s (memRead a s).2 := by
  by_cases h : ADDR_MAX < a
  · simpa [memRead_of_refused h, h] using Logged.of_refused s
  · simpa [readRun_snd, h] using Logged.of_abortRun (memRead_abortRun (le_of_not_gt_addr h) s)

theorem memWrite_logged (a v : Byte) (s : State) : Logged (ADDR_MAX < a) s (memWrite a v s).2 := by
  by_cases h : ADDR_MAX < a
  · simpa [memWrite_of_refused v h, h] using Logged.of_refused s
  · simpa [h] using Logged.of_abortRun (memWrite_abortRun v (le_of_not_gt_addr h) s)

theorem memUpdate_logged (a mask v : Byte) (s : State) : Logged (ADDR_MAX < a) s (memUpdate a mask v s).2 := by
  by_cases h : ADDR_MAX < a
  · simpa [memUpdate_of_refused mask v h, h] using Logged.of_refused s
  · simpa [h] using Logged.of_abortRun (memUpdate_abortRun mask v (le_of_not_gt_addr h) s)

theorem aggregateSeq_logged {ps : List Step} (h : ∀ p ∈ ps, ∀ s, Logged false s (p s).2) (s : State) :
    Logged false s (aggregateSeq ps s).2 := by
  induction ps generalizing s with
  | nil => exact .of_same rfl rfl
  | cons p ps ih =>
    rw [(aggregateSeq_cons p ps s).1]
    exact (h p (by simp) s).trans (ih (fun q hq => h q (by simp [hq])) _)

/-- INIT's steps: of their addresses only the filter register's can be refused. -/
theorem initSteps_logged (c : Config) (s : State) :
    Logged (ADDR_MAX < c.aFilter) s (aggregateSeq (initSteps c) s).2 := by
  have hrest : ∀ p ∈ (initSteps c).tail, ∀ s, Logged false s (p s).2 := by
    intro p hp s
    simp only [initSteps, List.tail_cons, List.mem_cons, List.not_mem_nil, or_false] at hp
    rcases hp with rfl | rfl | rfl | rfl | rfl | rfl | rfl | rfl | rfl
    · exact memUpdate_logged A_CONFIG _ _ s
    · exact memWrite_logged A_BOOST _ s
    · exact memWrite_logged A_CUR_A _ s
    · exact memWrite_logged A_CUR_B _ s
    · exact memUpdate_logged A_CTRL _ _ s
    · exact memUpdate_logged A_CTRL _ _ s
    · exact .of_abortRun (settle_abortRun _ s)
    · exact memWrite_logged A_BRT_A _ s
    · exact memWrite_logged A_BRT_B _ s
  rw [show initSteps c = memWrite c.aFilter c.vFilter :: (initSteps c).tail from rfl, (aggregateSeq_cons _ _ s).1]
  simpa using (memWrite_logged c.aFilter c.vFilter s).trans (aggregateSeq_logged hrest _)

theorem initStart_logged (s : State) : Logged false s (initStart s) :=
  ⟨[.rail1, .delay .rail], by simp [initStart, settle], by simp [initStart, settle, Event.failed]⟩

theorem shutdownSteps_logged (s : State) : Logged false s (aggregateSeq shutdownSteps s).2 :=
  aggregateSeq_logged (by
    intro p hp s
    simp only [shutdownSteps, List.mem_cons, List.not_mem_nil, or_false] at hp
    rcases hp with rfl | rfl
    · exact memWrite_logged A_BRT_A _ s
    · exact memWrite_logged A_BRT_B _ s) s

theorem curveRead_logged (pct : Byte) (s : State) : Logged false s (curveRead pct s) := by
  unfold curveRead
  split
  · exact .of_same rfl rfl
  · exact .of_abortRun (romRead_abortRun s)

theorem setChannelBrightness_logged (ch : Channel) (brt cur : Byte) (s : State) :
    Logged false s (setChannelBrightness ch brt cur s).2 := .of_abortRun (setChannelBrightness_abortRun ch brt cur s)

theorem getChannelBrightness_logged (ch : Channel) (s : State) : Logged false s (getChannelBrightness ch s).2 := by
  simpa [readRun_snd] using Logged.of_abortRun (getChannelBrightness_abortRun ch s)

theorem applyPercentage_logged (pct : Byte) (s : State) : Logged false s (applyPercentage pct s).2 := by
  rcases apply_cases pct s with ⟨-, h⟩ | ⟨-, q, h, hrun, -⟩ <;> rw [h]
  · exact .of_same rfl rfl
  · rw [applied_snd]
    exact Logged.trans (b := false) (.of_same rfl rfl) (.of_abortRun hrun)

theorem commandSequence_logged {i : Instr} {s : State} (h : admitted i s = true) :
    Logged (refusesAddress i s) s (commandSequence i s) := by
  cases i with
  | rd a => exact memRead_logged a s
  | wr a v => exact memWrite_logged a v s
  | upd a mask v => exact memUpdate_logged a mask v s
  | init =>
    have hrun : Logged (refusesAddress .init s) s (aggregateSeq (initSteps s.cfg) (initStart s)).2 := by
      have hs : s.attached = false := by simpa using h
      rw [show refusesAddress .init s = (!s.attached && decide (ADDR_MAX < s.cfg.aFilter)) from rfl, hs]
      exact (initStart_logged s).trans (initSteps_logged s.cfg (initStart s))
    rw [commandSequence_init]
    split
    · exact hrun
    · exact hrun
  | setch ch brt cur => exact setChannelBrightness_logged ch brt cur s
  | getch ch => exact getChannelBrightness_logged ch s
  | shutdown => exact shutdownSteps_logged s
  | pct2raw ch pct => exact curveRead_logged pct s
  | flsel idx =>
    rw [commandSequence_flsel]
    split
    · exact .of_same rfl rfl
    · exact Logged.trans (b := false) (t := s.setTblIdx idx) (.of_same rfl rfl) (applyPercentage_logged _ _)
  | flapply pct => exact applyPercentage_logged pct s
  | blset ch brt =>
    rw [commandSequence_blset]
    split
    · exact .of_same rfl rfl
    · exact setChannelBrightness_logged ch brt _ s
  | blget ch => exact getChannelBrightness_logged ch s
  | vset pct => exact applyPercentage_logged pct s
  | blpct ch pct =>
    rw [commandSequence_blpct]
    split
    · exact curveRead_logged pct s
    · exact (curveRead_logged pct s).trans (setChannelBrightness_logged ch _ _ _)
  | stat => exact .of_same rfl rfl
  | flidx => exact .of_same rfl rfl
  | vget => exact .of_same rfl rfl

/-- A command the lifecycle gate turns away makes no access. -/
theorem refusesAddress_of_not_admitted {i : Instr} {s : State} (h : ¬ admitted i s = true) :
    refusesAddress i s = false := by
  cases i
  case rd | wr | upd => exact absurd rfl h
  case init =>
    have hs : s.attached = true := by simpa using h
    simp [refusesAddress, hs]
  all_goals rfl

theorem beforeResponse_logged (i : Instr) (s : State) : Logged (refusesAddress i s) s (beforeResponse i s) := by
  by_cases h : admitted i s = true
  · rw [beforeResponse_of_admitted h]
    exact commandSequence_logged h
  · rw [beforeResponse_of_not_admitted h, refusesAddress_of_not_admitted h]
    exact .of_same rfl rfl

theorem statByte_errlog (s : State) : (statByte s).getLsbD 1 = s.errlog := by
  unfold statByte
  cases s.railEn <;> cases s.errlog <;> cases s.attached <;> rfl

/-- Settles O39: `beforeResponse_logged`, and the response leaves `errlog` and the trace. -/
theorem errlogRecordsEveryBusError : Obligations.ErrlogRecordsEveryBusError := by
  refine ⟨fun i s t ht => ?_, fun s t herr hr ht => ?_, rfl, fun _ => rfl, fun s t ht => ?_⟩
  · obtain ⟨st, v, rfl⟩ := eq_responded_of_exec ht
    obtain ⟨es, hes, herr⟩ := beforeResponse_logged i s
    exact ⟨es, hes, by simp [herr, or_assoc]⟩
  · rcases step_cases_of_no_reset hr ht with rfl | ⟨w, rest, hrun⟩
    · exact herr
    · exact (runWord_commandEffect hrun).errlog herr
  · obtain rfl : s.responded .ok (statByte s) = t := Host.Outcome.next.inj ht
    rw [State.responded_rsp, responseWord, BitVec.getLsbD_append]
    exact statByte_errlog s

/-! #### The rail, the lifecycle bit and the blender's registers (R17, R18, R20, R21) -/

/-- `s` with the block's registers as a command leaves them, whatever the transport does to it but for the success of
INIT, which decides `attached`. -/
def registersWritten (i : Instr) (s : State) : State :=
  match i with
  | .init =>
    if (aggregateSeq (initSteps s.cfg) (initStart s)).1 = .ok then (initStart s).setAttached true else initStart s
  | .shutdown => s.setAttached false
  | .flsel idx => if 3 ≤ idx then s else s.setTblIdx idx
  | .flapply pct | .vset pct => if 3 ≤ s.tblIdx ∨ PCT_MAX < pct then s else s.setLastPct pct
  | _ => s

theorem SameBlock.setAttached {s t : State} (h : SameBlock s t) (v : Bool) :
    SameBlock (s.setAttached v) (t.setAttached v) :=
  ⟨h.cfg, h.railEn, rfl, h.tblIdx, h.lastPct, h.cmd, h.port, h.answerRest, h.resetIn⟩

theorem curveRead_sameBlock (pct : Byte) (s : State) : SameBlock s (curveRead pct s) := by
  unfold curveRead
  split
  · exact .refl s
  · exact (romRead_effect [] s).block

theorem applyPercentage_sameBlock (pct : Byte) (s : State) :
    SameBlock (if 3 ≤ s.tblIdx ∨ PCT_MAX < pct then s else s.setLastPct pct) (applyPercentage pct s).2 := by
  rcases apply_cases pct s with ⟨hbad, h⟩ | ⟨hok, q, h, -, heffect⟩ <;> rw [h]
  · rw [if_pos hbad]
    exact .refl s
  · rw [if_neg hok, applied_snd]
    exact heffect.block

/-- The re-application of `last_pct` stores what is there, or nothing. -/
theorem selectTable_sameBlock (idx : Byte) (s : State) : SameBlock (s.setTblIdx idx) (selectTable idx s) := by
  have h := applyPercentage_sameBlock s.lastPct (s.setTblIdx idx)
  split at h
  · exact h
  · have hsame : SameBlock (s.setTblIdx idx) ((s.setTblIdx idx).setLastPct s.lastPct) :=
      ⟨rfl, rfl, rfl, rfl, rfl, rfl, rfl, rfl, rfl⟩
    exact hsame.trans h

theorem commandSequence_sameBlock (i : Instr) (s : State) : SameBlock (registersWritten i s) (commandSequence i s) := by
  cases i with
  | rd a => exact (memRead_effect [] a s).block
  | wr a v => exact (memWrite_effect (W := [a]) v (by simp) s).block
  | upd a mask v => exact (memUpdate_effect (W := [a]) mask v (by simp) s).block
  | init =>
    have h := (init_effect s.cfg (initStart s)).block
    rw [commandSequence_init, registersWritten]
    split
    · exact h.setAttached true
    · exact h
  | setch ch brt cur => exact (setChannelBrightness_effect ch brt cur s).block
  | getch ch => exact (getChannelBrightness_effect ch s).block
  | shutdown => exact (shutdown_effect s).block.setAttached false
  | pct2raw ch pct => exact curveRead_sameBlock pct s
  | flsel idx =>
    rw [commandSequence_flsel, registersWritten]
    split
    · exact .refl s
    · exact selectTable_sameBlock idx s
  | flapply pct => exact applyPercentage_sameBlock pct s
  | blset ch brt =>
    rw [commandSequence_blset]
    split
    · exact .refl s
    · exact (setChannelBrightness_effect ch brt _ s).block
  | blget ch => exact (getChannelBrightness_effect ch s).block
  | vset pct => exact applyPercentage_sameBlock pct s
  | blpct ch pct =>
    rw [commandSequence_blpct]
    split
    · exact curveRead_sameBlock pct s
    · exact (curveRead_sameBlock pct s).trans (setChannelBrightness_effect ch _ _ _).block
  | stat => exact .refl s
  | flidx => exact .refl s
  | vget => exact .refl s

theorem beforeResponse_sameBlock (i : Instr) (s : State) :
    SameBlock (if admitted i s = true then registersWritten i s else s) (beforeResponse i s) := by
  split
  · next h =>
    rw [beforeResponse_of_admitted h]
    exact commandSequence_sameBlock i s
  · next h =>
    rw [beforeResponse_of_not_admitted h]
    exact .refl s

/-- What a command leaves in the block's registers, its response included. -/
theorem exec_sameBlock {i : Instr} {s t : State} (h : exec i s = .next t) :
    SameBlock (if admitted i s = true then registersWritten i s else s) t := by
  obtain ⟨st, v, rfl⟩ := eq_responded_of_exec h
  exact (beforeResponse_sameBlock i s).responded st v

theorem exec_sameBlock_of_admitted {i : Instr} {s t : State} (ha : admitted i s = true) (h : exec i s = .next t) :
    SameBlock (registersWritten i s) t := by
  simpa [ha] using exec_sameBlock h

theorem registersWritten_railEn (i : Instr) (s : State) :
    (registersWritten i s).railEn = (s.railEn || decide (i = .init)) := by
  cases i
  case init =>
    have hstart : (initStart s).railEn = true := rfl
    rw [registersWritten]
    split <;> simp [hstart]
  case flsel | flapply | vset =>
    rw [registersWritten]
    split <;> simp
  all_goals simp [registersWritten]

theorem exec_railEn {i : Instr} {s t : State} (h : exec i s = .next t) :
    t.railEn = true ↔ s.railEn = true ∨ (i = .init ∧ s.attached = false) := by
  rw [(exec_sameBlock h).railEn]
  split
  · next ha =>
    rw [registersWritten_railEn]
    by_cases hi : i = .init
    · subst hi
      have hs : s.attached = false := by simpa using ha
      simp [hs]
    · simp [hi]
  · next ha =>
    have hno : ¬ (i = .init ∧ s.attached = false) := by
      rintro ⟨rfl, hs⟩
      simp [hs] at ha
    simp [hno]

theorem runWord_railEn {w : CommandWord} {s t : State} (h : runWord w s = .next t) (hs : s.railEn = true) :
    t.railEn = true := by
  rcases runWord_cases h with ⟨i, hi⟩ | rfl
  · exact (exec_railEn hi).mpr (.inl hs)
  · exact hs

/-- Settles O40: of the registers a command writes (`registersWritten`), the rail is INIT's. -/
theorem railIsSetByInitAlone : Obligations.RailIsSetByInitAlone := by
  refine ⟨fun i s t ht => exec_railEn ht, fun s t hs hr ht => ?_, rfl, fun _ => rfl⟩
  rcases step_cases_of_no_reset hr ht with rfl | ⟨w, rest, hrun⟩
  · exact hs
  · exact runWord_railEn hrun hs

theorem registersWritten_attached {i : Instr} (hinit : i ≠ .init) (hshutdown : i ≠ .shutdown) (s : State) :
    (registersWritten i s).attached = s.attached := by
  cases i
  case init => exact absurd rfl hinit
  case shutdown => exact absurd rfl hshutdown
  case flsel | flapply | vset =>
    rw [registersWritten]
    split <;> simp
  all_goals rfl

/-- Settles O41: INIT by how its sequence ends, SHUTDOWN and every other command by `registersWritten`. -/
theorem attachedFollowsInitAndShutdown : Obligations.AttachedFollowsInitAndShutdown := by
  refine ⟨fun i s t ht hinit hshutdown => ?_, fun s t hs ht => ?_, fun s t ht => ?_, rfl, fun _ => rfl⟩
  · rw [(exec_sameBlock ht).attached]
    split
    · exact registersWritten_attached hinit hshutdown s
    · rfl
  · rcases exec_init_cases s hs with ⟨-, h⟩ | ⟨-, h⟩ <;>
      obtain rfl := Host.Outcome.next.inj (h.symm.trans ht)
    · simp [statusCode]
    · have hdetached : (aggregateSeq (initSteps s.cfg) (initStart s)).2.attached = false :=
        (init_effect s.cfg (initStart s)).block.attached.trans hs
      simp [statusCode, hdetached, responseWord]
  · rw [(exec_sameBlock ht).attached]
    split
    · rfl
    · next ha => simpa [admitted, needsAttached] using ha

/-- INIT, FLSEL, FLAPPLY and VSET alone write `tbl_idx` or `last_pct`. -/
theorem registersWritten_blender {i : Instr} (hinit : i ≠ .init) (hflsel : ∀ idx, i ≠ .flsel idx)
    (happly : ∀ pct, i ≠ .flapply pct ∧ i ≠ .vset pct) (s : State) :
    (registersWritten i s).tblIdx = s.tblIdx ∧ (registersWritten i s).lastPct = s.lastPct := by
  cases i
  case init => exact absurd rfl hinit
  case flsel idx => exact absurd rfl (hflsel idx)
  case flapply pct => exact absurd rfl (happly pct).1
  case vset pct => exact absurd rfl (happly pct).2
  all_goals exact ⟨rfl, rfl⟩

theorem registersWritten_init_blender (s : State) :
    (registersWritten .init s).tblIdx = 0 ∧ (registersWritten .init s).lastPct = 0 := by
  rw [registersWritten]
  split
  · exact ⟨rfl, rfl⟩
  · exact ⟨rfl, rfl⟩

theorem registersWritten_flsel_of_lt {idx : Byte} (h : idx < 3) (s : State) :
    registersWritten (.flsel idx) s = s.setTblIdx idx := if_neg (BitVec.not_le.mpr h)

/-- FLAPPLY and VSET past their range checks. -/
theorem registersWritten_apply {i : Instr} {pct : Byte} (hi : i = .flapply pct ∨ i = .vset pct) {s : State}
    (htbl : s.tblIdx < 3) (hpct : pct ≤ 100) : registersWritten i s = s.setLastPct pct := by
  have hok : ¬ (3 ≤ s.tblIdx ∨ PCT_MAX < pct) := by
    rintro (h | h)
    · exact BitVec.not_le.mpr htbl h
    · exact BitVec.not_lt.mpr hpct h
  rcases hi with rfl | rfl
  · exact if_neg hok
  · exact if_neg hok

/-- Settles O42: each clause reads `tbl_idx` and `last_pct` off `registersWritten`. -/
theorem blenderRegistersChangeOnlyAsStated : Obligations.BlenderRegistersChangeOnlyAsStated := by
  intro i s t ht
  refine ⟨?_, ?_, ?_, ?_⟩
  · rintro rfl hs
    have h := exec_sameBlock_of_admitted (by simp [hs]) ht
    rw [h.tblIdx, h.lastPct]
    exact registersWritten_init_blender s
  · rintro idx rfl hs hidx
    have h := exec_sameBlock_of_admitted (i := .flsel idx) hs ht
    rw [h.tblIdx, h.lastPct, registersWritten_flsel_of_lt hidx]
    exact ⟨rfl, rfl⟩
  · intro pct hi hs htbl hpct
    have ha : admitted i s = true := by rcases hi with rfl | rfl <;> exact hs
    have h := exec_sameBlock_of_admitted ha ht
    rw [h.tblIdx, h.lastPct, registersWritten_apply hi htbl hpct]
    exact ⟨rfl, rfl⟩
  · rintro ⟨hinit, hflsel, happly⟩
    have h := exec_sameBlock ht
    rw [h.tblIdx, h.lastPct]
    split
    · exact registersWritten_blender hinit hflsel happly s
    · exact ⟨rfl, rfl⟩

/-! #### The number of micro-steps (R13) -/

/-- The part does at most `n` micro-steps, whatever fails. -/
def TakesAtMost {α : Type} (n : Nat) (p : State → α × State) : Prop := ∀ s, (p s).2.step ≤ s.step + n

theorem TakesAtMost.mono {α : Type} {m n : Nat} {p : State → α × State} (h : TakesAtMost m p) (hmn : m ≤ n) :
    TakesAtMost n p := fun s => (h s).trans (by omega)

theorem memRead_takesAtMost (a : Byte) : TakesAtMost 1 (memRead a) := by
  intro s
  by_cases ha : ADDR_MAX < a
  · simp [memRead_of_refused ha]
  · rcases memRead_cases (le_of_not_gt_addr ha) s with ⟨b, h⟩ | h <;> simp [h]

theorem memWrite_takesAtMost (a v : Byte) : TakesAtMost 1 (memWrite a v) := by
  intro s
  by_cases ha : ADDR_MAX < a
  · simp [memWrite_of_refused v ha]
  · rcases memWrite_drawn v (le_of_not_gt_addr ha) s with ⟨-, h⟩ | ⟨-, -, h⟩ | ⟨-, -, h⟩ <;> simp [h, afterWrite]

theorem memUpdate_takesAtMost (a mask v : Byte) : TakesAtMost 2 (memUpdate a mask v) := by
  intro s
  have hread := memRead_takesAtMost a s
  unfold memUpdate
  split
  · next t h =>
    rw [h] at hread
    exact hread.trans (by omega)
  · next b t h =>
    rw [h] at hread
    have hwrite := memWrite_takesAtMost a (maskedByte b mask v) (t.setTmp b)
    rw [State.setTmp_step] at hwrite
    dsimp only at hread
    omega

theorem settle_takesAtMost (k : DelayKind) : TakesAtMost 1 (settle k) := fun _ => Nat.le_refl _

theorem romRead_takesAtMost : TakesAtMost 1 romRead := fun _ => Nat.le_refl _

/-- A sequence that aborts takes at most the micro-steps of all its parts. -/
theorem abortSeq_takesAtMost {ns : List Nat} {ps : List Step} (h : List.Forall₂ TakesAtMost ns ps) :
    TakesAtMost ns.sum (abortSeq ps) := by
  induction h with
  | nil => exact fun _ => Nat.le_refl _
  | @cons n p ns ps hp _ ih =>
    intro s
    have hfirst := hp s
    rw [List.sum_cons]
    rcases hps : p s with ⟨_ | _, t⟩ <;> rw [hps] at hfirst <;> dsimp only at hfirst
    · rw [abortSeq_cons_ok hps]
      have hrest := ih t
      omega
    · rw [abortSeq_cons_fail hps]
      exact hfirst.trans (by omega)

/-- A sequence that does not abort takes those of all its parts. -/
theorem aggregateSeq_takesAtMost {ns : List Nat} {ps : List Step} (h : List.Forall₂ TakesAtMost ns ps) :
    TakesAtMost ns.sum (aggregateSeq ps) := by
  induction h with
  | nil => exact fun _ => Nat.le_refl _
  | @cons n p ns ps hp _ ih =>
    intro s
    have hfirst := hp s
    have hrest := ih (p s).2
    rw [List.sum_cons, (aggregateSeq_cons p ps s).1]
    omega

theorem sleepOff_takesAtMost : TakesAtMost 3 sleepOff :=
  abortSeq_takesAtMost (.cons (memUpdate_takesAtMost _ _ _) (.cons (settle_takesAtMost _) .nil))

theorem setChannelBrightness_takesAtMost (ch : Channel) (brt cur : Byte) :
    TakesAtMost 8 (setChannelBrightness ch brt cur) := by
  intro s
  have hlast := memUpdate_takesAtMost A_CTRL (enMask s.cfg ch) (enableValue (enMask s.cfg ch) brt)
  have hbrt := memWrite_takesAtMost (brtAddr ch) brt
  unfold setChannelBrightness
  split
  · exact abortSeq_takesAtMost
      (.cons sleepOff_takesAtMost (.cons hbrt (.cons (memUpdate_takesAtMost _ _ _) (.cons hlast .nil)))) s
  · exact (abortSeq_takesAtMost (.cons sleepOff_takesAtMost (.cons hbrt (.cons hlast .nil)))).mono (by decide) s

theorem getChannelBrightness_takesAtMost (ch : Channel) : TakesAtMost 4 (getChannelBrightness ch) := by
  intro s
  have hsleep := sleepOff_takesAtMost s
  unfold getChannelBrightness
  split
  · next t h =>
    rw [h] at hsleep
    exact hsleep.trans (by omega)
  · next t h =>
    rw [h] at hsleep
    dsimp only at hsleep
    have hread := memRead_takesAtMost (brtAddr ch) t
    omega

theorem fullOff_takesAtMost : TakesAtMost 16 (abortSeq fullOffSteps) :=
  abortSeq_takesAtMost
    (.cons (setChannelBrightness_takesAtMost _ _ _) (.cons (setChannelBrightness_takesAtMost _ _ _) .nil))

theorem blend_takesAtMost (c : Config) (tblIdx pct : Byte) : TakesAtMost 20 (abortSeq (blendSteps c tblIdx pct)) :=
  abortSeq_takesAtMost
    (.cons romRead_takesAtMost (.cons romRead_takesAtMost (.cons (setChannelBrightness_takesAtMost _ _ _)
      (.cons (setChannelBrightness_takesAtMost _ _ _) (.cons (memUpdate_takesAtMost _ _ _) .nil)))))

theorem initSteps_takesAtMost (c : Config) : TakesAtMost 13 (aggregateSeq (initSteps c)) :=
  aggregateSeq_takesAtMost
    (.cons (memWrite_takesAtMost _ _) (.cons (memUpdate_takesAtMost _ _ _) (.cons (memWrite_takesAtMost _ _)
      (.cons (memWrite_takesAtMost _ _) (.cons (memWrite_takesAtMost _ _) (.cons (memUpdate_takesAtMost _ _ _)
        (.cons (memUpdate_takesAtMost _ _ _) (.cons (settle_takesAtMost _) (.cons (memWrite_takesAtMost _ _)
          (.cons (memWrite_takesAtMost _ _) .nil))))))))))

theorem initStart_step (s : State) : (initStart s).step = s.step + 4 := rfl

theorem shutdownSteps_takesAtMost : TakesAtMost 2 (aggregateSeq shutdownSteps) :=
  aggregateSeq_takesAtMost (.cons (memWrite_takesAtMost _ _) (.cons (memWrite_takesAtMost _ _) .nil))

theorem curveRead_step_le (pct : Byte) (s : State) : (curveRead pct s).step ≤ s.step + 1 := by
  unfold curveRead
  split
  · omega
  · exact romRead_takesAtMost s

/-- The store of `last_pct`, and the longer of the full-off and the blend. -/
theorem applyPercentage_takesAtMost (pct : Byte) : TakesAtMost 21 (applyPercentage pct) := by
  intro s
  unfold applyPercentage
  split
  · exact Nat.le_add_right _ _
  split
  · exact Nat.le_add_right _ _
  split
  · have h := fullOff_takesAtMost (s.setLastPct pct)
    rw [State.setLastPct_step] at h
    rw [applied_snd]
    omega
  · have h := blend_takesAtMost s.cfg s.tblIdx pct (s.setLastPct pct)
    rw [State.setLastPct_step] at h
    rw [applied_snd]
    omega

theorem selectTable_step_le (idx : Byte) (s : State) : (selectTable idx s).step ≤ s.step + 22 := by
  have h := applyPercentage_takesAtMost s.lastPct (s.setTblIdx idx)
  rw [State.setTblIdx_step] at h
  unfold selectTable
  omega

/-- FLSEL's sequence is the longest. -/
theorem commandSequence_step_le (i : Instr) (s : State) : (commandSequence i s).step ≤ s.step + 22 := by
  cases i with
  | rd a => exact (memRead_takesAtMost a).mono (by decide) s
  | wr a v => exact (memWrite_takesAtMost a v).mono (by decide) s
  | upd a mask v => exact (memUpdate_takesAtMost a mask v).mono (by decide) s
  | init =>
    have h := initSteps_takesAtMost s.cfg (initStart s)
    rw [initStart_step] at h
    rw [commandSequence_init]
    split
    · rw [State.setAttached_step]
      omega
    · omega
  | setch ch brt cur => exact (setChannelBrightness_takesAtMost ch brt cur).mono (by decide) s
  | getch ch => exact (getChannelBrightness_takesAtMost ch).mono (by decide) s
  | shutdown =>
    have h := shutdownSteps_takesAtMost s
    rw [commandSequence, State.setAttached_step]
    omega
  | pct2raw ch pct => exact (curveRead_step_le pct s).trans (by omega)
  | flsel idx =>
    rw [commandSequence_flsel]
    split
    · exact Nat.le_add_right _ _
    · exact selectTable_step_le idx s
  | flapply pct => exact (applyPercentage_takesAtMost pct).mono (by decide) s
  | blset ch brt =>
    rw [commandSequence_blset]
    split
    · exact Nat.le_add_right _ _
    · exact (setChannelBrightness_takesAtMost ch brt _).mono (by decide) s
  | blget ch => exact (getChannelBrightness_takesAtMost ch).mono (by decide) s
  | vset pct => exact (applyPercentage_takesAtMost pct).mono (by decide) s
  | blpct ch pct =>
    have hcurve := curveRead_step_le pct s
    rw [commandSequence_blpct]
    split
    · omega
    · have hset := setChannelBrightness_takesAtMost ch (percentToRaw s.cfg ch pct) (pick s.cfg.fullScale ch)
        (curveRead pct s)
      omega
  | stat => exact Nat.le_add_right _ _
  | flidx => exact Nat.le_add_right _ _
  | vget => exact Nat.le_add_right _ _

theorem beforeResponse_step_le (i : Instr) (s : State) : (beforeResponse i s).step ≤ s.step + 22 := by
  unfold beforeResponse
  split
  · exact commandSequence_step_le i s
  · exact Nat.le_add_right _ _

theorem afterUpdate_step (a mask v : Byte) (s : State) : (afterUpdate a mask v s).step = s.step + 2 := rfl

/-- Sleep-disable 3, the brightness 1, the current 2, the enable bit 2. -/
theorem afterSet_step (ch : Channel) (brt : Byte) {cur : Byte} (hcur : cur < CUR_KEEP) (s : State) :
    (afterSet ch brt cur s).step = s.step + 8 := by
  unfold afterSet afterCurrent
  rw [if_pos hcur]
  rfl

theorem romRead_eq (s : State) : romRead s = (.ok, s.tick) := rfl

/-- Two ROM reads, a set of each channel with its current, and the force-enable. -/
theorem blend_step_of_faultFree (c : Config) (tblIdx pct : Byte) {s : State} (h : FaultFree s) :
    (abortSeq (blendSteps c tblIdx pct) s).2.step = s.step + 20 := by
  have h0 : FaultFree s.tick.tick := h.congr rfl rfl
  have hA := faultFree_afterSet (ch := .A) (brt := flEntry c tblIdx.toNat .A (pct.toNat - 1)) (cur := FL_CUR_A) h0
  have hB := faultFree_afterSet (ch := .B) (brt := flEntry c tblIdx.toNat .B (pct.toNat - 1)) (cur := FL_CUR_B) hA
  unfold blendSteps
  rw [abortSeq_cons_ok (romRead_eq s), abortSeq_cons_ok (romRead_eq s.tick),
    abortSeq_cons_ok (setChannelBrightness_faultFree _ _ _ h0),
    abortSeq_cons_ok (setChannelBrightness_faultFree _ _ _ hA),
    abortSeq_cons_ok (memUpdate_faultFree _ _ hB A_CTRL_le), abortSeq_nil]
  rw [afterUpdate_step, afterSet_step _ _ (by decide), afterSet_step _ _ (by decide)]
  rfl

theorem applyPercentage_step_of_faultFree {pct : Byte} {s : State} (h : FaultFree s) (htbl : s.tblIdx < 3)
    (hlow : 1 ≤ pct) (hhigh : pct ≤ 100) : (applyPercentage pct s).2.step = s.step + 21 := by
  have hzero : pct ≠ 0 := by
    rintro rfl
    exact absurd hlow (by decide)
  have hmax : ¬ PCT_MAX < pct := BitVec.not_lt.mpr hhigh
  unfold applyPercentage
  rw [if_neg (BitVec.not_le.mpr htbl), if_neg hmax, if_neg hzero, applied_snd,
    blend_step_of_faultFree _ _ _ (s := s.setLastPct pct) (h.congr rfl rfl), State.setLastPct_step]

/-- Settles O46: the bound for each operation whatever fails, and FLSEL's count when nothing does. -/
theorem longestSequenceHasTwentyThreeMicroSteps : Obligations.LongestSequenceHasTwentyThreeMicroSteps := by
  refine ⟨fun i s => ?_, fun idx s hfree hs hidx hlow hhigh => ?_⟩
  · obtain ⟨st, v, h⟩ := exec_beforeResponse i s
    exact ⟨st, v, h, beforeResponse_step_le i s⟩
  · rw [beforeResponse_of_admitted (i := .flsel idx) hs, commandSequence_flsel, if_neg (BitVec.not_le.mpr hidx),
      selectTable, applyPercentage_step_of_faultFree (s := s.setTblIdx idx) (hfree.congr rfl rfl) hidx hlow hhigh,
      State.setTblIdx_step]

end Sys2Proof.Machine

/-! ### The transport and the chip's store (O7 to O10, O20)

What one access leaves by the transport's draw, what an address above the range does to a command, and a brightness
read back; then that every command and every step answers. -/

namespace Sys2Proof.Machine

/-! #### The store (R48) -/

/-- Settles O8: the store's laws, read after write at the address and beside it, and the canonical form. -/
theorem storeReadsBackWhatWasWritten : Obligations.StoreReadsBackWhatWasWritten := by
  intro m a v hm ha
  exact ⟨readCell_writeCell_same hm a v, fun b hb => readCell_writeCell_ne m v hb.symm, writeCell_wf v hm ha⟩

/-! #### A failed transaction (R47) -/

theorem busWr_of_taken {s : State} (a v : Byte) (hfails : s.nextAnswer.fails = true)
    (htaken : s.nextAnswer.taken = true) : busWr a v s = (.fail, s.useAnswer.setReg a v) := by
  simp [busWr, hfails, htaken]

theorem busWr_of_not_taken {s : State} (a v : Byte) (hfails : s.nextAnswer.fails = true)
    (htaken : s.nextAnswer.taken = false) : busWr a v s = (.fail, s.useAnswer) := by
  simp [busWr, hfails, htaken]

theorem drawnByte_of_fails {x : Answer} (h : x.fails = true) (b : Byte) : drawnByte x b = none := if_pos h

/-- A read that the transport fails brings no data, whatever its address. -/
theorem memRead_fst_of_fails {s : State} (h : s.nextAnswer.fails = true) (a : Byte) : (memRead a s).1 = .fail := by
  by_cases ha : ADDR_MAX < a
  · rw [memRead_of_refused ha]
  · rcases memRead_drawn (le_of_not_gt_addr ha) s with ⟨b, hb, -⟩ | ⟨-, hread⟩
    · rw [drawnByte_of_fails h] at hb; cases hb
    · rw [hread]

/-- No read writes the chip, whatever the transport answers. -/
theorem memRead_chip (a : Byte) (s : State) : (memRead a s).2.chip = s.chip := by
  by_cases ha : ADDR_MAX < a
  · rw [memRead_of_refused ha]; rfl
  · rcases memRead_cases (le_of_not_gt_addr ha) s with ⟨b, h⟩ | h <;> rw [h] <;> rfl

/-- Settles O9: the failed write by its draw, and the failed read. -/
theorem failedAccessLeavesOldOrNew : Obligations.FailedAccessLeavesOldOrNew := by
  intro s a v hwf hfails
  have hread := memRead_fst_of_fails hfails a
  have hchip := memRead_chip a s
  cases htaken : s.nextAnswer.taken with
  | true =>
    rw [busWr_of_taken a v hfails htaken]
    exact ⟨rfl, fun _ => State.setReg_reg_same (s := s.useAnswer) hwf a v, (fun h => nomatch h),
      fun b hb => State.setReg_reg_ne s.useAnswer v hb.symm, hread, hchip⟩
  | false =>
    rw [busWr_of_not_taken a v hfails htaken]
    exact ⟨rfl, (fun h => nomatch h), fun _ => rfl, fun _ _ => rfl, hread, hchip⟩

/-! #### An address above the range (R41) -/

/-- A detached INIT whose filter write is refused still attempts the rest and reports `InitError`. -/
theorem exec_init_of_refused {s : State} (hs : s.attached = false) (ha : ADDR_MAX < s.cfg.aFilter) :
    exec .init s = .next ((aggregateSeq (initSteps s.cfg) (initStart s)).2.responded .errInit 0) := by
  rcases exec_init_cases s hs with ⟨hok, -⟩ | ⟨-, h⟩
  · have hfilter := ((aggregateSeq_cons _ _ _).2.mp hok).1
    rw [memWrite_of_refused _ ha] at hfilter
    cases hfilter
  · exact h

/-- Settles O10: the three operations stop at the address check, which ends RD, WR and UPD; INIT aggregates the refused
filter write, and no event of any command has an address above the range. -/
theorem addressAboveRangeFailsWithoutTransaction : Obligations.AddressAboveRangeFailsWithoutTransaction := by
  refine ⟨fun s a mask v ha => ?_, fun s hs (ha : ADDR_MAX < s.cfg.aFilter) => ?_⟩
  · have hread : memRead a s = (.fail, s.logBusError) := memRead_of_refused ha s
    have hwrite : memWrite a v s = (.fail, s.logBusError) := memWrite_of_refused v ha s
    have hupdate : memUpdate a mask v s = (.fail, s.logBusError) := memUpdate_of_refused mask v ha s
    refine ⟨hread, hwrite, hupdate, ?_, ?_, ?_⟩
    · exact congrArg finishRead hread
    · exact congrArg (finish 0x00 0x00) hwrite
    · exact congrArg (finish 0x00 0x00) hupdate
  · have hexec := exec_init_of_refused hs ha
    obtain ⟨es, htrace, hrange⟩ := (exec_commandEffect hexec).trace
    obtain ⟨_, -, herr⟩ := initSteps_logged s.cfg (initStart s)
    refine ⟨_, hexec, rfl, ?_, ?_, es, htrace, fun v r hmem => ?_⟩
    · exact (init_effect s.cfg (initStart s)).block.attached.trans hs
    · rw [State.responded_errlog, herr, decide_eq_true ha, Bool.or_true]
    · have hle : s.cfg.aFilter ≤ ADDR_MAX := of_decide_eq_true (hrange _ hmem)
      exact absurd ha (BitVec.not_lt.mpr hle)

/-! #### A brightness set and read back (R48, R105) -/

theorem exec_setch_faultFree {s : State} (ch : Channel) (brt cur : Byte) (hfree : FaultFree s)
    (hs : s.attached = true) : exec (.setch ch brt cur) s = .next ((afterSet ch brt cur s).responded .ok 0x00) := by
  show whenAttached s (finish 0x00 brt (setChannelBrightness ch brt cur s)) = _
  rw [whenAttached_of hs, setChannelBrightness_faultFree ch brt cur hfree]
  rfl

/-- GETCH answers the brightness register, which its own sleep-disable leaves alone. -/
theorem exec_getch_faultFree {s : State} (ch : Channel) (hfree : FaultFree s) (hwf : Memory.wf s.chip = true)
    (hs : s.attached = true) :
    exec (.getch ch) s =
      .next ((afterRead (brtAddr ch) (afterSleepOff s)).responded .ok (s.reg (brtAddr ch))) := by
  have hreg : (afterSleepOff s).reg (brtAddr ch) = s.reg (brtAddr ch) := by
    have hne : brtAddr ch ≠ 0 := by cases ch <;> decide
    rw [(wrote_refl hfree hwf).sleep.reg, if_neg hne]
  show whenAttached s (finishRead (getChannelBrightness ch s)) = _
  rw [whenAttached_of hs, getChannelBrightness_faultFree ch hfree, hreg]
  rfl

/-- Settles O20: SETCH leaves its channel's brightness register at the byte set, and GETCH answers that register. -/
theorem setThenGetReturnsTheBrightness : Obligations.SetThenGetReturnsTheBrightness := by
  intro s t u ch brt cur hfree hwf hs hset hget
  have hdriven := channelDriven_afterSet hfree hwf ch brt cur .ok 0x00
  obtain rfl : _ = t := Host.Outcome.next.inj ((exec_setch_faultFree ch brt cur hfree hs).symm.trans hset)
  have hfree' : FaultFree ((afterSet ch brt cur s).responded .ok 0x00) :=
    (faultFree_afterSet hfree).congr rfl rfl
  have hget' := exec_getch_faultFree ch hfree' ((exec_commandEffect hset).chip hwf) (hdriven.block.attached.trans hs)
  obtain rfl : _ = u := Host.Outcome.next.inj (hget'.symm.trans hget)
  exact ⟨statusOf_responded _ _ _, (valueOf_responded _ _ _).trans hdriven.brightness⟩

/-! #### Every word is answered (R55, R73) -/

theorem runCut_next (n : Nat) (taken : Bool) (w : CommandWord) (s : State) : ∃ t, runCut n taken w s = .next t := by
  obtain ⟨u, st, v, h⟩ := runWord_responds w (cutAnswers n taken s)
  exact ⟨_, congrArg (resetAfterCut (s.answers.drop (n + 1)) s.answerRest) h⟩

theorem step_next (s : State) : ∃ t, step s = .next t := by
  unfold step
  split
  · exact runCut_next _ _ _ _
  · exact ⟨_, rfl⟩
  · next w rest _ _ _ =>
    obtain ⟨u, st, v, h⟩ := runWord_responds w (accept w rest s)
    exact ⟨_, h⟩
  · exact ⟨_, rfl⟩

/-- Settles O7: a word ends in a response, whose status is a code of R74; a step runs one, resets or rests. -/
theorem everyWordGetsAResponse : Obligations.EveryWordGetsAResponse := by
  refine ⟨fun w s => ?_, step_next⟩
  obtain ⟨u, st, v, h⟩ := runWord_responds w s
  exact ⟨_, h, idle_responded st v u, by rw [statusOf_responded]; exact statusCode_le st⟩

end Sys2Proof.Machine

/-! ### Encoding and the command port (O1 to O6)

The decoder is the encoder's inverse, a word is legal exactly if some command encodes to it, and a word's opcode alone
says which row can select it; then what a step does with the word offered. -/

namespace Sys2Proof

/-! #### Decoding an encoded command (R70 to R78) -/

@[simp] theorem whenZero_true (i : Instr) : whenZero true i = .command i := rfl

@[simp] theorem whenChannel_channelCode (ch : Channel) (i : Channel → Instr) :
    whenChannel (channelCode ch) true i = .command (i ch) :=
  whenChannel_eq_command.mpr ⟨ch, rfl, rfl, rfl⟩

/-- The fields of an encoded command select its own arm of the decoder, and pass that arm's checks. -/
theorem decode_encode (i : Instr) : decode (encode i) = .command i := by
  cases i <;> simp [encode, decode]

theorem encode_injective {i j : Instr} (h : encode i = encode j) : i = j :=
  Decoded.command.inj ((decode_encode i).symm.trans ((congrArg decode h).trans (decode_encode j)))

theorem packWord_eq_iff {op a b c : Byte} {w : CommandWord} :
    packWord op a b c = w ↔ op = fieldOp w ∧ a = fieldA w ∧ b = fieldB w ∧ c = fieldC w := by
  rw [← packWord_inj, packWord_fields]

/-- Each arm of the decoder accepts only words whose fields are those the encoder writes. -/
theorem encode_of_decode {w : CommandWord} {i : Instr} (h : decode w = .command i) : encode i = w := by
  unfold decode at h
  split at h
  all_goals simp only [whenZero_eq_command, whenChannel_eq_command, Bool.and_eq_true, beq_iff_eq, reduceCtorEq] at h
  all_goals grind [encode, packWord_eq_iff]

/-- R77: the decoder inverts the encoder, on every word. -/
theorem decode_eq_command_iff {w : CommandWord} {i : Instr} : decode w = .command i ↔ encode i = w :=
  ⟨encode_of_decode, fun h => h ▸ decode_encode i⟩

/-! #### Legal words (R75) -/

/-- Every command's word is legal, by its law of the family `Legal`. -/
theorem legalWord_encode (i : Instr) : legalWord (encode i) = true :=
  match i with
  | .rd addr => Laws.Legal.rd addr
  | .wr addr value => Laws.Legal.wr addr value
  | .upd addr mask value => Laws.Legal.upd addr mask value
  | .stat => Laws.Legal.stat
  | .init => Laws.Legal.init
  | .setch ch brt cur => Laws.Legal.setch ch brt cur
  | .getch ch => Laws.Legal.getch ch
  | .shutdown => Laws.Legal.shutdown
  | .pct2raw ch pct => Laws.Legal.pct2raw ch pct
  | .flsel idx => Laws.Legal.flsel idx
  | .flapply pct => Laws.Legal.flapply pct
  | .flidx => Laws.Legal.flidx
  | .blset ch brt => Laws.Legal.blset ch brt
  | .blget ch => Laws.Legal.blget ch
  | .vset pct => Laws.Legal.vset pct
  | .vget => Laws.Legal.vget
  | .blpct ch pct => Laws.Legal.blpct ch pct

/-- A full mask on a field leaves the field. -/
theorem and_FF (a : Byte) : a &&& 0xFF = a := BitVec.and_allOnes

/-- A channel row's mask on field `A` asks for a channel code (R78). -/
theorem and_FE_eq_zero_iff_channelCode (a : Byte) : a &&& 0xFE = 0 ↔ ∃ ch, a = channelCode ch := by
  rw [and_FE_eq_zero]
  exact ⟨fun | .inl h => ⟨.A, h⟩ | .inr h => ⟨.B, h⟩, fun | ⟨.A, h⟩ => .inl h | ⟨.B, h⟩ => .inr h⟩

/-- A legal word is a command's: the fields its row leaves free are the operands. -/
theorem exists_encode_of_legalWord {w : CommandWord} (h : legalWord w = true) : ∃ i, encode i = w := by
  rw [← packWord_fields w] at h ⊢
  generalize fieldOp w = op, fieldA w = a, fieldB w = b, fieldC w = c at h ⊢
  simp only [legalWord, opcodeRows_eq_byField, opcodeRowsByField, List.cons_append, List.nil_append, List.any_cons,
    List.any_nil, Bool.or_false, Bool.or_eq_true, selects_packWord, and_FF, and_FE_eq_zero_iff_channelCode] at h
  rcases h with ⟨rfl, -, rfl, rfl⟩ | ⟨rfl, -, rfl, -⟩ | ⟨rfl, -⟩ | ⟨rfl, rfl, rfl, rfl⟩ | ⟨rfl, rfl, rfl, rfl⟩ |
    ⟨rfl, ⟨ch, rfl⟩, -⟩ | ⟨rfl, ⟨ch, rfl⟩, rfl, rfl⟩ | ⟨rfl, rfl, rfl, rfl⟩ | ⟨rfl, ⟨ch, rfl⟩, rfl, -⟩ |
    ⟨rfl, rfl, rfl, -⟩ | ⟨rfl, rfl, rfl, -⟩ | ⟨rfl, rfl, rfl, rfl⟩ | ⟨rfl, ⟨ch, rfl⟩, -, rfl⟩ |
    ⟨rfl, ⟨ch, rfl⟩, rfl, rfl⟩ | ⟨rfl, rfl, rfl, -⟩ | ⟨rfl, rfl, rfl, rfl⟩ | ⟨rfl, ⟨ch, rfl⟩, rfl, -⟩
  · exact ⟨.rd a, rfl⟩
  · exact ⟨.wr a c, rfl⟩
  · exact ⟨.upd a b c, rfl⟩
  · exact ⟨.stat, rfl⟩
  · exact ⟨.init, rfl⟩
  · exact ⟨.setch ch b c, rfl⟩
  · exact ⟨.getch ch, rfl⟩
  · exact ⟨.shutdown, rfl⟩
  · exact ⟨.pct2raw ch c, rfl⟩
  · exact ⟨.flsel c, rfl⟩
  · exact ⟨.flapply c, rfl⟩
  · exact ⟨.flidx, rfl⟩
  · exact ⟨.blset ch b, rfl⟩
  · exact ⟨.blget ch, rfl⟩
  · exact ⟨.vset c, rfl⟩
  · exact ⟨.vget, rfl⟩
  · exact ⟨.blpct ch c, rfl⟩

/-- R75: the legal words are the words the decoder accepts. -/
theorem exists_decode_eq_command_iff {w : CommandWord} : (∃ i, decode w = .command i) ↔ legalWord w = true := by
  simp only [decode_eq_command_iff]
  exact ⟨fun ⟨i, hi⟩ => hi ▸ legalWord_encode i, exists_encode_of_legalWord⟩

/-- R76: the words the decoder rejects are the words that match no row. -/
theorem exists_decode_eq_illegal_iff {w : CommandWord} : (∃ why, decode w = .illegal why) ↔ legalWord w = false := by
  rw [← Bool.not_eq_true, ← exists_decode_eq_command_iff]
  cases decode w <;> simp

/-! #### A word's opcode and its row (R75) -/

theorem fieldOp_and (w m : CommandWord) : fieldOp (w &&& m) = fieldOp w &&& fieldOp m := BitVec.extractLsb'_and

/-- Every row's mask covers the whole opcode field. -/
theorem fieldOp_of_selects {r : OpcodeRow} (hr : r ∈ opcodeRows) {w : CommandWord} (h : r.selects w = true) :
    fieldOp w = fieldOp r.bits := by
  have hmask : ∀ r ∈ opcodeRows, fieldOp r.mask = 0xFF := by decide
  rw [← eq_of_beq h, fieldOp_and, hmask r hr, and_FF]

/-- No two rows share an opcode. -/
theorem row_eq_of_fieldOp_eq : ∀ r ∈ opcodeRows, ∀ q ∈ opcodeRows, fieldOp r.bits = fieldOp q.bits → r = q := by
  decide

/-- A word with a row's opcode is legal only if that row selects it. -/
theorem selects_of_legalWord {r : OpcodeRow} (hr : r ∈ opcodeRows) {w : CommandWord}
    (hop : fieldOp w = fieldOp r.bits) (h : legalWord w = true) : r.selects w = true := by
  obtain ⟨q, hq, hsel⟩ := List.any_eq_true.mp h
  obtain rfl : r = q := row_eq_of_fieldOp_eq r hr q hq (hop.symm.trans (fieldOp_of_selects hq hsel))
  exact hsel

/-- Settles O1: `decode` and `encode` are inverse, the legal words are the encoded ones, and a known opcode leaves one
row to select the word. -/
theorem decodeAndEncodeAreInverse : Obligations.DecodeAndEncodeAreInverse := by
  refine ⟨decode_encode, fun w hw => ?_, fun r hr w hop hsel => ?_, fun w => ?_, ⟨.nonZeroField, rfl⟩⟩
  · obtain ⟨i, rfl⟩ := exists_encode_of_legalWord hw
    exact ⟨i, rfl, fun j hj => encode_injective hj⟩
  · refine exists_decode_eq_illegal_iff.mpr (Bool.eq_false_iff.mpr fun hw => ?_)
    rw [selects_of_legalWord hr hop hw] at hsel
    cases hsel
  · have hinit : encode .init = 0x10000000 := rfl
    rw [decode_eq_command_iff, hinit, eq_comm]

/-- Settles O2: the decoder accepts the legal words, and two rows that select one word share its opcode. -/
theorem decoderAcceptsExactlyTheTable : Obligations.DecoderAcceptsExactlyTheTable :=
  ⟨fun _ => exists_decode_eq_command_iff, fun _ r hr q hq hrsel hqsel =>
    row_eq_of_fieldOp_eq r hr q hq ((fieldOp_of_selects hr hrsel).symm.trans (fieldOp_of_selects hq hqsel))⟩

/-- Settles O3: each word is evaluated. -/
theorem sampleWordsDecodeAsTheSpecSays : Obligations.SampleWordsDecodeAsTheSpecSays := by
  unfold Obligations.SampleWordsDecodeAsTheSpecSays
  decide

end Sys2Proof

namespace Sys2Proof.Machine

/-! #### The word offered (R82) -/

theorem runWord_of_command {w : CommandWord} {i : Instr} (h : decode w = .command i) (s : State) :
    runWord w s = exec i s := by
  rw [runWord, h]

theorem runWord_of_not_legal {w : CommandWord} (h : legalWord w = false) (s : State) :
    runWord w s = .next (s.responded .errIllegal 0x00) := by
  obtain ⟨why, hwhy⟩ := exists_decode_eq_illegal_iff.mpr h
  rw [runWord, hwhy]
  rfl

theorem step_of_offered {s : State} {w : CommandWord} {rest : List CommandWord} (hreset : s.resetIn = none)
    (hbusy : s.busy = false) (hport : s.port = w :: rest) : step s = runWord w (accept w rest s) := by
  rw [step, hreset, hbusy, hport]

theorem step_of_busy {s : State} (hreset : s.resetIn = none) (hbusy : s.busy = true) : step s = .next s := by
  rw [step, hreset, hbusy]

theorem step_of_port_nil {s : State} (hreset : s.resetIn = none) (hport : s.port = []) : step s = .next s := by
  rw [step, hreset, hport]
  cases s.busy <;> rfl

/-- Settles O4: the word offered is accepted, and runs as the command it decodes to. -/
theorem stepRunsTheDecodedCommand : Obligations.StepRunsTheDecodedCommand := by
  intro s w rest i hreset hbusy hport hdecode
  rw [step_of_offered hreset hbusy hport, runWord_of_command hdecode]
  rfl

/-- Settles O5: the illegal word is accepted and answered; the step index, 0 in an idle block, is 0 after the response. -/
theorem illegalWordAnswersAndChangesNothingElse : Obligations.IllegalWordAnswersAndChangesNothingElse := by
  refine ⟨fun s w rest hreset ⟨hbusy, hstep⟩ hport hw => ?_, by decide, by decide⟩
  rw [step_of_offered hreset hbusy hport, runWord_of_not_legal hw, hstep]
  rfl

/-- Settles O6: the two arms of `step` in which no word is accepted and no reset is taken. -/
theorem portHoldsOffAndIdleBlockRests : Obligations.PortHoldsOffAndIdleBlockRests := by
  rintro s hreset (hbusy | hport)
  · exact step_of_busy hreset hbusy
  · exact step_of_port_nil hreset hport

end Sys2Proof.Machine

/-! ### The raw access commands (O11 to O13)

One read, one write and one masked update of a valid address, each by its draw; RD, WR and UPD are these and their
response, and the frame is that of the bus operation (`BusEffect`). -/

namespace Sys2Proof.Machine

/-! #### One access by its draw (R44, R45, R92) -/

theorem memRead_of_drawn {a b : Byte} {s : State} (ha : a ≤ ADDR_MAX)
    (h : drawnByte s.nextAnswer (s.reg a) = some b) : memRead a s = (.ok b, s.useAnswer.emit (.rd a (.ok b))) := by
  rcases memRead_drawn ha s with ⟨c, hc, hread⟩ | ⟨hnone, -⟩
  · obtain rfl : c = b := Option.some.inj (hc.symm.trans h)
    exact hread
  · rw [h] at hnone; cases hnone

theorem memRead_of_not_drawn {a : Byte} {s : State} (ha : a ≤ ADDR_MAX)
    (h : drawnByte s.nextAnswer (s.reg a) = none) :
    memRead a s = (.fail, (s.useAnswer.emit (.rd a .fail)).logBusError) := by
  rcases memRead_drawn ha s with ⟨c, hc, -⟩ | ⟨-, hread⟩
  · rw [h] at hc; cases hc
  · exact hread

theorem memWrite_of_succeeds {a : Byte} (v : Byte) {s : State} (ha : a ≤ ADDR_MAX)
    (hfails : s.nextAnswer.fails = false) : memWrite a v s = (.ok, afterWrite a v s) := by
  rcases memWrite_drawn v ha s with ⟨-, h⟩ | ⟨htrue, -⟩ | ⟨htrue, -⟩
  · exact h
  · rw [hfails] at htrue; cases htrue
  · rw [hfails] at htrue; cases htrue

/-- A failed MemWrite leaves the chip as its transaction does. -/
theorem memWrite_of_fails {a : Byte} (v : Byte) {s : State} (ha : a ≤ ADDR_MAX)
    (hfails : s.nextAnswer.fails = true) :
    memWrite a v s = (.fail, ((busWr a v s).2.emit (.wr a v .fail)).logBusError) := by
  rcases memWrite_drawn v ha s with ⟨hfalse, -⟩ | ⟨-, htaken, h⟩ | ⟨-, htaken, h⟩
  · rw [hfails] at hfalse; cases hfalse
  · rw [h, busWr_of_taken a v hfails htaken]
  · rw [h, busWr_of_not_taken a v hfails htaken]

theorem afterWrite_reg_same {s : State} (hwf : Memory.wf s.chip = true) (a v : Byte) : (afterWrite a v s).reg a = v :=
  State.setReg_reg_same (s := s.useAnswer) hwf a v

/-- R47: the register of a failed write, by the draw. -/
theorem busWr_reg_of_fails {s : State} (hwf : Memory.wf s.chip = true) (a v : Byte)
    (hfails : s.nextAnswer.fails = true) :
    (busWr a v s).2.reg a = if s.nextAnswer.taken then v else s.reg a := by
  obtain ⟨-, htaken, hnot, -⟩ := failedAccessLeavesOldOrNew s a v hwf hfails
  split
  · next h => exact htaken h
  · next h => exact hnot (Bool.eq_false_iff.mpr h)

/-- The transaction itself emits nothing. -/
theorem busWr_trace (a v : Byte) (s : State) : (busWr a v s).2.trace = s.trace := by
  unfold busWr
  split
  · split <;> rfl
  · rfl

theorem memWrite_tmp (a v : Byte) (s : State) : (memWrite a v s).2.tmp = s.tmp := by
  by_cases ha : ADDR_MAX < a
  · rw [memWrite_of_refused v ha]; rfl
  · rcases memWrite_drawn v (le_of_not_gt_addr ha) s with ⟨-, h⟩ | ⟨-, -, h⟩ | ⟨-, -, h⟩ <;> rw [h] <;> rfl

/-- A write to a valid address is one transaction. -/
theorem memWrite_answers {a : Byte} (v : Byte) (ha : a ≤ ADDR_MAX) (s : State) :
    (memWrite a v s).2.answers = s.answers.tail := by
  rcases memWrite_drawn v ha s with ⟨-, h⟩ | ⟨-, -, h⟩ | ⟨-, -, h⟩ <;> rw [h] <;> rfl

theorem memUpdate_of_not_drawn {a : Byte} (mask v : Byte) {s : State} (ha : a ≤ ADDR_MAX)
    (h : drawnByte s.nextAnswer (s.reg a) = none) :
    memUpdate a mask v s = (.fail, (s.useAnswer.emit (.rd a .fail)).logBusError) := by
  rw [memUpdate, memRead_of_not_drawn ha h]

/-- The state between the halves of a masked update, whose read brought `b` (R92). -/
def updateRead (a b : Byte) (s : State) : State := (s.useAnswer.emit (.rd a (.ok b))).setTmp b

@[simp] theorem updateRead_trace (a b : Byte) (s : State) :
    (updateRead a b s).trace = s.trace ++ [.rd a (.ok b)] := rfl

/-- After the read half the masked byte is written. -/
theorem memUpdate_of_drawn {a b : Byte} (mask v : Byte) {s : State} (ha : a ≤ ADDR_MAX)
    (h : drawnByte s.nextAnswer (s.reg a) = some b) :
    memUpdate a mask v s = memWrite a (maskedByte b mask v) (updateRead a b s) := by
  rw [memUpdate, memRead_of_drawn ha h]
  rfl

/-! #### The commands (R93 to R95) -/

/-- The status a bus operation's result is answered with. -/
def busStatus : BusResult → Status
  | .ok => .ok
  | .fail => .errBus

/-- A command with one value for both ends answers by the result alone. -/
theorem finish_eq_responded (v : Byte) (p : BusResult × State) :
    finish v v p = .next (p.2.responded (busStatus p.1) v) := by
  obtain ⟨_ | _, t⟩ := p <;> rfl

theorem exec_wr (a v : Byte) (s : State) :
    exec (.wr a v) s = .next ((memWrite a v s).2.responded (busStatus (memWrite a v s).1) 0x00) :=
  finish_eq_responded 0x00 (memWrite a v s)

theorem exec_upd (a mask v : Byte) (s : State) :
    exec (.upd a mask v) s = .next ((memUpdate a mask v s).2.responded (busStatus (memUpdate a mask v s).1) 0x00) :=
  finish_eq_responded 0x00 (memUpdate a mask v s)

/-- Settles O11: the read by its draw, and its response. -/
theorem rdReadsOneRegister : Obligations.RdReadsOneRegister := by
  intro s addr ha
  have hblock := (memRead_effect [] addr s).block
  rcases memRead_drawn ha s with ⟨c, hdrawn, hread⟩ | ⟨hdrawn, hread⟩ <;> rw [hread] at hblock
  · refine ⟨_, congrArg finishRead hread, hblock.responded _ _, idle_responded _ _ _, rfl, rfl, rfl,
      fun b hb => ?_, fun hnone => ?_⟩
    · obtain rfl : c = b := Option.some.inj (hdrawn.symm.trans hb)
      exact ⟨statusOf_responded _ _ _, valueOf_responded _ _ _, rfl, rfl⟩
    · rw [hdrawn] at hnone; cases hnone
  · refine ⟨_, congrArg finishRead hread, hblock.responded _ _, idle_responded _ _ _, rfl, rfl, rfl,
      fun b hb => ?_, fun _ => ⟨rfl, rfl, rfl⟩⟩
    rw [hdrawn] at hb; cases hb

/-- Settles O12: the frame is that of any write to the address, and its draw says what the register holds. -/
theorem wrWritesOneRegister : Obligations.WrWritesOneRegister := by
  intro s addr value hwf ha
  have heffect := memWrite_effect value (List.mem_singleton_self addr) s
  refine ⟨_, exec_wr addr value s, heffect.block.responded _ _, idle_responded _ _ _, memWrite_tmp addr value s,
    memWrite_answers value ha s, fun b hb => heffect.others b (mt List.mem_singleton.mp hb),
    fun hfails => ?_, fun hfails => ?_⟩
  · rw [memWrite_of_succeeds value ha hfails]
    dsimp only
    exact ⟨rfl, rfl, afterWrite_reg_same hwf addr value, rfl⟩
  · rw [memWrite_of_fails value ha hfails]
    dsimp only
    exact ⟨rfl, rfl, busWr_reg_of_fails hwf addr value hfails, by simp [busWr_trace]⟩

/-- Settles O13: a failed read ends the update; otherwise it is a write of the masked byte from `updateRead`. -/
theorem updReadsThenWritesTheMaskedByte : Obligations.UpdReadsThenWritesTheMaskedByte := by
  intro s addr mask value hwf ha
  have heffect := memUpdate_effect mask value (List.mem_singleton_self addr) s
  refine ⟨_, exec_upd addr mask value s, heffect.block.responded _ _, idle_responded _ _ _,
    fun b hb => heffect.others b (mt List.mem_singleton.mp hb), fun hdrawn => ?_, fun b hdrawn => ?_⟩
  · rw [memUpdate_of_not_drawn mask value ha hdrawn]
    dsimp only
    exact ⟨rfl, rfl, rfl, rfl, rfl⟩
  · rw [memUpdate_of_drawn mask value ha hdrawn]
    refine ⟨memWrite_tmp _ _ _, fun hfails => ?_, fun hfails => ?_⟩
    · rw [memWrite_of_succeeds (s := updateRead addr b s) _ ha hfails]
      dsimp only
      exact ⟨rfl, rfl, afterWrite_reg_same (s := updateRead addr b s) hwf addr _, List.append_assoc _ _ _⟩
    · rw [memWrite_of_fails (s := updateRead addr b s) _ ha hfails]
      dsimp only
      exact ⟨rfl, rfl, busWr_reg_of_fails (s := updateRead addr b s) hwf addr _ hfails,
        by simp [busWr_trace, maskedByte]⟩

end Sys2Proof.Machine

/-! ### ChipController (O14, O15, O17 to O19, O21, O53, O54)

The bits of a masked byte; then STAT, SETCH, GETCH and SHUTDOWN, the sequence of an INIT in which nothing fails, and
what every sequence keeps whatever fails: the sleep-disable comes first, and the sleep bit stays clear. -/

namespace Sys2Proof.Machine

/-! #### The bits of a masked byte (R9, R101, R102) -/

/-- Any bits of a masked byte: the old ones outside the mask, the new ones under it. -/
theorem maskedByte_and (old mask new bits : Byte) :
    maskedByte old mask new &&& bits = (old &&& bits &&& ~~~mask) ||| (new &&& mask &&& bits) := by
  rw [maskedByte, BitVec.and_or_distrib_right, BitVec.and_assoc, BitVec.and_comm (~~~mask), ← BitVec.and_assoc]

/-- Under its mask a masked update leaves the new value. -/
theorem maskedByte_and_mask (old mask new : Byte) : maskedByte old mask new &&& mask = new &&& mask := by
  rw [maskedByte_and, BitVec.and_assoc old, BitVec.and_not_self, BitVec.and_assoc new, BitVec.and_self]
  simp

/-- Bits that share none with a mask survive its complement. -/
theorem and_not_of_disjoint {bits mask : Byte} (h : bits &&& mask = 0) : bits &&& ~~~mask = bits := by
  have hsplit : bits &&& (mask ||| ~~~mask) = bits &&& ~~~mask := by rw [BitVec.and_or_distrib_left, h]; simp
  rw [← hsplit, BitVec.or_not_self, BitVec.and_allOnes]

/-- Bits outside the mask stay. -/
theorem maskedByte_and_of_disjoint {mask bits : Byte} (h : bits &&& mask = 0) (old new : Byte) :
    maskedByte old mask new &&& bits = old &&& bits := by
  rw [maskedByte_and, BitVec.and_assoc old, and_not_of_disjoint h, BitVec.and_assoc new, BitVec.and_comm mask, h]
  simp

/-- Bits that are clear before and not set by the value written are clear after. -/
theorem maskedByte_and_eq_zero {old mask new bits : Byte} (hold : old &&& bits = 0) (hnew : new &&& mask &&& bits = 0) :
    maskedByte old mask new &&& bits = 0 := by
  rw [maskedByte_and, hold, hnew]
  simp

/-- The sleep-disable's masked byte. -/
theorem awake_eq_maskedByte (ctrl : Byte) : awake ctrl = maskedByte ctrl M_SLEEP V_SLEEP_OFF := by
  simp [awake, maskedByte, M_SLEEP, V_SLEEP_OFF]

theorem enableValue_and_mask (mask brt : Byte) : enableValue mask brt &&& mask = if 4 ≤ brt then mask else 0 := by
  unfold enableValue BRT_ON
  split <;> simp

/-- The enable update's masked byte. -/
theorem ctrlAfterSet_eq_maskedByte (c : Config) (ch : Channel) (brt ctrl : Byte) :
    ctrlAfterSet c ch brt ctrl = maskedByte (awake ctrl) (enMask c ch) (enableValue (enMask c ch) brt) := by
  rw [ctrlAfterSet, maskedByte, enableValue_and_mask]

theorem awake_and_sleep (ctrl : Byte) : awake ctrl &&& 0x80 = 0 := by
  rw [awake_eq_maskedByte]
  exact maskedByte_and_mask ctrl M_SLEEP V_SLEEP_OFF

theorem awake_and_of_disjoint {bits : Byte} (h : bits &&& 0x80 = 0) (ctrl : Byte) :
    awake ctrl &&& bits = ctrl &&& bits := by
  rw [awake_eq_maskedByte]
  exact maskedByte_and_of_disjoint (mask := M_SLEEP) h ctrl V_SLEEP_OFF

/-! #### STAT (R107) -/

theorem statByte_bits (s : State) :
    (statByte s).getLsbD 0 = s.attached ∧ (statByte s).getLsbD 2 = s.railEn ∧ (statByte s).extractLsb' 3 5 = 0 := by
  unfold statByte
  cases s.railEn <;> cases s.errlog <;> cases s.attached <;> decide

/-- Settles O14: the response is `statByte`'s, whose bits are the flags. -/
theorem statReportsTheFlags : Obligations.StatReportsTheFlags := by
  refine ⟨fun s => ?_, fun s hattached hrail herrlog => ?_, rfl⟩
  · obtain ⟨h0, h2, h3⟩ := statByte_bits s
    exact ⟨statByte s, rfl, h0, statByte_errlog s, h2, h3⟩
  · have hbyte : statByte s = 0x05 := by rw [statByte, hattached, hrail, herrlog]; rfl
    show Host.Outcome.next (rejected s (0x00#8 ++ statByte s)) = _
    rw [hbyte]
    rfl

/-! #### SETCH and GETCH in which nothing fails (R101 to R105) -/

/-- Settles O17: an unfailed SETCH is `afterSet` and its response. -/
theorem setchDrivesTheChannel : Obligations.SetchDrivesTheChannel := by
  intro s ch brt cur hfree hwf hs
  exact ⟨_, exec_setch_faultFree ch brt cur hfree hs, rfl, channelDriven_afterSet hfree hwf ch brt cur .ok 0x00⟩

/-- Of the enable masks of two channels no bit is shared. -/
theorem MeetsConstraints.enMask_disjoint {c : Config} (h : MeetsConstraints c) {d ch : Channel} (hne : d ≠ ch) :
    enMask c d &&& enMask c ch = 0 := by
  cases d <;> cases ch
  · exact absurd rfl hne
  · exact h.enableDisjoint
  · exact (BitVec.and_comm _ _).trans h.enableDisjoint
  · exact absurd rfl hne

/-- Settles O18: the control register is a byte masked twice, under the sleep bit and under the channel's enable mask,
which share no bit with each other or with the other channel's. -/
theorem setchSetsOrClearsTheEnableBit : Obligations.SetchSetsOrClearsTheEnableBit := by
  intro s t ch brt cur hfree hwf hcfg hs hset
  have hmasks := (wf_iff_meetsConstraints s.cfg).mp hcfg
  obtain ⟨u, hu, -, hdriven⟩ := setchDrivesTheChannel s ch brt cur hfree hwf hs
  obtain rfl : u = t := Host.Outcome.next.inj (hu.symm.trans hset)
  rw [hdriven.control, ctrlAfterSet_eq_maskedByte, maskedByte_and_mask, enableValue_and_mask]
  refine ⟨fun hon => if_pos hon, fun hoff => if_neg (BitVec.not_le.mpr hoff), ?_, fun d hd => ?_⟩
  · have hsleep : (0x80 : Byte) &&& enMask s.cfg ch = 0 := (BitVec.and_comm _ _).trans (hmasks.enableAwake ch)
    rw [maskedByte_and_of_disjoint hsleep, awake_and_sleep]
  · rw [maskedByte_and_of_disjoint (hmasks.enMask_disjoint hd), awake_and_of_disjoint (hmasks.enableAwake d)]

/-- Settles O19: the sleep-disable, whose one write is the control register's, then a read of another register. -/
theorem getchReadsTheBrightness : Obligations.GetchReadsTheBrightness := by
  intro s ch hfree hwf hs
  have hne : brtAddr ch ≠ 0 := by cases ch <;> decide
  have hwrote := (wrote_refl hfree hwf).sleep.read (a := brtAddr ch)
  rw [if_neg hne] at hwrote
  refine ⟨_, exec_getch_faultFree ch hfree hwf hs, statusOf_responded _ _ _, valueOf_responded _ _ _,
    hwrote.block.responded _ _, idle_responded _ _ _, hwrote.errlog, ?_, fun a ha => ?_, hwrote.trace⟩
  · exact (hwrote.reg 0).trans (if_pos rfl)
  · exact (hwrote.reg a).trans (if_neg ha)

/-! #### SHUTDOWN (R106) -/

/-- The register of a write that succeeded. -/
theorem memWrite_reg_of_ok {s : State} (hwf : Memory.wf s.chip = true) {a v : Byte} (ha : a ≤ ADDR_MAX)
    (hok : (memWrite a v s).1 = .ok) : (memWrite a v s).2.reg a = v := by
  rcases memWrite_drawn v ha s with ⟨-, h⟩ | ⟨-, -, h⟩ | ⟨-, -, h⟩ <;> rw [h] at hok ⊢
  · exact afterWrite_reg_same hwf a v
  · cases hok
  · cases hok

/-- Whatever the transport does, a write leaves the new value or the old one. -/
theorem memWrite_reg_cases {s : State} (hwf : Memory.wf s.chip = true) {a : Byte} (v : Byte) (ha : a ≤ ADDR_MAX) :
    (memWrite a v s).2.reg a = v ∨ (memWrite a v s).2.reg a = s.reg a := by
  rcases memWrite_drawn v ha s with ⟨-, h⟩ | ⟨-, -, h⟩ | ⟨-, -, h⟩ <;> rw [h]
  · exact .inl (afterWrite_reg_same hwf a v)
  · exact .inl (State.setReg_reg_same (s := s.useAnswer) hwf a v)
  · exact .inr rfl

theorem memWrite_reg_ne {a b : Byte} (v : Byte) (hne : b ≠ a) (s : State) : (memWrite a v s).2.reg b = s.reg b :=
  (memWrite_effect v (List.mem_singleton_self a) s).others b (mt List.mem_singleton.mp hne)

/-- The state after SHUTDOWN's write of brightness A. -/
def shutdownA (s : State) : State := (memWrite 0x03 0x00 s).2

/-- The state after its write of brightness B, attempted whatever the first did. -/
def shutdownB (s : State) : State := (memWrite 0x04 0x00 (shutdownA s)).2

theorem shutdownSteps_snd (s : State) : (aggregateSeq shutdownSteps s).2 = shutdownB s := by
  rw [shutdownSteps, (aggregateSeq_cons _ _ _).1, (aggregateSeq_cons _ _ _).1]
  rfl

theorem exec_shutdown {s : State} (hs : s.attached = true) :
    exec .shutdown s = .next (((shutdownB s).setAttached false).responded .ok 0x00) := by
  rw [← shutdownSteps_snd]
  exact whenAttached_of hs

theorem shutdownB_trace (s : State) : (shutdownB s).trace = s.trace ++
    [Event.wr 0x03 0x00 (memWrite 0x03 0x00 s).1, Event.wr 0x04 0x00 (memWrite 0x04 0x00 (shutdownA s)).1] := by
  have hA : (shutdownA s).trace = _ := (ran_write (a := 0x03) 0x00 (by decide) s).trace
  have hB : (shutdownB s).trace = _ := (ran_write (a := 0x04) 0x00 (by decide) (shutdownA s)).trace
  rw [hB, hA, List.append_assoc]
  rfl

theorem Event.failed_wr (a v : Byte) (r : BusResult) : (Event.wr a v r).failed = true ↔ r = .fail := by
  cases r <;> simp [Event.failed]

theorem shutdownB_errlog (s : State) : (shutdownB s).errlog = true ↔ s.errlog = true ∨
    (memWrite 0x03 0x00 s).1 = .fail ∨ (memWrite 0x04 0x00 (shutdownA s)).1 = .fail := by
  obtain ⟨es, hes, herr⟩ := shutdownSteps_logged s
  rw [shutdownSteps_snd] at hes herr
  rw [shutdownB_trace] at hes
  rw [herr, ← List.append_cancel_left hes]
  simp [Event.failed_wr]

/-- Settles O21: two writes by their results, each of its own register, and what no bus sequence writes. -/
theorem shutdownAttemptsBothWritesAndDetaches : Obligations.ShutdownAttemptsBothWritesAndDetaches := by
  intro s hwf hs
  have hwfA : Memory.wf (shutdownA s).chip = true :=
    (memWrite_effect (W := [0x03]) 0x00 (by simp) s).chip_wf hwf
  have heffect := shutdown_effect s
  rw [shutdownSteps_snd] at heffect
  have hblock := heffect.block
  have hA : (shutdownB s).reg 0x03 = (shutdownA s).reg 0x03 := memWrite_reg_ne 0x00 (by decide) (shutdownA s)
  have hB : (shutdownA s).reg 0x04 = s.reg 0x04 := memWrite_reg_ne 0x00 (by decide) s
  refine ⟨_, _, _, exec_shutdown hs, rfl, rfl, idle_responded _ _ _, shutdownB_trace s, fun hok => ?_, fun hok => ?_,
    ?_, ?_, fun a hneA hneB => ?_, shutdownB_errlog s, hblock.railEn, hblock.tblIdx, hblock.lastPct, ?_, hblock.cfg,
    hblock.cmd, hblock.port⟩
  · exact hA.trans (memWrite_reg_of_ok hwf (by decide) hok)
  · exact memWrite_reg_of_ok hwfA (by decide) hok
  · show (shutdownB s).reg 0x03 = 0 ∨ (shutdownB s).reg 0x03 = s.reg 0x03
    rw [hA]
    exact memWrite_reg_cases hwf 0x00 (by decide)
  · rw [← hB]
    exact memWrite_reg_cases hwfA 0x00 (by decide)
  · exact (memWrite_reg_ne 0x00 hneB (shutdownA s)).trans (memWrite_reg_ne 0x00 hneA s)
  · exact (memWrite_tmp 0x04 0x00 (shutdownA s)).trans (memWrite_tmp 0x03 0x00 s)

/-! #### INIT in which nothing fails (R100) -/

/-- An unfailed masked update of a register from `old` to `new`. -/
theorem Wrote.updateTo {s t : State} {f : Byte → Byte} {es : List Event} (h : Wrote s t f es) {a old mask v new : Byte}
    (hold : f a = old) (hnew : maskedByte old mask v = new) (ha : a ≤ ADDR_MAX) :
    Wrote s (afterUpdate a mask v t) (fun b => if b = a then new else f b)
      (es ++ [Event.rd a (.ok old), Event.wr a new .ok]) := by
  subst hold hnew
  exact h.update ha

theorem maskedByte_pwmMode (s : State) : maskedByte (s.reg A_CONFIG) M_PWM s.cfg.pwmMode = initConfig s := rfl

theorem maskedByte_ledaMode (s : State) : maskedByte (s.reg A_CTRL) s.cfg.mLeda s.cfg.ledaMode = initCtrlA s := rfl

theorem maskedByte_ledbMode (s : State) : maskedByte (initCtrlA s) s.cfg.mLedb s.cfg.ledbMode = initCtrlB s := rfl

theorem settle_eq (k : DelayKind) (s : State) : settle k s = (.ok, (settle k s).2) := rfl

/-- The registers an INIT leaves in which nothing failed, from those it found; the last written first. -/
def registersAfterInit (s : State) (a : Byte) : Byte :=
  if a = A_BRT_B then s.cfg.initBrt.b
  else if a = A_BRT_A then s.cfg.initBrt.a
  else if a = A_CTRL then initCtrlB s
  else if a = A_CUR_B then 0
  else if a = A_CUR_A then 0
  else if a = A_BOOST then s.cfg.vBoost
  else if a = A_CONFIG then initConfig s
  else if a = s.cfg.aFilter then s.cfg.vFilter
  else s.reg a

/-- The filter register is none that R6 names. -/
theorem MeetsConstraints.ne_aFilter {c : Config} (h : MeetsConstraints c) {a : Byte} (ha : a ∈ namedAddresses) :
    a ≠ c.aFilter := fun heq => h.filter (heq ▸ ha)

/-- INIT's steps in their order, each from the state that the one before it left, over the registers of `s`. -/
theorem initSteps_faultFree {s t : State} (h0 : Wrote t t s.reg []) (hc : MeetsConstraints s.cfg)
    (ha : s.cfg.aFilter ≤ ADDR_MAX) :
    ∃ u, aggregateSeq (initSteps s.cfg) t = (.ok, u) ∧ Wrote t u (registersAfterInit s) ((initEvents s).drop 2) := by
  have hconfig : A_CONFIG ≠ s.cfg.aFilter := hc.ne_aFilter (by decide)
  have hctrl : A_CTRL ≠ s.cfg.aFilter := hc.ne_aFilter (by decide)
  have h1 := h0.write (v := s.cfg.vFilter) ha
  have h2 := h1.updateTo (if_neg hconfig) (maskedByte_pwmMode s) (by decide)
  have h3 := h2.write (a := A_BOOST) (v := s.cfg.vBoost) (by decide)
  have h4 := h3.write (a := A_CUR_A) (v := 0x00) (by decide)
  have h5 := h4.write (a := A_CUR_B) (v := 0x00) (by decide)
  have h6 := h5.updateTo (a := A_CTRL) (if_neg hctrl) (maskedByte_ledaMode s) A_CTRL_le
  have h7 := h6.updateTo (a := A_CTRL) (if_pos rfl) (maskedByte_ledbMode s) A_CTRL_le
  have h8 := h7.delay (k := .init)
  have h9 := h8.write (a := A_BRT_A) (v := s.cfg.initBrt.a) (by decide)
  have h10 := h9.write (a := A_BRT_B) (v := s.cfg.initBrt.b) (by decide)
  refine ⟨_, ?_, h10.wf, fun a => (h10.reg a).trans ?_, h10.trace, h10.errlog, h10.block, h10.free⟩
  · unfold initSteps
    rw [aggregateSeq_cons_ok (memWrite_faultFree _ h0.free ha),
      aggregateSeq_cons_ok (memUpdate_faultFree _ _ h1.free (by decide)),
      aggregateSeq_cons_ok (memWrite_faultFree _ h2.free (by decide)),
      aggregateSeq_cons_ok (memWrite_faultFree _ h3.free (by decide)),
      aggregateSeq_cons_ok (memWrite_faultFree _ h4.free (by decide)),
      aggregateSeq_cons_ok (memUpdate_faultFree _ _ h5.free A_CTRL_le),
      aggregateSeq_cons_ok (memUpdate_faultFree _ _ h6.free A_CTRL_le),
      aggregateSeq_cons_ok (settle_eq .init _),
      aggregateSeq_cons_ok (memWrite_faultFree _ h8.free (by decide)),
      aggregateSeq_cons_ok (memWrite_faultFree _ h9.free (by decide))]
    rfl
  · by_cases ha : a = A_CTRL
    · simp only [registersAfterInit, if_pos ha]
    · simp only [registersAfterInit, if_neg ha]

/-- A detached INIT whose steps all end well attaches. -/
theorem exec_init_of_ok {s u : State} (hs : s.attached = false)
    (hrun : aggregateSeq (initSteps s.cfg) (initStart s) = (.ok, u)) :
    exec .init s = .next ((u.setAttached true).responded .ok 0x00) := by
  rcases exec_init_cases s hs with ⟨-, h⟩ | ⟨hfail, -⟩
  · rw [h, hrun]
  · rw [hrun] at hfail; cases hfail

/-! The start of INIT sets the rail and the blender's registers, and emits two events. -/

theorem initStart_eq (s : State) :
    initStart s = ((((s.setTblIdx 0).setLastPct 0).enableRail).emit (.delay .rail)).tick := rfl

@[simp] theorem initStart_cfg (s : State) : (initStart s).cfg = s.cfg := by simp [initStart_eq]
@[simp] theorem initStart_cmd (s : State) : (initStart s).cmd = s.cmd := by simp [initStart_eq]
@[simp] theorem initStart_errlog (s : State) : (initStart s).errlog = s.errlog := by simp [initStart_eq]
@[simp] theorem initStart_railEn (s : State) : (initStart s).railEn = true := by simp [initStart_eq]
@[simp] theorem initStart_tblIdx (s : State) : (initStart s).tblIdx = 0 := by simp [initStart_eq]
@[simp] theorem initStart_lastPct (s : State) : (initStart s).lastPct = 0 := by simp [initStart_eq]
@[simp] theorem initStart_chip (s : State) : (initStart s).chip = s.chip := by simp [initStart_eq]
@[simp] theorem initStart_port (s : State) : (initStart s).port = s.port := by simp [initStart_eq]
@[simp] theorem initStart_answers (s : State) : (initStart s).answers = s.answers := by simp [initStart_eq]
@[simp] theorem initStart_answerRest (s : State) : (initStart s).answerRest = s.answerRest := by simp [initStart_eq]
@[simp] theorem initStart_reg (s : State) (a : Byte) : (initStart s).reg a = s.reg a := by simp [initStart_eq]

theorem initStart_trace (s : State) : (initStart s).trace = s.trace ++ (initEvents s).take 2 := by
  simp [initStart_eq, initEvents]

/-- INIT writes the filter register, and no other above the brightness and current registers. -/
theorem registersAfterInit_above {s : State} {a : Byte} (h : 0x06 < a) :
    registersAfterInit s a = if a = s.cfg.aFilter then s.cfg.vFilter else s.reg a := by
  have hne : ∀ b : Byte, b ≤ 0x06 → a ≠ b := fun b hb heq => BitVec.not_lt.mpr hb (heq ▸ h)
  rw [registersAfterInit, if_neg (hne A_BRT_B (by decide)), if_neg (hne A_BRT_A (by decide)),
    if_neg (hne A_CTRL (by decide)), if_neg (hne A_CUR_B (by decide)), if_neg (hne A_CUR_A (by decide)),
    if_neg (hne A_BOOST (by decide)), if_neg (hne A_CONFIG (by decide))]

theorem MeetsConstraints.lt_aFilter {c : Config} (h : MeetsConstraints c) : 0x06 < c.aFilter := by
  have hnamed : ∀ a : Byte, a ∉ namedAddresses → 0x06 < a := by decide
  exact hnamed _ h.filter

theorem initStart_wrote {s : State} (hfree : FaultFree s) (hwf : Memory.wf s.chip = true) :
    Wrote (initStart s) (initStart s) s.reg [] := by
  refine ⟨?_, initStart_reg s, (List.append_nil _).symm, Eq.refl (initStart s).errlog, .refl (initStart s), ?_⟩
  · rwa [initStart_chip]
  · exact hfree.congr (initStart_answers s) (initStart_answerRest s)

/-- Settles O15: the start of INIT writes no register, and its steps leave `registersAfterInit`. -/
theorem initWithoutFailureAttaches : Obligations.InitWithoutFailureAttaches := by
  intro s hfree hcfg hwf hs ha
  have hc := (wf_iff_meetsConstraints s.cfg).mp hcfg
  obtain ⟨u, hrun, hwrote⟩ := initSteps_faultFree (initStart_wrote hfree hwf) hc ha
  have htrace : u.trace = s.trace ++ initEvents s := by
    rw [hwrote.trace, initStart_trace, List.append_assoc, List.take_append_drop]
  refine ⟨_, exec_init_of_ok hs hrun, ?_⟩
  refine ⟨rfl, idle_responded _ _ _, rfl, ?_, ?_, ?_, ?_, ?_, ?_, ?_, ?_, hwrote.reg 0x01, hwrote.reg 0x02,
    hwrote.reg 0x05, hwrote.reg 0x06, hwrote.reg 0x00, hwrote.reg 0x03, hwrote.reg 0x04, fun a hne habove => ?_, htrace⟩
  · exact hwrote.block.railEn.trans (initStart_railEn s)
  · exact hwrote.block.tblIdx.trans (initStart_tblIdx s)
  · exact hwrote.block.lastPct.trans (initStart_lastPct s)
  · exact hwrote.errlog.trans (initStart_errlog s)
  · exact hwrote.block.cfg.trans (initStart_cfg s)
  · exact hwrote.block.cmd.trans (initStart_cmd s)
  · exact hwrote.block.port.trans (initStart_port s)
  · exact (hwrote.reg _).trans ((registersAfterInit_above hc.lt_aFilter).trans (if_pos rfl))
  · exact (hwrote.reg a).trans ((registersAfterInit_above habove).trans (if_neg hne))

/-! #### The sleep-disable comes first (R101) -/

/-- The sleep-disable's events: its masked update, and the settle delay if that ended well. -/
theorem sleepOff_cases (s : State) :
    (∃ t : State, sleepOff s = (.fail, t) ∧ (t.trace = s.trace ++ [Event.rd 0x00 .fail] ∨
      ∃ b, t.trace = s.trace ++ [Event.rd 0x00 (.ok b), Event.wr 0x00 (awake b) .fail])) ∨
    (∃ (t : State) (b : Byte), sleepOff s = (.ok, t) ∧
      t.trace = s.trace ++ [Event.rd 0x00 (.ok b), Event.wr 0x00 (awake b) .ok, Event.delay .sleep]) := by
  obtain ⟨es, hran, hevents, hok⟩ := ran_update M_SLEEP V_SLEEP_OFF A_CTRL_le s
  have htrace := hran.trace
  unfold sleepOff
  rcases hupdate : memUpdate A_CTRL M_SLEEP V_SLEEP_OFF s with ⟨_ | _, t⟩ <;> rw [hupdate] at hok htrace
  · have hgood : ∀ e ∈ es, e.failed = false := hok.mp rfl
    rw [abortSeq_cons_ok hupdate]
    rcases hevents with rfl | ⟨b, _ | _, rfl⟩
    · simp [Event.failed] at hgood
    · refine .inr ⟨_, b, rfl, ?_⟩
      show t.trace ++ [Event.delay .sleep] = _
      rw [htrace, List.append_assoc, ← awake_eq_maskedByte]
      rfl
    · simp [Event.failed] at hgood
  · have hbad : ¬ ∀ e ∈ es, e.failed = false := fun h => nomatch hok.mpr h
    refine .inl ⟨t, abortSeq_cons_fail hupdate, ?_⟩
    rcases hevents with rfl | ⟨b, _ | _, rfl⟩
    · exact .inl htrace
    · simp [Event.failed] at hbad
    · refine .inr ⟨b, ?_⟩
      rw [awake_eq_maskedByte]
      exact htrace

/-- What follows the sleep-disable in a setChannelBrightness (R102). -/
def channelSteps (c : Config) (ch : Channel) (brt cur : Byte) : List Step :=
  [memWrite (brtAddr ch) brt] ++ (if cur < CUR_KEEP then [memUpdate (curAddr ch) M_CUR cur] else []) ++
    [memUpdate A_CTRL (enMask c ch) (enableValue (enMask c ch) brt)]

theorem setChannelBrightness_eq (ch : Channel) (brt cur : Byte) (s : State) :
    setChannelBrightness ch brt cur s = abortSeq (sleepOff :: channelSteps s.cfg ch brt cur) s := rfl

/-- A property of the three accesses is one of each step. -/
theorem forall_channelSteps {P : Step → Prop} {c : Config} {ch : Channel} {brt cur : Byte}
    (hbrt : P (memWrite (brtAddr ch) brt)) (hcur : P (memUpdate (curAddr ch) M_CUR cur))
    (hen : P (memUpdate A_CTRL (enMask c ch) (enableValue (enMask c ch) brt))) :
    ∀ p ∈ channelSteps c ch brt cur, P p := by
  unfold channelSteps
  split <;> simp [hbrt, hcur, hen]

/-- Whatever follows the sleep-disable only adds events. -/
theorem channelSteps_trace (c : Config) (ch : Channel) (brt cur : Byte) (s : State) :
    ∃ es, (abortSeq (channelSteps c ch brt cur) s).2.trace = s.trace ++ es := by
  have hsteps : ∀ p ∈ channelSteps c ch brt cur, ∀ s, BusEffect [A_CTRL, brtAddr ch, curAddr ch] s (p s).2 :=
    forall_channelSteps (memWrite_effect _ (by simp)) (memUpdate_effect _ _ (by simp)) (memUpdate_effect _ _ (by simp))
  obtain ⟨es, hes, -⟩ := (abortSeq_effect hsteps s).trace
  exact ⟨es, hes⟩

/-- Settles O53: each procedure is the sleep-disable, which ends it on failure, and what follows. -/
theorem sleepDisableSettlesBeforeTheNextAccess : Obligations.SleepDisableSettlesBeforeTheNextAccess := by
  intro s ch brt cur t ht
  rcases sleepOff_cases s with ⟨u, hsleep, hevents⟩ | ⟨u, b, hsleep, hevents⟩
  · have hset : (setChannelBrightness ch brt cur s).2 = u := by
      rw [setChannelBrightness_eq, abortSeq_cons_fail hsleep]
    have hget : (getChannelBrightness ch s).2 = u := by rw [getChannelBrightness, hsleep]
    obtain rfl : t = u := by simpa [hset, hget] using ht
    exact hevents.elim .inl fun h => .inr (.inl h)
  · have hrest : ∃ es, t.trace = u.trace ++ es := by
      rw [getChannelBrightness, hsleep, setChannelBrightness_eq, abortSeq_cons_ok hsleep] at ht
      rcases List.mem_pair.mp ht with rfl | rfl
      · exact channelSteps_trace s.cfg ch brt cur u
      · obtain ⟨es, hes, -⟩ := (memRead_effect [] (brtAddr ch) u).trace
        exact ⟨es, hes⟩
    obtain ⟨es, hes⟩ := hrest
    exact .inr (.inr ⟨b, es, by rw [hes, hevents, List.append_assoc]; rfl⟩)

/-! #### The sleep bit stays clear (R101, R176) -/

/-- The sleep bit is clear, the configuration and the store are well-formed, and the reference target answers reads. -/
structure AwakeTarget (s : State) : Prop where
  cfg : s.cfg.wf = true
  chip : Memory.wf s.chip = true
  plain : PlainTarget s
  sleep : s.reg A_CTRL &&& M_SLEEP = 0

/-- The part leaves an awake target awake, whatever fails. -/
def KeepsAwake {α : Type} (p : State → α × State) : Prop := ∀ s, AwakeTarget s → AwakeTarget (p s).2

theorem AwakeTarget.congr {s t : State} (h : AwakeTarget s) (hcfg : t.cfg = s.cfg) (hchip : t.chip = s.chip)
    (hanswers : t.answers = s.answers) (hrest : t.answerRest = s.answerRest) : AwakeTarget t := by
  obtain ⟨cfg, chip, ⟨plain, plainRest⟩, sleep⟩ := h
  refine ⟨hcfg ▸ cfg, hchip ▸ chip, ⟨hanswers ▸ plain, hrest ▸ plainRest⟩, ?_⟩
  rw [State.reg, hchip]
  exact sleep

theorem PlainTarget.nextAnswer {s : State} (h : PlainTarget s) : s.nextAnswer.status = none := by
  obtain ⟨hanswers, hrest⟩ := h
  unfold State.nextAnswer
  cases hs : s.answers with
  | nil => exact hrest
  | cons x xs => exact hanswers x (by simp [hs])

/-- A part takes its draws off the front. -/
theorem Cuttable.plainTarget {α : Type} {p : State → α × State} (hp : Cuttable p) {s : State} (h : PlainTarget s) :
    PlainTarget (p s).2 := by
  obtain ⟨es, hrun⟩ := hp.run s
  obtain ⟨hanswers, hrest⟩ := h
  refine ⟨fun x hx => hanswers x ?_, hrun.answerRest ▸ hrest⟩
  rw [hrun.answers] at hx
  exact List.mem_of_mem_drop hx

/-- A bus operation that keeps the control register's sleep bit clear keeps the target awake. -/
theorem keepsAwake_of_sleep {α : Type} {W : List Byte} {p : State → α × State} (hcut : Cuttable p)
    (heffect : ∀ s, BusEffect W s (p s).2)
    (hsleep : ∀ s, AwakeTarget s → (p s).2.reg A_CTRL &&& M_SLEEP = 0) : KeepsAwake p := fun s h =>
  ⟨(congrArg Config.wf (heffect s).block.cfg).trans h.cfg, (heffect s).chip_wf h.chip, hcut.plainTarget h.plain,
    hsleep s h⟩

/-- One that does not write the control register. -/
theorem keepsAwake_of_not_mem {α : Type} {W : List Byte} {p : State → α × State} (hcut : Cuttable p)
    (heffect : ∀ s, BusEffect W s (p s).2) (hW : A_CTRL ∉ W) : KeepsAwake p :=
  keepsAwake_of_sleep hcut heffect fun s h => by rw [(heffect s).others A_CTRL hW]; exact h.sleep

theorem memRead_keepsAwake (a : Byte) : KeepsAwake (memRead a) :=
  keepsAwake_of_not_mem (memRead_cuttable a) (memRead_effect [] a) (by simp)

theorem settle_keepsAwake (k : DelayKind) : KeepsAwake (settle k) :=
  keepsAwake_of_not_mem (settle_cuttable k) (settle_effect [] k) (by simp)

theorem romRead_keepsAwake : KeepsAwake romRead :=
  keepsAwake_of_not_mem romRead_cuttable (romRead_effect []) (by simp)

theorem memWrite_keepsAwake {a : Byte} (v : Byte) (ha : A_CTRL ≠ a) : KeepsAwake (memWrite a v) :=
  keepsAwake_of_not_mem (memWrite_cuttable a v) (memWrite_effect v (List.mem_singleton_self a))
    (mt List.mem_singleton.mp ha)

/-- With the reference target a masked update leaves the masked byte of the register, or the register as it was. -/
theorem memUpdate_reg_cases {s : State} (hwf : Memory.wf s.chip = true) (hplain : PlainTarget s) {a : Byte}
    (mask v : Byte) (ha : a ≤ ADDR_MAX) :
    (memUpdate a mask v s).2.reg a = maskedByte (s.reg a) mask v ∨ (memUpdate a mask v s).2.reg a = s.reg a := by
  have hdrawn := drawnByte_target (s.reg a) hplain.nextAnswer
  split at hdrawn
  · rw [memUpdate_of_not_drawn mask v ha hdrawn]
    exact .inr rfl
  · rw [memUpdate_of_drawn mask v ha hdrawn]
    exact memWrite_reg_cases (s := updateRead a (s.reg a) s) hwf _ ha

/-- A masked update of any register but the control register, or of that one with a byte that is clear of the sleep bit
under the mask. -/
theorem memUpdate_keepsAwake {a mask v : Byte} (h : A_CTRL ≠ a ∨ v &&& mask &&& M_SLEEP = 0) :
    KeepsAwake (memUpdate a mask v) := by
  by_cases ha : A_CTRL = a
  · subst ha
    have hnew := h.resolve_left (· rfl)
    refine keepsAwake_of_sleep (memUpdate_cuttable _ _ _) (memUpdate_effect mask v (List.mem_singleton_self A_CTRL))
      fun s hs => ?_
    rcases memUpdate_reg_cases hs.chip hs.plain mask v A_CTRL_le with hreg | hreg <;> rw [hreg]
    · exact maskedByte_and_eq_zero hs.sleep hnew
    · exact hs.sleep
  · exact keepsAwake_of_not_mem (memUpdate_cuttable _ _ _) (memUpdate_effect mask v (List.mem_singleton_self a))
      (mt List.mem_singleton.mp ha)

/-- A mask clear of the sleep bit lets no byte through to it. -/
theorem and_mask_and_sleep {mask : Byte} (h : mask &&& M_SLEEP = 0) (v : Byte) : v &&& mask &&& M_SLEEP = 0 := by
  rw [BitVec.and_assoc, h]
  exact BitVec.and_zero

theorem abortSeq_keepsAwake {ps : List Step} (h : ∀ p ∈ ps, KeepsAwake p) : KeepsAwake (abortSeq ps) := by
  induction ps with
  | nil => exact fun _ hs => hs
  | cons p ps ih =>
    intro s hs
    have hp := h p (by simp) s hs
    rcases hps : p s with ⟨_ | _, t⟩ <;> rw [hps] at hp
    · rw [abortSeq_cons_ok hps]
      exact ih (fun q hq => h q (by simp [hq])) t hp
    · rw [abortSeq_cons_fail hps]
      exact hp

theorem aggregateSeq_keepsAwake {ps : List Step} (h : ∀ p ∈ ps, KeepsAwake p) : KeepsAwake (aggregateSeq ps) := by
  induction ps with
  | nil => exact fun _ hs => hs
  | cons p ps ih =>
    intro s hs
    rw [(aggregateSeq_cons p ps s).1]
    exact ih (fun q hq => h q (by simp [hq])) _ (h p (by simp) s hs)

theorem sleepOff_keepsAwake : KeepsAwake sleepOff := by
  refine abortSeq_keepsAwake fun p hp => ?_
  rcases List.mem_pair.mp hp with rfl | rfl
  · exact memUpdate_keepsAwake (.inr (by decide))
  · exact settle_keepsAwake _

theorem A_CTRL_ne_brtAddr (ch : Channel) : A_CTRL ≠ brtAddr ch := by cases ch <;> decide
theorem A_CTRL_ne_curAddr (ch : Channel) : A_CTRL ≠ curAddr ch := by cases ch <;> decide

/-- R7: no enable mask of the configuration holds the sleep bit. -/
theorem AwakeTarget.enMask_and_sleep {s : State} (h : AwakeTarget s) (ch : Channel) : enMask s.cfg ch &&& M_SLEEP = 0 :=
  ((wf_iff_meetsConstraints s.cfg).mp h.cfg).enableAwake ch

theorem setChannelBrightness_keepsAwake (ch : Channel) (brt cur : Byte) :
    KeepsAwake (setChannelBrightness ch brt cur) := by
  intro s hs
  rw [setChannelBrightness_eq]
  refine abortSeq_keepsAwake (List.forall_mem_cons.mpr ⟨sleepOff_keepsAwake, forall_channelSteps ?_ ?_ ?_⟩) s hs
  · exact memWrite_keepsAwake brt (A_CTRL_ne_brtAddr ch)
  · exact memUpdate_keepsAwake (.inl (A_CTRL_ne_curAddr ch))
  · exact memUpdate_keepsAwake (.inr (and_mask_and_sleep (hs.enMask_and_sleep ch) _))

theorem getChannelBrightness_keepsAwake (ch : Channel) : KeepsAwake (getChannelBrightness ch) := by
  intro s hs
  have hsleep := sleepOff_keepsAwake s hs
  unfold getChannelBrightness
  rcases hps : sleepOff s with ⟨_ | _, t⟩ <;> rw [hps] at hsleep
  · exact memRead_keepsAwake (brtAddr ch) t hsleep
  · exact hsleep

theorem fullOff_keepsAwake : KeepsAwake (abortSeq fullOffSteps) :=
  abortSeq_keepsAwake fun p hp => by
    rcases List.mem_pair.mp hp with rfl | rfl <;> exact setChannelBrightness_keepsAwake _ _ _

theorem blend_keepsAwake {c : Config} (hmask : enMaskBoth c &&& M_SLEEP = 0) (tblIdx pct : Byte) :
    KeepsAwake (abortSeq (blendSteps c tblIdx pct)) := by
  refine abortSeq_keepsAwake fun p hp => ?_
  simp only [blendSteps, List.mem_cons, List.not_mem_nil, or_false] at hp
  rcases hp with rfl | rfl | rfl | rfl | rfl
  · exact romRead_keepsAwake
  · exact romRead_keepsAwake
  · exact setChannelBrightness_keepsAwake _ _ _
  · exact setChannelBrightness_keepsAwake _ _ _
  · exact memUpdate_keepsAwake (.inr (and_mask_and_sleep hmask _))

theorem AwakeTarget.enMaskBoth_and_sleep {s : State} (h : AwakeTarget s) : enMaskBoth s.cfg &&& M_SLEEP = 0 := by
  have hA : s.cfg.mEn.a &&& M_SLEEP = 0 := h.enMask_and_sleep .A
  have hB : s.cfg.mEn.b &&& M_SLEEP = 0 := h.enMask_and_sleep .B
  rw [Machine.enMaskBoth, BitVec.and_or_distrib_right, hA, hB]
  rfl

theorem applyPercentage_keepsAwake (pct : Byte) : KeepsAwake (applyPercentage pct) := by
  intro s hs
  have hset : AwakeTarget (s.setLastPct pct) := hs.congr rfl rfl rfl rfl
  unfold applyPercentage
  split
  · exact hs
  split
  · exact hs
  split
  · rw [applied_snd]
    exact fullOff_keepsAwake _ hset
  · rw [applied_snd]
    exact blend_keepsAwake hs.enMaskBoth_and_sleep s.tblIdx pct _ hset

/-- R7: INIT's two mode masks hold no sleep bit, and its filter register is not the control register. -/
theorem initSteps_keepsAwake {c : Config} (hc : MeetsConstraints c) : KeepsAwake (aggregateSeq (initSteps c)) := by
  refine aggregateSeq_keepsAwake fun p hp => ?_
  simp only [initSteps, List.mem_cons, List.not_mem_nil, or_false] at hp
  rcases hp with rfl | rfl | rfl | rfl | rfl | rfl | rfl | rfl | rfl | rfl
  · exact memWrite_keepsAwake _ (hc.ne_aFilter (by decide))
  · exact memUpdate_keepsAwake (.inl (by decide))
  · exact memWrite_keepsAwake _ (by decide)
  · exact memWrite_keepsAwake _ (by decide)
  · exact memWrite_keepsAwake _ (by decide)
  · exact memUpdate_keepsAwake (.inr (and_mask_and_sleep hc.modeAwakeA _))
  · exact memUpdate_keepsAwake (.inr (and_mask_and_sleep hc.modeAwakeB _))
  · exact settle_keepsAwake _
  · exact memWrite_keepsAwake _ (by decide)
  · exact memWrite_keepsAwake _ (by decide)

theorem shutdownSteps_keepsAwake : KeepsAwake (aggregateSeq shutdownSteps) :=
  aggregateSeq_keepsAwake fun p hp => by
    rcases List.mem_pair.mp hp with rfl | rfl <;> exact memWrite_keepsAwake _ (by decide)

theorem curveRead_keepsAwake {s : State} (h : AwakeTarget s) (pct : Byte) : AwakeTarget (curveRead pct s) := by
  unfold curveRead
  split
  · exact h
  · exact romRead_keepsAwake s h

theorem initStart_keepsAwake {s : State} (h : AwakeTarget s) : AwakeTarget (initStart s) :=
  h.congr (initStart_cfg s) (initStart_chip s) (initStart_answers s) (initStart_answerRest s)

/-- Every command but the raw writes. -/
theorem commandSequence_keepsAwake {i : Instr} (hi : rawWrite i = false) {s : State} (hs : AwakeTarget s) :
    AwakeTarget (commandSequence i s) := by
  cases i with
  | rd a => exact memRead_keepsAwake a s hs
  | wr a v => cases hi
  | upd a mask v => cases hi
  | init =>
    have hrun : AwakeTarget (aggregateSeq (initSteps s.cfg) (initStart s)).2 :=
      initSteps_keepsAwake ((wf_iff_meetsConstraints s.cfg).mp hs.cfg) _ (initStart_keepsAwake hs)
    rw [commandSequence_init]
    split
    · exact hrun.congr rfl rfl rfl rfl
    · exact hrun
  | setch ch brt cur => exact setChannelBrightness_keepsAwake ch brt cur s hs
  | getch ch => exact getChannelBrightness_keepsAwake ch s hs
  | shutdown => exact (shutdownSteps_keepsAwake s hs).congr rfl rfl rfl rfl
  | pct2raw ch pct => exact curveRead_keepsAwake hs pct
  | flsel idx =>
    rw [commandSequence_flsel]
    split
    · exact hs
    · exact applyPercentage_keepsAwake s.lastPct (s.setTblIdx idx) (hs.congr rfl rfl rfl rfl)
  | flapply pct => exact applyPercentage_keepsAwake pct s hs
  | blset ch brt =>
    rw [commandSequence_blset]
    split
    · exact hs
    · exact setChannelBrightness_keepsAwake ch brt _ s hs
  | blget ch => exact getChannelBrightness_keepsAwake ch s hs
  | vset pct => exact applyPercentage_keepsAwake pct s hs
  | blpct ch pct =>
    have hcurve := curveRead_keepsAwake hs pct
    rw [commandSequence_blpct]
    split
    · exact hcurve
    · exact setChannelBrightness_keepsAwake ch _ _ _ hcurve
  | stat => exact hs
  | flidx => exact hs
  | vget => exact hs

theorem beforeResponse_keepsAwake {i : Instr} (hi : rawWrite i = false) {s : State} (hs : AwakeTarget s) :
    AwakeTarget (beforeResponse i s) := by
  unfold beforeResponse
  split
  · exact commandSequence_keepsAwake hi hs
  · exact hs

/-- Settles O54: every operation but a raw write keeps `AwakeTarget`, and the response writes no register. -/
theorem noSequenceSetsTheSleepBit : Obligations.NoSequenceSetsTheSleepBit := by
  intro i s t hi hplain hwf hcfg hexec hsleep
  obtain ⟨st, v, rfl⟩ := eq_responded_of_exec hexec
  exact (beforeResponse_keepsAwake hi ⟨hcfg, hwf, hplain, hsleep⟩).sleep

end Sys2Proof.Machine

/-! ### The brightness curve (O22 to O24)

One lemma says which entry a percentage reads; the laws of 42_brightnesscurve.md R120 and R122 follow from it and from
what `MeetsConstraints` says of the tables. -/

namespace Sys2Proof.Machine

/-! #### The lookup (R120) -/

theorem curveEntry_eq_getElem (c : Config) (ch : Channel) {k : Nat} (hk : k < 77) :
    curveEntry c ch k = (pick c.curve ch)[k] := by
  simp [curveEntry, Vector.getD, hk]

@[simp] theorem percentToRaw_zero (c : Config) (ch : Channel) : percentToRaw c ch 0 = 0x00 := if_pos rfl

/-- The lookup and the clamp in one: a percentage reads the entry below it, 77 standing for all above. -/
theorem percentToRaw_eq_getElem (c : Config) (ch : Channel) {p : Byte} {k : Nat} (hk : k < 77)
    (hp : min p.toNat 77 = k + 1) : percentToRaw c ch p = (pick c.curve ch)[k] := by
  have hpos : p ≠ 0 := by
    rintro rfl
    simp at hp
  rw [percentToRaw, if_neg hpos, hp, Nat.add_sub_cancel, curveEntry_eq_getElem c ch hk]

/-- The clamp law: 77 and every percentage above it read the last entry. -/
theorem percentToRaw_clamp (c : Config) (ch : Channel) {p : Byte} (hp : 77 ≤ p) :
    percentToRaw c ch p = (pick c.curve ch)[76] :=
  percentToRaw_eq_getElem c ch (by decide) (Nat.min_eq_right (BitVec.le_def.mp hp))

/-- Settles O22: zero, the entry `percentToRaw_eq_getElem` names, and `percentToRaw_clamp` on both sides. -/
theorem percentToRawLooksUpAndClamps : Obligations.PercentToRawLooksUpAndClamps := by
  intro c ch p
  refine ⟨?zero, ?lookup, ?clamp⟩
  case zero =>
    rintro rfl
    exact percentToRaw_zero c ch
  case lookup =>
    intro k hk hp
    exact percentToRaw_eq_getElem c ch hk (by omega)
  case clamp =>
    intro hp
    have hlast := percentToRaw_clamp c ch (BitVec.le_of_lt hp)
    exact ⟨hlast.trans (percentToRaw_clamp c ch (BitVec.le_refl 77)).symm, hlast⟩

/-! #### The tables of a well-formed configuration (R122) -/

/-- R122 (b): from 1 on, a larger percentage reads the same entry or a later one. -/
theorem MeetsConstraints.percentToRaw_mono {c : Config} (h : MeetsConstraints c) (ch : Channel) {p q : Byte}
    (hp : 1 ≤ p) (hpq : p ≤ q) : percentToRaw c ch p ≤ percentToRaw c ch q := by
  have hp' : 1 ≤ p.toNat := BitVec.le_def.mp hp
  have hpq' : p.toNat ≤ q.toNat := BitVec.le_def.mp hpq
  rw [percentToRaw_eq_getElem c ch (p := p) (k := min p.toNat 77 - 1) (by omega) (by omega),
    percentToRaw_eq_getElem c ch (p := q) (k := min q.toNat 77 - 1) (by omega) (by omega)]
  exact h.curve ch _ _ (by omega) (by omega)

/-- R122 (e): the constraints speak of each curve alone, so one of each of two configurations may stand together. -/
theorem MeetsConstraints.exchangeCurve {c d : Config} (hc : MeetsConstraints c) (hd : MeetsConstraints d) :
    MeetsConstraints { c with curve := { a := c.curve.a, b := d.curve.b } } :=
  { hc with
    curve := fun
      | .A => hc.curve .A
      | .B => hd.curve .B }

/-- The fixture with its curve of channel B, which starts at 2, on both channels. -/
def lowCurves : Config := { cfgTest with curve := { a := cfgTest.curve.b, b := cfgTest.curve.b } }

theorem lowCurves_wf : lowCurves.wf = true := by decide +kernel

/-- R122 (f): on both channels 1 percent is below the on/off boundary. -/
theorem lowCurves_starts_below_on (ch : Channel) : (pick lowCurves.curve ch)[0] < BRT_ON := by
  cases ch <;> decide

/-- Settles O23: the curve laws follow from `MeetsConstraints`, and `lowCurves` starts below the boundary. -/
theorem curveIsMonotone : Obligations.CurveIsMonotone := by
  refine ⟨?laws, ?exchange, ?below⟩
  case laws =>
    intro c ch hwf
    have h := (wf_iff_meetsConstraints c).mp hwf
    refine ⟨h.curve ch, fun p q hp hpq => h.percentToRaw_mono ch hp hpq, ?fromZero, percentToRaw_zero c ch, ?clamp⟩
    case fromZero =>
      rw [percentToRaw_zero]
      exact BitVec.le_def.mpr (Nat.zero_le _)
    case clamp =>
      exact fun p hp => percentToRaw_clamp c ch (BitVec.le_trans (by decide) hp)
  case exchange =>
    intro c d hc hd
    simp only [wf_iff_meetsConstraints] at hc hd ⊢
    exact hc.exchangeCurve hd
  case below =>
    exact fun ch => ⟨lowCurves, lowCurves_wf, lowCurves_starts_below_on ch⟩

/-! #### PCT2RAW (R121) -/

/-- The ROM read moves the step index alone, which the response sets back. -/
theorem rejected_curveRead (pct : Byte) (s : State) (response : ResponseWord) :
    rejected (curveRead pct s) response = rejected s response := by
  unfold curveRead
  split <;> rfl

/-- Settles O24: the command is the ROM read and the response. -/
theorem pct2rawAnswersTheLookup : Obligations.Pct2rawAnswersTheLookup := by
  intro s ch pct
  have hexec : exec (.pct2raw ch pct) s = .next ((curveRead pct s).responded .ok (percentToRaw s.cfg ch pct)) := rfl
  rw [hexec, responded_eq_rejected, rejected_curveRead]
  rfl

end Sys2Proof.Machine

/-! ### FrontlightBlender (O25 to O28)

What the two sequences of applyPercentage leave when nothing fails (43_frontlight.md R131), register by register, and
from it FLAPPLY; then FLSEL, whose re-application runs in lockstep with the FLAPPLY it stands for. -/

namespace Sys2Proof.Machine

/-! #### The control register (R131) -/

/-- The control register after an applyPercentage in which nothing failed: awake, both enable masks on or off. -/
def ctrlAfterBoth (c : Config) (on : Bool) (ctrl : Byte) : Byte :=
  (awake ctrl &&& ~~~enMaskBoth c) ||| (if on then enMaskBoth c else 0)

/-- The sleep-disable commutes with a mask. -/
theorem awake_and (ctrl bits : Byte) : awake ctrl &&& bits = awake (ctrl &&& bits) := by
  rw [awake, awake, BitVec.and_assoc, BitVec.and_comm 0x7F, ← BitVec.and_assoc]

@[simp] theorem awake_awake (ctrl : Byte) : awake (awake ctrl) = awake ctrl := by
  rw [awake, awake, BitVec.and_assoc, BitVec.and_self]

/-- A channel's enable mask is one of the two that are combined. -/
theorem not_enMaskBoth_and_enMask (c : Config) (ch : Channel) : ~~~enMaskBoth c &&& enMask c ch = 0 := by
  rw [Machine.enMaskBoth, BitVec.not_or]
  cases ch
  · show ~~~c.mEn.a &&& ~~~c.mEn.b &&& c.mEn.a = 0
    rw [BitVec.and_comm (~~~c.mEn.a), BitVec.and_assoc, BitVec.not_and_self]
    exact BitVec.and_zero
  · show ~~~c.mEn.a &&& ~~~c.mEn.b &&& c.mEn.b = 0
    rw [BitVec.and_assoc, BitVec.not_and_self]
    exact BitVec.and_zero

/-- Outside both enable masks a setChannelBrightness clears the sleep bit and no other. -/
theorem ctrlAfterSet_and_not_both (c : Config) (ch : Channel) (brt ctrl : Byte) :
    ctrlAfterSet c ch brt ctrl &&& ~~~enMaskBoth c = awake ctrl &&& ~~~enMaskBoth c := by
  rw [ctrlAfterSet_eq_maskedByte, maskedByte_and_of_disjoint (not_enMaskBoth_and_enMask c ch)]

/-- The force-enable: whatever enable bits the two sets left, both masks are set after it. -/
theorem maskedByte_force_enable (c : Config) (bA bB ctrl : Byte) :
    maskedByte (ctrlAfterSet c .B bB (ctrlAfterSet c .A bA ctrl)) (enMaskBoth c) (enMaskBoth c) =
      ctrlAfterBoth c true ctrl := by
  rw [maskedByte, BitVec.and_self, ctrlAfterSet_and_not_both, awake_and, ctrlAfterSet_and_not_both, ← awake_and,
    awake_awake]
  rfl

/-- A set to brightness 0 clears the channel's enable mask. -/
theorem ctrlAfterSet_zero (c : Config) (ch : Channel) (ctrl : Byte) :
    ctrlAfterSet c ch 0 ctrl = awake ctrl &&& ~~~enMask c ch := by
  rw [ctrlAfterSet, if_neg (by decide)]
  exact BitVec.or_zero

/-- The full-off: both sets clear their channel's mask. -/
theorem ctrlAfterSet_both_zero (c : Config) (ctrl : Byte) :
    ctrlAfterSet c .B 0 (ctrlAfterSet c .A 0 ctrl) = ctrlAfterBoth c false ctrl := by
  rw [ctrlAfterSet_zero, ctrlAfterSet_zero, ← awake_and, awake_awake, BitVec.and_assoc, ← BitVec.not_or]
  exact BitVec.or_zero.symm

/-! #### The two sequences in which nothing fails (R131) -/

/-- The registers after both channels were driven, from those before (`f`); the last written first. -/
def registersAfterBoth (f : Byte → Byte) (ctrl bA bB cA cB : Byte) (a : Byte) : Byte :=
  if a = A_CTRL then ctrl
  else if a = A_BRT_B then bB
  else if a = A_CUR_B then currentAfterSet cB (f A_CUR_B)
  else if a = A_BRT_A then bA
  else if a = A_CUR_A then currentAfterSet cA (f A_CUR_A)
  else f a

/-- The events of a set of channel A and then one of channel B, from the registers before (`f`). -/
def setBothEvents (c : Config) (f : Byte → Byte) (bA bB cA cB : Byte) : List Event :=
  setEvents c .A bA cA (f A_CTRL) (f A_CUR_A) ++
    setEvents c .B bB cB (ctrlAfterSet c .A bA (f A_CTRL)) (f A_CUR_B)

theorem setEvents_length (c : Config) (ch : Channel) (brt ctrl old : Byte) {cur : Byte} (hcur : cur < 0x20) :
    (setEvents c ch brt cur ctrl old).length = 8 := by
  rw [setEvents, if_pos hcur]
  rfl

theorem setBothEvents_length (c : Config) (f : Byte → Byte) (bA bB : Byte) {cA cB : Byte} (hA : cA < 0x20)
    (hB : cB < 0x20) : (setBothEvents c f bA bB cA cB).length = 16 := by
  rw [setBothEvents, List.length_append, setEvents_length _ _ _ _ _ hA, setEvents_length _ _ _ _ _ hB]

/-- A set of channel A and then one of channel B. -/
theorem Wrote.setBoth {s t : State} {f : Byte → Byte} (h : Wrote s t f []) (bA bB cA cB : Byte) :
    Wrote s (afterSet .B bB cB (afterSet .A bA cA t))
      (registersAfterBoth f (ctrlAfterSet s.cfg .B bB (ctrlAfterSet s.cfg .A bA (f A_CTRL))) bA bB cA cB)
      (setBothEvents s.cfg f bA bB cA cB) := by
  have hset := (h.set (ch := .A) (brt := bA) (cur := cA)).set (ch := .B) (brt := bB) (cur := cB)
  refine ⟨hset.wf, fun a => (hset.reg a).trans ?_, hset.trace, hset.errlog, hset.block, hset.free⟩
  -- The second set's control register is over the first's; everywhere else the two case lists agree.
  by_cases hctrl : a = 0
  · subst hctrl
    rfl
  · simp only [if_neg hctrl]
    exact (if_neg hctrl).symm

/-- The full-off in which nothing failed. -/
theorem fullOff_faultFree {s t : State} (h : Wrote s t s.reg []) :
    ∃ u es, abortSeq fullOffSteps t = (.ok, u) ∧ es.length = 16 ∧
      Wrote s u (registersAfterBoth s.reg (ctrlAfterBoth s.cfg false (s.reg A_CTRL)) 0 0 0 0) es := by
  have hboth := h.setBoth 0 0 0 0
  rw [ctrlAfterSet_both_zero] at hboth
  refine ⟨_, _, ?_, setBothEvents_length _ _ _ _ (by decide) (by decide), hboth⟩
  rw [fullOffSteps, abortSeq_cons_ok (setChannelBrightness_faultFree _ _ _ h.free),
    abortSeq_cons_ok (setChannelBrightness_faultFree _ _ _ (faultFree_afterSet h.free)), abortSeq_nil]

/-- A ROM read moves the step index alone. -/
theorem Wrote.tick {s t : State} {f : Byte → Byte} {es : List Event} (h : Wrote s t f es) : Wrote s t.tick f es :=
  ⟨h.wf, h.reg, h.trace, h.errlog, h.block.trans ⟨rfl, rfl, rfl, rfl, rfl, rfl, rfl, rfl, rfl⟩, h.free⟩

/-- The blend in which nothing failed: the force-enable comes last, over the control register of the two sets. -/
theorem blend_faultFree {s t : State} (h : Wrote s t s.reg []) (tblIdx pct : Byte) :
    ∃ u es, abortSeq (blendSteps s.cfg tblIdx pct) t = (.ok, u) ∧ es.length = 18 ∧
      Wrote s u (registersAfterBoth s.reg (ctrlAfterBoth s.cfg true (s.reg A_CTRL))
        (flEntry s.cfg tblIdx.toNat .A (pct.toNat - 1)) (flEntry s.cfg tblIdx.toNat .B (pct.toNat - 1)) 4 7) es := by
  have hstart := h.tick.tick
  have hboth := hstart.setBoth (flEntry s.cfg tblIdx.toNat .A (pct.toNat - 1))
    (flEntry s.cfg tblIdx.toNat .B (pct.toNat - 1)) FL_CUR_A FL_CUR_B
  have hforce := hboth.updateTo (a := A_CTRL) (if_pos rfl) (maskedByte_force_enable s.cfg _ _ _) A_CTRL_le
  refine ⟨_, _, ?_, ?_, hforce.wf, fun a => (hforce.reg a).trans ?_, hforce.trace, hforce.errlog, hforce.block,
    hforce.free⟩
  · rw [blendSteps, abortSeq_cons_ok (romRead_eq t), abortSeq_cons_ok (romRead_eq t.tick),
      abortSeq_cons_ok (setChannelBrightness_faultFree _ _ _ hstart.free),
      abortSeq_cons_ok (setChannelBrightness_faultFree _ _ _ (faultFree_afterSet hstart.free)),
      abortSeq_cons_ok (memUpdate_faultFree _ _ hboth.free A_CTRL_le), abortSeq_nil]
  · rw [List.length_append, setBothEvents_length _ _ _ _ (by decide) (by decide)]
    rfl
  · by_cases ha : a = A_CTRL
    · simp only [registersAfterBoth, if_pos ha]
    · simp only [registersAfterBoth, if_neg ha]
      rfl

/-! #### FLAPPLY in which nothing fails (R132) -/

theorem flEntry_eq_getElem (c : Config) (ch : Channel) {t k : Nat} (ht : t < 3) (hk : k < 100) :
    flEntry c t ch k = (pick c.fl[t] ch)[k] := by
  simp [flEntry, Vector.getD, ht, hk]

theorem applyPercentage_zero {s : State} (htbl : s.tblIdx < 3) :
    applyPercentage 0 s = applied (abortSeq fullOffSteps (s.setLastPct 0)) := by
  rw [applyPercentage, if_neg (BitVec.not_le.mpr htbl), if_neg (by decide), if_pos rfl]

theorem applyPercentage_of_ne_zero {pct : Byte} {s : State} (htbl : s.tblIdx < 3) (hmax : pct ≤ PCT_MAX)
    (hzero : pct ≠ 0) :
    applyPercentage pct s = applied (abortSeq (blendSteps s.cfg s.tblIdx pct) (s.setLastPct pct)) := by
  rw [applyPercentage, if_neg (BitVec.not_le.mpr htbl), if_neg (BitVec.not_lt.mpr hmax), if_neg hzero]

theorem exec_flapply_of_ok {pct : Byte} {s u : State} {q : BusResult × State} (hs : s.attached = true)
    (happly : applyPercentage pct s = applied q) (hq : q = (.ok, u)) :
    exec (.flapply pct) s = .next (u.responded .ok 0x00) := by
  subst hq
  show execFlapply pct s = _
  rw [execFlapply, whenAttached_of hs, happly]
  rfl

/-- `last_pct` is written before the bus is touched. -/
theorem setLastPct_wrote {s : State} (hfree : FaultFree s) (hwf : Memory.wf s.chip = true) (pct : Byte) :
    Wrote (s.setLastPct pct) (s.setLastPct pct) (s.setLastPct pct).reg [] :=
  wrote_refl (hfree.congr rfl rfl) hwf

/-- The end of a command that drove both channels from the state in which `last_pct` was written. -/
theorem Wrote.bothDriven {s u : State} {pct bA bB cA cB : Byte} {on : Bool} {es : List Event}
    (h : Wrote (s.setLastPct pct) u
      (registersAfterBoth (s.setLastPct pct).reg (ctrlAfterBoth s.cfg on (s.reg A_CTRL)) bA bB cA cB) es)
    (hes : es.length = if on then 18 else 16) (hA : cA < 0x20) (hB : cB < 0x20) (st : Status) (v : Byte) :
    BothDriven s (u.responded st v) bA bB cA cB on where
  brightnessA := h.reg A_BRT_A
  brightnessB := h.reg A_BRT_B
  currentA := (h.reg A_CUR_A).trans (if_pos hA)
  currentB := (h.reg A_CUR_B).trans (if_pos hB)
  control := h.reg A_CTRL
  others a ha := by
    simp only [List.mem_cons, List.not_mem_nil, or_false, not_or] at ha
    obtain ⟨hctrl, hbrtA, hbrtB, hcurA, hcurB⟩ := ha
    exact (h.reg a).trans <| (if_neg hctrl).trans <| (if_neg hbrtB).trans <| (if_neg hcurB).trans <|
      (if_neg hbrtA).trans (if_neg hcurA)
  length := by
    rw [State.responded_trace, h.trace, List.length_append, hes]
    rfl
  prior := ⟨es, h.trace.symm⟩
  errlog := h.errlog
  cfg := h.block.cfg
  railEn := h.block.railEn
  attached := h.block.attached
  cmd := h.block.cmd
  port := h.block.port
  idle := idle_responded st v u

/-- Settles O25: the blend is past both range checks, and its entries are those of the selected table. -/
theorem flapplyBlendsBothChannels : Obligations.FlapplyBlendsBothChannels := by
  intro s pct t k ht hk hfree hwf hs htbl hpct
  have hlt : s.tblIdx < 3 := by rw [BitVec.lt_def, htbl]; exact ht
  have hmax : pct ≤ PCT_MAX := by rw [BitVec.le_def, hpct]; exact hk
  have hzero : pct ≠ 0 := by
    rintro rfl
    simp at hpct
  obtain ⟨u, es, hrun, hlen, hwrote⟩ := blend_faultFree (setLastPct_wrote hfree hwf pct) s.tblIdx pct
  rw [htbl, hpct, Nat.add_sub_cancel, flEntry_eq_getElem _ _ ht hk, flEntry_eq_getElem _ _ ht hk] at hwrote
  exact ⟨_, exec_flapply_of_ok hs (applyPercentage_of_ne_zero hlt hmax hzero) hrun, rfl, hwrote.block.lastPct,
    hwrote.block.tblIdx, hwrote.bothDriven hlen (by decide) (by decide) .ok 0x00⟩

/-- Settles O26: percentage 0 is the full-off. -/
theorem flapplyZeroIsFullOff : Obligations.FlapplyZeroIsFullOff := by
  intro s hfree hwf hs htbl
  obtain ⟨u, es, hrun, hlen, hwrote⟩ := fullOff_faultFree (setLastPct_wrote hfree hwf 0)
  exact ⟨_, exec_flapply_of_ok hs (applyPercentage_zero htbl) hrun, rfl, hwrote.block.lastPct,
    hwrote.block.tblIdx, hwrote.bothDriven hlen (by decide) (by decide) .ok 0x00⟩

/-! #### FLSEL and FLIDX (R133, R134) -/

/-- Whatever fails, applyPercentage writes no register but those of the two channels. -/
theorem applyPercentage_others (pct : Byte) (s : State) {a : Byte} (ha : a ∉ channelRegs) :
    (applyPercentage pct s).2.reg a = s.reg a := by
  rcases apply_cases pct s with ⟨-, h⟩ | ⟨-, q, h, -, heffect⟩
  · rw [h]
  · rw [h, applied_snd]
    exact heffect.others a ha

theorem exec_flsel {idx : Byte} {s : State} (hs : s.attached = true) (hidx : idx < 3) :
    exec (.flsel idx) s = .next ((selectTable idx s).responded .ok 0x00) := by
  show execFlsel idx s = _
  rw [execFlsel, whenAttached_of hs, if_neg (BitVec.not_le.mpr hidx)]
  rfl

theorem exec_flapply {s : State} (pct : Byte) (hs : s.attached = true) :
    ∃ st v, exec (.flapply pct) s = .next ((applyPercentage pct s).2.responded st v) := by
  obtain ⟨st, v, h⟩ := exec_beforeResponse (.flapply pct) s
  rw [beforeResponse_of_admitted (i := .flapply pct) hs] at h
  exact ⟨st, v, h⟩

/-- selectTable is applyPercentage through the new table, but for the micro-step of the index. -/
theorem selectTable_lockstep (idx : Byte) (s : State) :
    Lockstep (s.setTblIdx idx) { s with tblIdx := idx } (selectTable idx s)
      (applyPercentage s.lastPct { s with tblIdx := idx }).2 :=
  (applyPercentage_lockstep s.lastPct (s := s.setTblIdx idx) (Alike.refl { s with tblIdx := idx })).2

/-- Settles O27: the re-application runs in lockstep with FLAPPLY of the last percentage, whatever the draws. The
bound on `last_pct` is not used: above it both are turned away by the same range check. -/
theorem flselStoresAndReapplies : Obligations.FlselStoresAndReapplies := by
  intro s idx hs hidx _
  obtain ⟨st, v, hflapply⟩ := exec_flapply (s := { s with tblIdx := idx }) s.lastPct hs
  have hstep := selectTable_lockstep idx s
  have hblock := selectTable_sameBlock idx s
  obtain ⟨-, -, -, -, -, -, hchip, -⟩ := hstep.alike.fields
  exact ⟨_, _, exec_flsel hs hidx, hflapply, rfl, hblock.tblIdx, hblock.lastPct, idle_responded _ _ _, hchip.symm,
    hstep.trace_eq rfl, hstep.errlog_eq rfl, hblock.railEn, hblock.attached, hblock.cfg, hblock.cmd, hblock.port,
    fun a ha => applyPercentage_others s.lastPct (s.setTblIdx idx) ha⟩

/-- Settles O28: FLIDX is its lifecycle gate and its response. -/
theorem flidxAnswersTheTableIndex : Obligations.FlidxAnswersTheTableIndex := by
  intro s hs
  show execFlidx s = _
  rw [execFlidx, whenAttached_of hs]
  rfl

end Sys2Proof.Machine

/-! ### ChannelBackend (O29 to O33)

The backend's set in which nothing fails (44_channelbackend.md R145), alone for BLSET and after the ROM read for BLPCT;
BLGET, VSET and VGET from the meanings they share with GETCH, FLAPPLY and FLIDX. -/

namespace Sys2Proof.Machine

/-! #### BLSET and BLPCT (R145, R150) -/

/-- Within the channel's maximum an unfailed backend set is `afterSet` at the full-scale current, and its response. -/
theorem backendSet_faultFree {s : State} {ch : Channel} {brt : Byte} (okValue : Byte) (hfree : FaultFree s)
    (hmax : brt ≤ pick s.cfg.maxBrt ch) :
    backendSet ch brt okValue s =
      .next ((afterSet ch brt (pick s.cfg.fullScale ch) s).responded .ok okValue) := by
  rw [backendSet, if_neg (BitVec.not_lt.mpr hmax), setChannelBrightness_faultFree _ _ _ hfree]
  rfl

theorem exec_blset_faultFree {s : State} {ch : Channel} {brt : Byte} (hfree : FaultFree s) (hs : s.attached = true)
    (hmax : brt ≤ pick s.cfg.maxBrt ch) :
    exec (.blset ch brt) s = .next ((afterSet ch brt (pick s.cfg.fullScale ch) s).responded .ok 0x00) := by
  show execBlset ch brt s = _
  rw [execBlset, whenAttached_of hs, backendSet_faultFree 0x00 hfree hmax]

/-- Settles O29: an unfailed BLSET is `afterSet` at the full-scale current, and its response. -/
theorem blsetDrivesAtFullScale : Obligations.BlsetDrivesAtFullScale := by
  intro s ch brt hfree hwf hs hmax
  exact ⟨_, exec_blset_faultFree hfree hs hmax, rfl, channelDriven_afterSet hfree hwf ch brt _ .ok 0x00⟩

/-- The ROM read writes no register and uses up no draw. -/
theorem curveRead_wrote {s : State} (hfree : FaultFree s) (hwf : Memory.wf s.chip = true) (pct : Byte) :
    Wrote s (curveRead pct s) s.reg [] := by
  unfold curveRead
  split
  · exact wrote_refl hfree hwf
  · exact (wrote_refl hfree hwf).tick

/-- The effect of a set says nothing of the step index it began with, which is all that the ROM read moves. -/
theorem ChannelDriven.of_curveRead {s t : State} {ch : Channel} {pct brt cur : Byte}
    (h : ChannelDriven (curveRead pct s) t ch brt cur) : ChannelDriven s t ch brt cur := by
  have hblock := (curveRead_sameBlock pct s).trans h.block
  unfold curveRead at h
  split at h
  · exact h
  · exact { h with block := hblock }

theorem exec_blpct_faultFree {s : State} {ch : Channel} {pct : Byte} (hfree : FaultFree (curveRead pct s))
    (hs : s.attached = true) (hmax : percentToRaw s.cfg ch pct ≤ pick s.cfg.maxBrt ch) :
    exec (.blpct ch pct) s =
      .next ((afterSet ch (percentToRaw s.cfg ch pct) (pick s.cfg.fullScale ch) (curveRead pct s)).responded .ok
        (percentToRaw s.cfg ch pct)) := by
  have hcfg : (curveRead pct s).cfg = s.cfg := (curveRead_sameBlock pct s).cfg
  show execBlpct ch pct s = _
  rw [execBlpct, whenAttached_of hs, backendSet_faultFree _ hfree (hcfg.symm ▸ hmax), hcfg]

/-- Settles O30: an unfailed BLPCT is the ROM read, `afterSet` to the looked-up value, and the response that carries
it. -/
theorem blpctDrivesToTheLookedUpValue : Obligations.BlpctDrivesToTheLookedUpValue := by
  intro s ch pct hfree hwf hs hmax
  have hread := curveRead_wrote hfree hwf pct
  exact ⟨_, exec_blpct_faultFree hread.free hs hmax, statusOf_responded _ _ _, valueOf_responded _ _ _,
    (channelDriven_afterSet hread.free hread.wf ch _ _ .ok _).of_curveRead⟩

/-! #### BLGET, VSET and VGET (R146 to R148) -/

/-- BLGET has the meaning of GETCH, failures and lifecycle gate included (R146). -/
theorem exec_blget (ch : Channel) (s : State) : exec (.blget ch) s = exec (.getch ch) s := rfl

/-- VSET has the meaning of FLAPPLY, failures and lifecycle gate included (R147). -/
theorem exec_vset (pct : Byte) (s : State) : exec (.vset pct) s = exec (.flapply pct) s := rfl

/-- Settles O31: what O19 says of GETCH is true of BLGET. -/
theorem blgetReadsTheBrightness : Obligations.BlgetReadsTheBrightness := by
  refine ⟨fun s ch hfree hwf hs => ?_, fun s ch => exec_blget ch s⟩
  obtain ⟨t, hexec, hstatus, hvalue, hblock, hidle, herrlog, hcontrol, hothers, -⟩ :=
    getchReadsTheBrightness s ch hfree hwf hs
  exact ⟨t, (exec_blget ch s).trans hexec, hstatus, hvalue, hcontrol, hothers, hblock, hidle, herrlog⟩

/-- Settles O32: what O25 says of FLAPPLY is true of VSET. -/
theorem vsetBlendsBothChannels : Obligations.VsetBlendsBothChannels := by
  refine ⟨fun s pct t k ht hk hfree hwf hs htbl hpct => ?_, fun s pct => exec_vset pct s⟩
  rw [exec_vset]
  exact flapplyBlendsBothChannels s pct t k ht hk hfree hwf hs htbl hpct

/-- Settles O33: VGET is its lifecycle gate and its response. -/
theorem vgetAnswersTheLastPercentage : Obligations.VgetAnswersTheLastPercentage := by
  intro s hs
  show execVget s = _
  rw [execVget, whenAttached_of hs]
  rfl

end Sys2Proof.Machine

/-! ### Errors (O16, O34 to O38, O56)

What a command can answer is said once (`exec_cases`): the lifecycle gate or a range check turns it away, or it runs. An
abort-at-first-failure command that runs answers by how one part ended (`abortPart`), which is then compared with the
same part in which nothing fails. -/

namespace Sys2Proof.Machine

/-! #### The lifecycle gate (R165) -/

theorem exec_of_not_admitted {i : Instr} {s : State} (h : admitted i s = false) :
    exec i s = .next (rejected s 0x0500) := by
  cases i
  case rd | wr | upd | stat | pct2raw => cases h
  case init =>
    have hs : s.attached = true := by simpa using h
    exact whenDetached_not hs
  all_goals exact whenAttached_not h

theorem admitted_of_needsAttached {i : Instr} (h : needsAttached i = true) (s : State) :
    admitted i s = s.attached := if_pos h

/-! #### The range checks (R163) -/

/-- A range check turns the command away (60_exceptions.md R163). -/
def outOfRange : Instr → State → Bool
  | .flsel idx, _ => 3 ≤ idx
  | .flapply pct, s => decide (3 ≤ s.tblIdx ∨ PCT_MAX < pct)
  | .vset pct, s => decide (3 ≤ s.tblIdx ∨ PCT_MAX < pct)
  | .blset ch brt, s => pick s.cfg.maxBrt ch < brt
  | .blpct ch pct, s => pick s.cfg.maxBrt ch < percentToRaw s.cfg ch pct
  | _, _ => false

theorem applyPercentage_of_outOfRange {pct : Byte} {s : State} (h : 3 ≤ s.tblIdx ∨ PCT_MAX < pct) :
    applyPercentage pct s = (.rangeFail, s) := by
  rcases apply_cases pct s with ⟨-, happly⟩ | ⟨hok, -⟩
  · exact happly
  · exact absurd h hok

theorem backendSet_of_above {ch : Channel} {brt : Byte} {s : State} (okValue : Byte)
    (h : pick s.cfg.maxBrt ch < brt) : backendSet ch brt okValue s = .next (rejected s 0x0300) := if_pos h

theorem exec_of_outOfRange {i : Instr} {s : State} (ha : admitted i s = true) (h : outOfRange i s = true) :
    exec i s = .next (rejected s 0x0300) := by
  cases i
  case flsel idx =>
    show execFlsel idx s = _
    rw [execFlsel, whenAttached_of ha, if_pos (of_decide_eq_true h)]
    rfl
  case flapply pct | vset pct =>
    show whenAttached s (finishApply pct (applyPercentage pct s)) = _
    rw [whenAttached_of ha, applyPercentage_of_outOfRange (of_decide_eq_true h)]
    rfl
  case blset ch brt =>
    exact (whenAttached_of ha).trans (backendSet_of_above 0x00 (of_decide_eq_true h))
  case blpct ch pct =>
    have hcfg : (curveRead pct s).cfg = s.cfg := (curveRead_sameBlock pct s).cfg
    have habove : pick (curveRead pct s).cfg.maxBrt ch < percentToRaw s.cfg ch pct :=
      hcfg.symm ▸ of_decide_eq_true h
    show execBlpct ch pct s = _
    rw [execBlpct, whenAttached_of ha, backendSet_of_above _ habove, rejected_curveRead]
  all_goals cases h

/-! #### An abort-at-first-failure command that runs (R161, R166) -/

/-- The sequence of applyPercentage past its range checks (43_frontlight.md R131). -/
def applySteps (c : Config) (tblIdx pct : Byte) : List Step :=
  if pct = 0 then fullOffSteps else blendSteps c tblIdx pct

/-- The one part that an abort-at-first-failure command is made of, past its gate and its range check. -/
def abortPart (i : Instr) (s : State) : BusResult × State :=
  match i with
  | .rd a => readRun (memRead a s)
  | .wr a v => memWrite a v s
  | .upd a mask v => memUpdate a mask v s
  | .setch ch brt cur => setChannelBrightness ch brt cur s
  | .getch ch | .blget ch => readRun (getChannelBrightness ch s)
  | .blset ch brt => setChannelBrightness ch brt (pick s.cfg.fullScale ch) s
  | .blpct ch pct =>
    setChannelBrightness ch (percentToRaw s.cfg ch pct) (pick s.cfg.fullScale ch) (curveRead pct s)
  | .flapply pct | .vset pct => abortSeq (applySteps s.cfg s.tblIdx pct) (s.setLastPct pct)
  | .stat | .init | .shutdown | .pct2raw _ _ | .flsel _ | .flidx | .vget => (.ok, s)

/-- The outcome is the response to the end of a part: a success, or `ERR_BUS` with the value `v`. -/
def AnswersFor (p : BusResult × State) (v : Byte) (o : Host.Outcome State Fault Refusal) : Prop :=
  ∃ w, o = .next (p.2.responded (busStatus p.1) w) ∧ (p.1 = .fail → w = v)

theorem finish_answersFor (okValue v : Byte) (p : BusResult × State) : AnswersFor p v (finish okValue v p) := by
  obtain ⟨_ | _, t⟩ := p
  · exact ⟨okValue, rfl, (fun h => nomatch h)⟩
  · exact ⟨v, rfl, fun _ => rfl⟩

theorem finishRead_answersFor (p : ReadResult × State) : AnswersFor (readRun p) 0x00 (finishRead p) := by
  obtain ⟨b | _, t⟩ := p
  · exact ⟨b, rfl, (fun h => nomatch h)⟩
  · exact ⟨0x00, rfl, fun _ => rfl⟩

theorem finishApply_answersFor (pct : Byte) (p : BusResult × State) :
    AnswersFor p pct (finishApply pct (applied p)) := by
  obtain ⟨_ | _, t⟩ := p
  · exact ⟨0x00, rfl, (fun h => nomatch h)⟩
  · exact ⟨pct, rfl, fun _ => rfl⟩

theorem backendSet_answersFor {ch : Channel} {brt : Byte} {s : State} (okValue : Byte)
    (h : ¬ pick s.cfg.maxBrt ch < brt) :
    AnswersFor (setChannelBrightness ch brt (pick s.cfg.fullScale ch) s) brt (backendSet ch brt okValue s) := by
  rw [backendSet, if_neg h]
  exact finish_answersFor okValue brt _

theorem applyPercentage_of_inRange {pct : Byte} {s : State} (h : ¬ (3 ≤ s.tblIdx ∨ PCT_MAX < pct)) :
    applyPercentage pct s = applied (abortSeq (applySteps s.cfg s.tblIdx pct) (s.setLastPct pct)) := by
  obtain ⟨htbl, hpct⟩ := not_or.mp h
  rw [applyPercentage, if_neg htbl, if_neg hpct, applySteps]
  split <;> rfl

/-- R161: a command that aborts at its first failure answers for its part. -/
theorem exec_answersFor {i : Instr} {s : State} {v : Byte} (hv : abortValue s.cfg i = some v)
    (ha : admitted i s = true) (hr : outOfRange i s = false) : AnswersFor (abortPart i s) v (exec i s) := by
  cases i <;> cases hv
  case rd a => exact finishRead_answersFor _
  case wr a b => exact finish_answersFor 0x00 0x00 _
  case upd a mask b => exact finish_answersFor 0x00 0x00 _
  case setch ch cur =>
    show AnswersFor _ _ (whenAttached s _)
    rw [whenAttached_of ha]
    exact finish_answersFor 0x00 v _
  case getch ch | blget ch =>
    show AnswersFor _ _ (whenAttached s _)
    rw [whenAttached_of ha]
    exact finishRead_answersFor _
  case flapply | vset =>
    show AnswersFor _ _ (whenAttached s (finishApply v (applyPercentage v s)))
    rw [whenAttached_of ha, applyPercentage_of_inRange (of_decide_eq_false hr)]
    exact finishApply_answersFor v _
  case blset ch =>
    show AnswersFor _ _ (whenAttached s _)
    rw [whenAttached_of ha]
    exact backendSet_answersFor 0x00 (of_decide_eq_false hr)
  case blpct ch pct =>
    have hcfg : (curveRead pct s).cfg = s.cfg := (curveRead_sameBlock pct s).cfg
    have hle : ¬ pick (curveRead pct s).cfg.maxBrt ch < percentToRaw s.cfg ch pct :=
      hcfg.symm ▸ of_decide_eq_false hr
    have hset := backendSet_answersFor (percentToRaw s.cfg ch pct) hle
    show AnswersFor _ _ (whenAttached s _)
    rw [whenAttached_of ha]
    rwa [hcfg] at hset

/-- A command that does not abort at a failure succeeds, but for an INIT that aggregated one. -/
theorem exec_of_no_abort {i : Instr} {s : State} (hv : abortValue s.cfg i = none)
    (ha : admitted i s = true) (hr : outOfRange i s = false) :
    ∃ (u : State) (st : Status) (v : Byte), exec i s = .next (u.responded st v) ∧
      (st = .ok ∨ st = .errInit ∧ i = .init) := by
  cases i
  case rd | wr | upd | setch | getch | blget | blset | blpct | flapply | vset => cases hv
  case stat => exact ⟨_, _, _, rfl, .inl rfl⟩
  case pct2raw => exact ⟨_, _, _, rfl, .inl rfl⟩
  case init =>
    have hs : s.attached = false := by simpa using ha
    rcases exec_init_cases s hs with ⟨-, h⟩ | ⟨-, h⟩
    · exact ⟨_, _, _, h, .inl rfl⟩
    · exact ⟨_, _, _, h, .inr ⟨rfl, rfl⟩⟩
  case shutdown => exact ⟨_, _, _, exec_shutdown ha, .inl rfl⟩
  case flsel idx => exact ⟨_, _, _, exec_flsel ha (BitVec.not_le.mp (of_decide_eq_false hr)), .inl rfl⟩
  case flidx => exact ⟨_, _, _, whenAttached_of ha, .inl rfl⟩
  case vget => exact ⟨_, _, _, whenAttached_of ha, .inl rfl⟩

/-- R167: a command is turned away by its gate, or by its range check, or runs and answers `OK`, `ERR_BUS` or, if it is
INIT, `ERR_INIT`. -/
theorem exec_cases {i : Instr} {s t : State} (h : exec i s = .next t) :
    (admitted i s = false ∧ t = rejected s 0x0500) ∨
      (admitted i s = true ∧ outOfRange i s = true ∧ t = rejected s 0x0300) ∨
      (admitted i s = true ∧ outOfRange i s = false ∧ statusOf t < 0x03 ∧ (statusOf t = 0x02 → i = .init)) := by
  cases ha : admitted i s with
  | false => exact .inl ⟨rfl, Host.Outcome.next.inj (h.symm.trans (exec_of_not_admitted ha))⟩
  | true =>
    cases hr : outOfRange i s with
    | true => exact .inr (.inl ⟨rfl, rfl, Host.Outcome.next.inj (h.symm.trans (exec_of_outOfRange ha hr))⟩)
    | false =>
      refine .inr (.inr ⟨rfl, rfl, ?_⟩)
      cases hv : abortValue s.cfg i with
      | some v =>
        obtain ⟨w, hexec, -⟩ := exec_answersFor hv ha hr
        obtain rfl := Host.Outcome.next.inj (hexec.symm.trans h)
        rw [statusOf_responded]
        cases (abortPart i s).1 <;> simp [busStatus, statusCode]
      | none =>
        obtain ⟨u, st, w, hexec, hst⟩ := exec_of_no_abort hv ha hr
        obtain rfl := Host.Outcome.next.inj (hexec.symm.trans h)
        rw [statusOf_responded]
        rcases hst with rfl | ⟨rfl, rfl⟩ <;> simp [statusCode]

@[simp] theorem statusOf_rejected (s : State) (r : ResponseWord) : statusOf (rejected s r) = r.extractLsb' 8 8 := rfl

@[simp] theorem valueOf_rejected (s : State) (r : ResponseWord) : valueOf (rejected s r) = r.extractLsb' 0 8 := rfl

/-- Settles O34: `exec_of_not_admitted`, and `exec_cases` for a command that is admitted. -/
theorem lifecycleGate : Obligations.LifecycleGate := by
  refine ⟨fun i s => exec_of_not_admitted, fun i s ha => ?_, fun s a m v ch => ⟨rfl, rfl, rfl, rfl, rfl⟩,
    admitted_init, fun s b c ch i hi => admitted_of_needsAttached ?_ s⟩
  · obtain ⟨u, st, v, h⟩ := exec_responds i s
    refine ⟨_, h, fun hstate => ?_⟩
    rcases exec_cases h with ⟨hno, -⟩ | ⟨-, -, ht⟩ | ⟨-, -, hlt, -⟩
    · rw [ha] at hno; cases hno
    · simp [ht] at hstate
    · rw [hstate] at hlt; exact absurd hlt (by decide)
  · revert i
    simp [needsAttached]

/-! #### What the range errors leave (R163) -/

theorem lt_three_iff_le_two (b : Byte) : b < 3 ↔ b ≤ 2 := by
  rw [BitVec.lt_def, BitVec.le_def]
  exact Nat.lt_succ_iff

theorem step_keeps_tblIdx {s t : State} (h : step s = .next t) (hs : s.tblIdx ≤ 2) : t.tblIdx ≤ 2 := by
  rcases step_cases h with ⟨n, taken, w, rest, u, -, -, -, -, rfl⟩ | ⟨-, rfl⟩ | ⟨w, rest, -, -, -, hrun⟩ | ⟨-, rfl⟩
  · exact BitVec.le_def.mpr (Nat.zero_le _)
  · exact BitVec.le_def.mpr (Nat.zero_le _)
  · exact (runWord_commandEffect hrun).tblIdx hs
  · exact hs

/-- BLPCT reports no `RangeError` where no byte is above the channel's maximum. -/
theorem blpct_inRange_of_max {s : State} {ch : Channel} (hmax : pick s.cfg.maxBrt ch = 0xFF) (pct : Byte) :
    outOfRange (.blpct ch pct) s = false := by
  have hbyte : percentToRaw s.cfg ch pct ≤ 0xFF := BitVec.le_def.mpr (Nat.le_of_lt_succ (BitVec.isLt _))
  exact decide_eq_false (hmax ▸ BitVec.not_lt.mpr hbyte)

/-- Settles O35: each cause is `outOfRange`, PCT2RAW answers `OK`, and the other clauses are frame facts of a step. -/
theorem rangeErrorsTouchNothing : Obligations.RangeErrorsTouchNothing := by
  refine ⟨fun s idx hs hidx => ?_, fun s pct hs hcause => ?_, fun s ch brt hs hbrt => ?_, fun s ch pct hs hraw => ?_,
    fun s t hs h => ?_, fun s t ch pct h => ?_, fun s t ch pct hmax h hrange => ?_⟩
  · exact exec_of_outOfRange (i := .flsel idx) hs (decide_eq_true hidx)
  · have hout : outOfRange (.flapply pct) s = true := decide_eq_true hcause.symm
    exact ⟨exec_of_outOfRange (i := .flapply pct) hs hout, exec_of_outOfRange (i := .vset pct) hs hout⟩
  · exact exec_of_outOfRange (i := .blset ch brt) hs (decide_eq_true hbrt)
  · exact exec_of_outOfRange (i := .blpct ch pct) hs (decide_eq_true hraw)
  · rw [lt_three_iff_le_two] at hs ⊢
    exact step_keeps_tblIdx h hs
  · obtain rfl : (curveRead pct s).responded .ok (percentToRaw s.cfg ch pct) = t := Host.Outcome.next.inj h
    rw [statusOf_responded]
    decide
  · rcases exec_cases h with ⟨-, rfl⟩ | ⟨-, hout, -⟩ | ⟨-, -, hlt, -⟩
    · simp at hrange
    · rw [blpct_inRange_of_max hmax] at hout; cases hout
    · rw [hrange] at hlt; exact absurd hlt (by decide)

/-! #### What a rejection leaves (R163 to R165) -/

/-- Settles O38: a word that is no command is answered and nothing else, and so are the two rejections of
`exec_cases`. -/
theorem rejectionsLeaveEverythingAsBefore : Obligations.RejectionsLeaveEverythingAsBefore := by
  intro w s t h hstatus
  rcases runWord_cases h with ⟨i, hi⟩ | rfl
  · rcases exec_cases hi with ⟨-, rfl⟩ | ⟨-, -, rfl⟩ | ⟨-, -, hlt, -⟩
    · exact ⟨rfl, by simp⟩
    · exact ⟨rfl, by simp⟩
    · have hge : ∀ b ∈ [(0x03 : Byte), 0x04, 0x05], ¬ b < 0x03 := by decide
      exact absurd hlt (hge _ hstatus)
  · exact ⟨rfl, valueOf_responded _ _ _⟩

/-! #### Where an abort-at-first-failure command ends (R161, R166) -/

/-- From `s` to `t` no event failed, or the last and no other failed and the response is `ERR_BUS` with `v`. -/
def EndsAtFirstFailure (s t : State) (v : Byte) : Prop :=
  ∃ es, t.trace = s.trace ++ es ∧
    ((statusOf t ≠ 0x01 ∧ t.errlog = s.errlog ∧ ∀ e ∈ es, e.failed = false) ∨
      (statusOf t = 0x01 ∧ valueOf t = v ∧ t.errlog = true ∧
        ∃ pre last, es = pre ++ [last] ∧ last.failed = true ∧ ∀ e ∈ pre, e.failed = false))

theorem endsAtFirstFailure_rejected (s : State) {r : ResponseWord} (v : Byte) (h : r.extractLsb' 8 8 ≠ 0x01) :
    EndsAtFirstFailure s (rejected s r) v :=
  ⟨[], (List.append_nil _).symm, .inl ⟨h, rfl, by simp⟩⟩

theorem AbortRun.endsAtFirstFailure {s : State} {p : BusResult × State} (h : AbortRun s p) {v w : Byte}
    (hw : p.1 = .fail → w = v) : EndsAtFirstFailure s (p.2.responded (busStatus p.1) w) v := by
  obtain ⟨es, htrace, ⟨hok, herr, hgood⟩ | ⟨hfail, herr, hlast⟩⟩ := h
  · exact ⟨es, htrace, .inl ⟨by simp [hok, busStatus, statusCode], herr, hgood⟩⟩
  · exact ⟨es, htrace, .inr ⟨by simp [hfail, busStatus, statusCode], by simp [hw hfail], herr, hlast⟩⟩

theorem AbortRun.of_same {s t : State} (htrace : t.trace = s.trace) (herrlog : t.errlog = s.errlog) :
    AbortRun s (.ok, t) := ⟨[], by simp [htrace], .inl ⟨rfl, herrlog, by simp⟩⟩

theorem curveRead_abortRun (pct : Byte) (s : State) : AbortRun s (.ok, curveRead pct s) := by
  unfold curveRead
  split
  · exact .of_same rfl rfl
  · exact romRead_abortRun s

theorem applySteps_abortRun (c : Config) (tblIdx pct : Byte) (s : State) :
    AbortRun s (abortSeq (applySteps c tblIdx pct) s) := by
  unfold applySteps
  split
  · exact fullOff_abortRun s
  · exact blend_abortRun c tblIdx pct s

theorem abortPart_abortRun {i : Instr} {s : State} (h : refusesAddress i s = false) : AbortRun s (abortPart i s) := by
  cases i with
  | rd a => exact memRead_abortRun (BitVec.not_lt.mp (of_decide_eq_false h)) s
  | wr a v => exact memWrite_abortRun v (BitVec.not_lt.mp (of_decide_eq_false h)) s
  | upd a mask v => exact memUpdate_abortRun mask v (BitVec.not_lt.mp (of_decide_eq_false h)) s
  | setch ch brt cur => exact setChannelBrightness_abortRun ch brt cur s
  | getch ch | blget ch => exact getChannelBrightness_abortRun ch s
  | blset ch brt => exact setChannelBrightness_abortRun ch brt _ s
  | blpct ch pct => exact (curveRead_abortRun pct s).andThen (setChannelBrightness_abortRun ch _ _ _)
  | flapply pct | vset pct =>
    exact AbortRun.andThen (s1 := s.setLastPct pct) (.of_same rfl rfl) (applySteps_abortRun _ _ _ _)
  | stat | init | shutdown | pct2raw | flsel | flidx | vget => exact .of_same rfl rfl

/-- Settles O36: a command that is turned away emits no event, and one that runs answers for `abortPart`. -/
theorem abortCommandsStopAtTheFirstFailure : Obligations.AbortCommandsStopAtTheFirstFailure := by
  intro i s t v hv haddr h
  show EndsAtFirstFailure s t v
  rcases exec_cases h with ⟨-, rfl⟩ | ⟨-, -, rfl⟩ | ⟨ha, hr, -⟩
  · exact endsAtFirstFailure_rejected s v (by decide)
  · exact endsAtFirstFailure_rejected s v (by decide)
  · obtain ⟨w, hexec, hw⟩ := exec_answersFor hv ha hr
    obtain rfl := Host.Outcome.next.inj (hexec.symm.trans h)
    exact (abortPart_abortRun haddr).endsAtFirstFailure hw

/-! #### A failed run beside the unfailing one (R166) -/

/-- The state with the reference target answering and no failure to come. -/
def State.unfailing (s : State) : State := { s with answers := [], answerRest := Answer.good }

/-- From `s` to `t` the events end with a failed transaction; those from `s` to `u` are the same up to it, make the same
access there, and may go on. -/
def StoppedShort (s t u : State) : Prop :=
  ∃ pre last last' rest, t.trace = s.trace ++ (pre ++ [last]) ∧ u.trace = s.trace ++ (pre ++ last' :: rest) ∧
    last.failed = true ∧ last.sameAccess last' = true

theorem StoppedShort.of_prior {s s1 t u : State} {es : List Event} (hs : s1.trace = s.trace ++ es)
    (h : StoppedShort s1 t u) : StoppedShort s t u := by
  obtain ⟨pre, last, last', rest, ht, hu, hlast⟩ := h
  exact ⟨es ++ pre, last, last', rest, by simp [ht, hs], by simp [hu, hs], hlast⟩

theorem StoppedShort.extend {s t u u' : State} {es : List Event} (h : StoppedShort s t u)
    (hu' : u'.trace = u.trace ++ es) : StoppedShort s t u' := by
  obtain ⟨pre, last, last', rest, ht, hu, hlast⟩ := h
  exact ⟨pre, last, last', rest ++ es, ht, by simp [hu', hu], hlast⟩

/-- A part that only adds events, and that with the reference target does what it does with no failure to come, or ends
as `bad`, stopped short of that. -/
structure StopsShort {α : Type} (bad : α) (p : State → α × State) : Prop where
  cuttable : Cuttable p
  compare : ∀ s, PlainTarget s → p s.unfailing = ((p s).1, (p s).2.unfailing) ∨
    ((p s).1 = bad ∧ StoppedShort s (p s).2 (p s.unfailing).2)

theorem PlainTarget.useAnswer {s : State} (h : PlainTarget s) : PlainTarget s.useAnswer := by
  obtain ⟨hanswers, hrest⟩ := h
  exact ⟨fun x hx => hanswers x (List.mem_of_mem_tail hx), hrest⟩

/-- A part only adds events. -/
theorem Cuttable.trace_append {α : Type} {p : State → α × State} (hp : Cuttable p) (s : State) :
    ∃ es, (p s).2.trace = s.trace ++ es := by
  obtain ⟨es, hrun⟩ := hp.run s
  exact ⟨es, hrun.trace⟩

theorem memRead_stopsShort (a : Byte) : StopsShort .fail (memRead a) where
  cuttable := memRead_cuttable a
  compare s hs := by
    by_cases ha : ADDR_MAX < a
    · rw [memRead_of_refused ha, memRead_of_refused ha]
      exact .inl rfl
    · have hle := le_of_not_gt_addr ha
      have hgood : memRead a s.unfailing = _ := memRead_of_drawn hle (b := s.reg a) rfl
      have hdrawn := drawnByte_target (s.reg a) hs.nextAnswer
      rw [hgood]
      split at hdrawn
      · rw [memRead_of_not_drawn hle hdrawn]
        exact .inr ⟨rfl, [], .rd a .fail, .rd a (.ok (s.reg a)), [], rfl, rfl, rfl, beq_self_eq_true a⟩
      · rw [memRead_of_drawn hle hdrawn]
        exact .inl rfl

theorem memWrite_stopsShort (a v : Byte) : StopsShort .fail (memWrite a v) where
  cuttable := memWrite_cuttable a v
  compare s _ := by
    by_cases ha : ADDR_MAX < a
    · rw [memWrite_of_refused v ha, memWrite_of_refused v ha]
      exact .inl rfl
    · have hle := le_of_not_gt_addr ha
      rw [memWrite_of_succeeds (s := s.unfailing) v hle rfl]
      cases hfails : s.nextAnswer.fails with
      | true =>
        rw [memWrite_of_fails v hle hfails]
        exact .inr ⟨rfl, [], .wr a v .fail, .wr a v .ok, [], by simp [busWr_trace], rfl, rfl,
          by simp [Event.sameAccess]⟩
      | false =>
        rw [memWrite_of_succeeds v hle hfails]
        exact .inl rfl

theorem settle_stopsShort (k : DelayKind) : StopsShort .fail (settle k) := ⟨settle_cuttable k, fun _ _ => .inl rfl⟩

theorem romRead_stopsShort : StopsShort .fail romRead := ⟨romRead_cuttable, fun _ _ => .inl rfl⟩

/-- A part `r` that is `p` and, if that ends well, `q`. -/
theorem StopsShort.andThen {α : Type} {bad : α} {p : Step} {q r : State → α × State} (hp : StopsShort .fail p)
    (hq : StopsShort bad q) (hr : Cuttable r) (hok : ∀ {s t}, p s = (.ok, t) → r s = q t)
    (hfail : ∀ {s t}, p s = (.fail, t) → r s = (bad, t)) : StopsShort bad r where
  cuttable := hr
  compare s hs := by
    obtain ⟨es, hes⟩ := hp.cuttable.trace_append s
    have hplain := hp.cuttable.plainTarget hs
    rcases hp.compare s hs with hsame | ⟨hbad, hshort⟩
    · rcases hps : p s with ⟨_ | _, t⟩ <;> rw [hps] at hes hplain hsame
      · rw [hok hps, hok hsame]
        exact (hq.compare t hplain).imp id fun ⟨hend, hshort⟩ => ⟨hend, hshort.of_prior hes⟩
      · rw [hfail hps, hfail hsame]
        exact .inl rfl
    · rcases hps : p s with ⟨r1, t⟩
      rw [hps] at hbad hshort
      obtain rfl : r1 = .fail := hbad
      rw [hfail hps]
      rcases hpu : p s.unfailing with ⟨_ | _, u⟩ <;> rw [hpu] at hshort
      · obtain ⟨fs, hfs⟩ := hq.cuttable.trace_append u
        rw [hok hpu]
        exact .inr ⟨rfl, hshort.extend hfs⟩
      · rw [hfail hpu]
        exact .inr ⟨rfl, hshort⟩

theorem memUpdate_stopsShort (a mask v : Byte) : StopsShort .fail (memUpdate a mask v) where
  cuttable := memUpdate_cuttable a mask v
  compare s hs := by
    by_cases ha : ADDR_MAX < a
    · rw [memUpdate_of_refused mask v ha, memUpdate_of_refused mask v ha]
      exact .inl rfl
    · have hle := le_of_not_gt_addr ha
      have hwrite := memWrite_stopsShort a (maskedByte (s.reg a) mask v)
      have hgood : memUpdate a mask v s.unfailing = memWrite a (maskedByte (s.reg a) mask v)
        (updateRead a (s.reg a) s).unfailing := memUpdate_of_drawn mask v hle (b := s.reg a) rfl
      have hdrawn := drawnByte_target (s.reg a) hs.nextAnswer
      rw [hgood]
      split at hdrawn
      · obtain ⟨es, hes⟩ := hwrite.cuttable.trace_append (updateRead a (s.reg a) s).unfailing
        rw [memUpdate_of_not_drawn mask v hle hdrawn]
        refine .inr ⟨rfl, [], .rd a .fail, .rd a (.ok (s.reg a)), es, rfl, ?_, rfl, beq_self_eq_true a⟩
        exact hes.trans (List.append_assoc _ _ _)
      · have hplain : PlainTarget (updateRead a (s.reg a) s) := hs.useAnswer
        rw [memUpdate_of_drawn mask v hle hdrawn]
        exact (hwrite.compare _ hplain).imp id fun ⟨hend, hshort⟩ =>
          ⟨hend, hshort.of_prior (updateRead_trace a (s.reg a) s)⟩

theorem abortSeq_stopsShort {ps : List Step} (h : ∀ p ∈ ps, StopsShort .fail p) : StopsShort .fail (abortSeq ps) := by
  induction ps with
  | nil => exact ⟨pure_cuttable _, fun _ _ => .inl rfl⟩
  | cons p ps ih =>
    exact (h p (by simp)).andThen (ih fun q hq => h q (by simp [hq]))
      (abortSeq_cuttable fun q hq => (h q hq).cuttable) abortSeq_cons_ok abortSeq_cons_fail

theorem sleepOff_stopsShort : StopsShort .fail sleepOff :=
  abortSeq_stopsShort fun p hp => by
    rcases List.mem_pair.mp hp with rfl | rfl
    · exact memUpdate_stopsShort _ _ _
    · exact settle_stopsShort _

theorem setChannelBrightness_stopsShort (ch : Channel) (brt cur : Byte) :
    StopsShort .fail (setChannelBrightness ch brt cur) where
  cuttable := setChannelBrightness_cuttable ch brt cur
  compare s hs :=
    (abortSeq_stopsShort (ps := sleepOff :: channelSteps s.cfg ch brt cur) <| List.forall_mem_cons.mpr
      ⟨sleepOff_stopsShort, forall_channelSteps (memWrite_stopsShort _ _) (memUpdate_stopsShort _ _ _)
        (memUpdate_stopsShort _ _ _)⟩).compare s hs

theorem getChannelBrightness_stopsShort (ch : Channel) : StopsShort .fail (getChannelBrightness ch) :=
  sleepOff_stopsShort.andThen (memRead_stopsShort (brtAddr ch)) (getChannelBrightness_cuttable ch)
    (fun h => by rw [getChannelBrightness, h]) (fun h => by rw [getChannelBrightness, h])

theorem applySteps_stopsShort (c : Config) (tblIdx pct : Byte) :
    StopsShort .fail (abortSeq (applySteps c tblIdx pct)) := by
  refine abortSeq_stopsShort fun p hp => ?_
  unfold applySteps at hp
  split at hp
  · rcases List.mem_pair.mp hp with rfl | rfl <;> exact setChannelBrightness_stopsShort _ _ _
  · simp only [blendSteps, List.mem_cons, List.not_mem_nil, or_false] at hp
    rcases hp with rfl | rfl | rfl | rfl | rfl
    · exact romRead_stopsShort
    · exact romRead_stopsShort
    · exact setChannelBrightness_stopsShort _ _ _
    · exact setChannelBrightness_stopsShort _ _ _
    · exact memUpdate_stopsShort _ _ _

/-- The run to `t` and the unfailing one to `u` emit the same events, or the first stopped short. -/
def TraceAgrees (s t u : State) : Prop := u.trace = t.trace ∨ StoppedShort s t u

theorem StopsShort.traceAgrees {α : Type} {bad : α} {p : State → α × State} (h : StopsShort bad p) {s : State}
    (hs : PlainTarget s) : TraceAgrees s (p s).2 (p s.unfailing).2 := by
  rcases h.compare s hs with hsame | ⟨-, hshort⟩
  · rw [hsame]
    exact .inl rfl
  · exact .inr hshort

theorem curveRead_unfailing (pct : Byte) (s : State) : curveRead pct s.unfailing = (curveRead pct s).unfailing := by
  unfold curveRead
  split <;> rfl

theorem abortPart_traceAgrees (i : Instr) {s : State} (hs : PlainTarget s) :
    TraceAgrees s (abortPart i s).2 (abortPart i s.unfailing).2 := by
  cases i with
  | rd a =>
    simp only [abortPart, readRun_snd]
    exact (memRead_stopsShort a).traceAgrees hs
  | wr a v => exact (memWrite_stopsShort a v).traceAgrees hs
  | upd a mask v => exact (memUpdate_stopsShort a mask v).traceAgrees hs
  | setch ch brt cur => exact (setChannelBrightness_stopsShort ch brt cur).traceAgrees hs
  | getch ch | blget ch =>
    simp only [abortPart, readRun_snd]
    exact (getChannelBrightness_stopsShort ch).traceAgrees hs
  | blset ch brt => exact (setChannelBrightness_stopsShort ch brt _).traceAgrees hs
  | blpct ch pct =>
    obtain ⟨es, hes⟩ := (curveRead_cuttable pct).trace_append s
    simp only [abortPart, curveRead_unfailing]
    exact ((setChannelBrightness_stopsShort ch _ _).traceAgrees ((curveRead_cuttable pct).plainTarget hs)).imp id
      (StoppedShort.of_prior hes)
  | flapply pct | vset pct =>
    exact (applySteps_stopsShort s.cfg s.tblIdx pct).traceAgrees (s := s.setLastPct pct) hs
  | stat | init | shutdown | pct2raw | flsel | flidx | vget => exact .inl rfl

theorem outOfRange_unfailing (i : Instr) (s : State) : outOfRange i s.unfailing = outOfRange i s := by
  cases i <;> rfl

/-- A command is turned away in both runs, or answers for its part in both. -/
theorem exec_traceAgrees {i : Instr} {s t u : State} {v : Byte} (hv : abortValue s.cfg i = some v)
    (hs : PlainTarget s) (ht : exec i s = .next t) (hu : exec i s.unfailing = .next u) : TraceAgrees s t u := by
  cases ha : admitted i s with
  | false =>
    obtain rfl := Host.Outcome.next.inj ((exec_of_not_admitted ha).symm.trans ht)
    obtain rfl := Host.Outcome.next.inj ((exec_of_not_admitted (s := s.unfailing) ha).symm.trans hu)
    exact .inl rfl
  | true =>
    cases hr : outOfRange i s with
    | true =>
      obtain rfl := Host.Outcome.next.inj ((exec_of_outOfRange ha hr).symm.trans ht)
      rw [← outOfRange_unfailing] at hr
      obtain rfl := Host.Outcome.next.inj ((exec_of_outOfRange (s := s.unfailing) ha hr).symm.trans hu)
      exact .inl rfl
    | false =>
      obtain ⟨w, hexec, -⟩ := exec_answersFor hv ha hr
      obtain rfl := Host.Outcome.next.inj (hexec.symm.trans ht)
      rw [← outOfRange_unfailing] at hr
      obtain ⟨w', hexec', -⟩ := exec_answersFor (s := s.unfailing) hv ha hr
      obtain rfl := Host.Outcome.next.inj (hexec'.symm.trans hu)
      exact abortPart_traceAgrees i hs

/-- Settles O37: the two runs of the command agree, or the first stopped short (`exec_traceAgrees`). -/
theorem abortedTraceIsAPrefixOfTheFaultFreeTrace : Obligations.AbortedTraceIsAPrefixOfTheFaultFreeTrace := by
  intro i s t u v hv hs ht hu
  rcases exec_traceAgrees hv hs ht hu with heq | ⟨pre, last, last', rest, hes, hfs, hfailed, haccess⟩
  · obtain ⟨es, hes, -⟩ := (exec_commandEffect ht).trace
    exact ⟨es, es, hes, heq.trans hes, .inl rfl⟩
  · exact ⟨_, _, hes, hfs, .inr ⟨pre, last, last', rest, rfl, rfl, hfailed, haccess⟩⟩

/-! #### INIT with failures (R162) -/

/-- How a detached INIT ends, from how its steps ended. -/
theorem exec_init_end {s : State} (hs : s.attached = false) :
    ∃ t, exec .init s = .next t ∧ t.railEn = true ∧ t.tblIdx = 0 ∧ t.lastPct = 0 ∧
      t.trace = (aggregateSeq (initSteps s.cfg) (initStart s)).2.trace ∧
      t.errlog = (aggregateSeq (initSteps s.cfg) (initStart s)).2.errlog ∧
      ((aggregateSeq (initSteps s.cfg) (initStart s)).1 = .ok → t.rsp = 0x0000 ∧ t.attached = true) ∧
      ((aggregateSeq (initSteps s.cfg) (initStart s)).1 = .fail → t.rsp = 0x0200 ∧ t.attached = false) := by
  have hblock := (init_effect s.cfg (initStart s)).block
  have hrail := hblock.railEn.trans (initStart_railEn s)
  have htbl := hblock.tblIdx.trans (initStart_tblIdx s)
  have hpct := hblock.lastPct.trans (initStart_lastPct s)
  rcases exec_init_cases s hs with ⟨hend, h⟩ | ⟨hend, h⟩
  · refine ⟨_, h, hrail, htbl, hpct, rfl, rfl, fun _ => ⟨rfl, rfl⟩, fun hfail => ?_⟩
    rw [hend] at hfail; cases hfail
  · refine ⟨_, h, hrail, htbl, hpct, rfl, rfl, fun hok => ?_, fun _ => ⟨rfl, hblock.attached.trans hs⟩⟩
    rw [hend] at hok; cases hok

/-- Settles O16: the events are those of the aggregating sequence (`init_run`), which ends well exactly if none of them
failed and the filter address is valid; `exec_cases` says that no other command answers `ERR_INIT`. -/
theorem initAttemptsAllStepsAndAggregates : Obligations.InitAttemptsAllStepsAndAggregates := by
  refine ⟨fun s hs => ?_, fun i s t h hinit => ?_⟩
  · obtain ⟨filter, config, boost, curA, curB, leda, ledb, brtA, brtB, hrun, hvalid, hrefused, hconfig, hleda, hledb⟩ :=
      init_run s.cfg (initStart s)
    obtain ⟨t, hexec, hrail, htbl, hpct, htrace, herr, hok, hfail⟩ := exec_init_end hs
    have hiff : (aggregateSeq (initSteps s.cfg) (initStart s)).1 = .ok ↔
        (∀ e ∈ filter ++ config ++ leda ++ ledb, e.failed = false) ∧ boost = .ok ∧ curA = .ok ∧ curB = .ok ∧
          brtA = .ok ∧ brtB = .ok ∧ s.cfg.aFilter ≤ 0x1F := by
      rw [hrun.ok]
      simp only [List.forall_mem_append]
      tauto
    refine ⟨t, hexec, hrail, htbl, hpct, filter, config, boost, curA, curB, leda, ledb, brtA, brtB, ?_, hvalid,
      hrefused, hconfig, hleda, hledb, fun hgood => ?_, fun hbad => ?_⟩
    · rw [htrace, hrun.trace, initStart_trace]
      simp [initEvents]
    · have hend := hiff.mpr hgood
      obtain ⟨hrsp, hattached⟩ := hok hend
      exact ⟨hrsp, hattached, herr.trans ((hrun.good hend).trans (initStart_errlog s))⟩
    · have hend : (aggregateSeq (initSteps s.cfg) (initStart s)).1 = .fail := by
        cases hr : (aggregateSeq (initSteps s.cfg) (initStart s)).1 with
        | ok => exact absurd (hiff.mp hr) hbad
        | fail => rfl
      obtain ⟨hrsp, hattached⟩ := hfail hend
      exact ⟨hrsp, hattached, herr.trans (hrun.bad hend)⟩
  · rcases exec_cases h with ⟨-, rfl⟩ | ⟨-, -, rfl⟩ | ⟨-, -, -, himp⟩
    · simp at hinit
    · simp at hinit
    · exact himp hinit

/-! #### `errlog` and the behaviour of a command (R169) -/

/-- Settles O56: two states that differ in `errlog` are alike, and all commands but STAT keep them in lockstep. -/
theorem errlogChangesNoBehaviour : Obligations.ErrlogChangesNoBehaviour := by
  intro i s t e hi ht
  obtain ⟨u, u', st, v, hu, hu', k⟩ :=
    exec_lockstep (i := i) (s' := { s with errlog := e }) (Alike.refl s) (absurd · hi)
  obtain rfl := Host.Outcome.next.inj (hu.symm.trans ht)
  refine ⟨_, hu', Eq.symm ?_⟩
  exact Alike.eq (k.alike.responded st v) (k.trace_eq rfl) rfl rfl (k.cmd_eq rfl) rfl (k.tmp_eq rfl)

end Sys2Proof.Machine

/-! ### Reset and the invariant (O47 to O49, O51)

The invariant at reset and over a step, the two bounds, and a reset between commands. -/

namespace Sys2Proof.Machine

/-! #### The invariant (R191) -/

/-- Reset meets the invariant for every well-formed configuration. -/
theorem inv_resetWith {c : Config} (h : c.wf = true) : Inv (State.resetWith c) where
  cfg := h
  chip := rfl
  idle := ⟨rfl, rfl⟩
  tblIdx := BitVec.le_def.mpr (Nat.zero_le _)
  lastPct := BitVec.le_def.mpr (Nat.zero_le _)
  trace _ he := nomatch he

/-- The reset of the block leaves of the invariant what is not the block's: the configuration and the chip. -/
theorem inv_blockReset {s : State} (hcfg : s.cfg.wf = true) (hchip : Memory.wf s.chip = true) : Inv (blockReset s) :=
  { inv_resetWith hcfg with chip := hchip }

/-- A word run from a state that meets the invariant but for being in progress. -/
theorem inv_of_runWord {w : CommandWord} {s t : State} (hs : Inv { s with busy := false, step := 0 })
    (h : runWord w s = .next t) : Inv t := by
  have heffect := runWord_commandEffect h
  obtain ⟨es, hes, hrange⟩ := heffect.trace
  refine ⟨?_, heffect.chip hs.chip, runWord_idle h, heffect.tblIdx hs.tblIdx, heffect.lastPct hs.lastPct, ?_⟩
  · rw [heffect.cfg]
    exact hs.cfg
  · rw [hes]
    exact fun e he => (List.mem_append.mp he).elim (hs.trace e) (hrange e)

/-- Settles O48: a cut command and a reset leave a reset block over a well-formed configuration and chip, and a word
run is a `CommandEffect`. -/
theorem everyStepKeepsTheInvariant : Obligations.EveryStepKeepsTheInvariant := by
  intro s t hs h
  rcases step_cases h with ⟨n, taken, w, rest, u, -, -, -, hrun, rfl⟩ | ⟨-, rfl⟩ | ⟨w, rest, -, -, -, hrun⟩ | ⟨-, rfl⟩
  · have heffect := runWord_commandEffect hrun
    exact inv_blockReset ((congrArg Config.wf heffect.cfg).trans hs.cfg) (heffect.chip hs.chip)
  · exact inv_blockReset hs.cfg hs.chip
  · exact inv_of_runWord (s := accept w rest s) ⟨hs.cfg, hs.chip, ⟨rfl, rfl⟩, hs.tblIdx, hs.lastPct, hs.trace⟩ hrun
  · exact hs

theorem step_keeps_lastPct {s t : State} (h : step s = .next t) (hs : s.lastPct ≤ 100) : t.lastPct ≤ 100 := by
  rcases step_cases h with ⟨n, taken, w, rest, u, -, -, -, -, rfl⟩ | ⟨-, rfl⟩ | ⟨w, rest, -, -, -, hrun⟩ | ⟨-, rfl⟩
  · exact BitVec.le_def.mpr (Nat.zero_le _)
  · exact BitVec.le_def.mpr (Nat.zero_le _)
  · exact (runWord_commandEffect hrun).lastPct hs
  · exact hs

/-- Settles O47: the fixture is well-formed. -/
theorem invariantHoldsAtReset : Obligations.InvariantHoldsAtReset := inv_resetWith (by decide +kernel)

/-- Settles O49: the reset values stand in `State.resetWith`, and each bound is kept by a reset and by a word run. -/
theorem resetValuesAndBounds : Obligations.ResetValuesAndBounds :=
  ⟨fun _ => ⟨rfl, rfl, rfl, rfl, rfl, rfl, rfl, rfl⟩, fun _ _ hs h => step_keeps_tblIdx h hs,
    fun _ _ hs h => step_keeps_lastPct h hs⟩

/-! #### A reset between commands (R190, R192) -/

theorem step_of_idle_reset {s : State} (h : s.resetIn = some .idle) : step s = .next (blockReset s) := by
  simp [step, h]

/-- Settles O51: the step is `blockReset`. -/
theorem idleResetSparesTheChip : Obligations.IdleResetSparesTheChip := fun s h =>
  ⟨blockReset s, step_of_idle_reset h, rfl, rfl, rfl, rfl, ⟨rfl, rfl⟩, rfl, rfl, rfl, rfl, rfl, rfl⟩

end Sys2Proof.Machine

/-! ### What a command is made of

Every command is a sequence of accesses and of the block's own micro-steps (`BusProgram`). What is true of any such
sequence is proved by induction on it, once for all commands. -/

namespace Sys2Proof.Machine

/-! #### Sequences of accesses (R13, R14) -/

/-- A micro-step of the block itself: no transaction, no draw used, the chip and the configuration as before. -/
structure OwnStep (s t : State) : Prop where
  cfg : t.cfg = s.cfg
  chip : t.chip = s.chip
  answers : t.answers = s.answers
  answerRest : t.answerRest = s.answerRest
  trace : ∃ es, t.trace = s.trace ++ es ∧ busEvents es = []

theorem OwnStep.refl (s : State) : OwnStep s s := ⟨rfl, rfl, rfl, rfl, [], by simp, rfl⟩

/-- From a state with the configuration `c`, the function does reads, writes, masked updates and the block's own
micro-steps one after another. A failure may break it off between two of them; unless one fails, all are done. -/
inductive BusProgram (c : Config) : (State → State) → Prop where
  | nil : BusProgram c fun s => s
  | read (a : Byte) : BusProgram c fun s => (memRead a s).2
  | write (a v : Byte) : BusProgram c fun s => (memWrite a v s).2
  | update (a mask v : Byte) : BusProgram c fun s => (memUpdate a mask v s).2
  | own {f h : State → State} (hf : BusProgram c f) (hown : ∀ s, s.cfg = c → OwnStep (f s) (h s)) : BusProgram c h
  | andThen {f g h : State → State} (hf : BusProgram c f) (hg : BusProgram c g)
      (hall : ∀ s, s.cfg = c → FaultFree s → h s = g (f s))
      (hany : ∀ s, s.cfg = c → h s = g (f s) ∨ h s = f s) : BusProgram c h

section
variable {c : Config}

theorem BusProgram.congr {f g : State → State} (hf : BusProgram c f) (h : ∀ s, s.cfg = c → g s = f s) :
    BusProgram c g := hf.own fun s hs => h s hs ▸ .refl _

theorem BusProgram.comp {f g : State → State} (hf : BusProgram c f) (hg : BusProgram c g) :
    BusProgram c fun s => g (f s) := hf.andThen hg (fun _ _ _ => rfl) fun _ _ => .inl rfl

/-- A part of a sequence that is such a program, and that ends well unless a transaction fails. -/
structure BusPart (c : Config) (p : Step) : Prop where
  program : BusProgram c fun s => (p s).2
  ends : ∀ s, FaultFree s → (p s).1 = .ok

theorem memWrite_busPart {a : Byte} (v : Byte) (ha : a ≤ ADDR_MAX) : BusPart c (memWrite a v) :=
  ⟨.write a v, fun _ hs => congrArg Prod.fst (memWrite_faultFree v hs ha)⟩

theorem memUpdate_busPart {a : Byte} (mask v : Byte) (ha : a ≤ ADDR_MAX) : BusPart c (memUpdate a mask v) :=
  ⟨.update a mask v, fun _ hs => congrArg Prod.fst (memUpdate_faultFree mask v hs ha)⟩

theorem settle_busPart (k : DelayKind) : BusPart c (settle k) :=
  ⟨.own .nil fun _ _ => ⟨rfl, rfl, rfl, rfl, [.delay k], rfl, rfl⟩, fun _ _ => rfl⟩

theorem romRead_busPart : BusPart c romRead :=
  ⟨.own .nil fun _ _ => ⟨rfl, rfl, rfl, rfl, [], by simp [romRead_eq], rfl⟩, fun _ _ => rfl⟩

theorem abortSeq_program {ps : List Step} (h : ∀ p ∈ ps, BusPart c p) : BusProgram c fun s => (abortSeq ps s).2 := by
  induction ps with
  | nil => exact .nil
  | cons p ps ih =>
    have hp := h p (by simp)
    refine hp.program.andThen (ih fun q hq => h q (by simp [hq])) (fun s _ hfree => ?_) fun s _ => ?_
    · have hok := hp.ends s hfree
      rcases hps : p s with ⟨_ | _, t⟩
      · rw [abortSeq_cons_ok hps]
      · rw [hps] at hok; cases hok
    · rcases hps : p s with ⟨_ | _, t⟩
      · exact .inl (by rw [abortSeq_cons_ok hps])
      · exact .inr (by rw [abortSeq_cons_fail hps])

theorem aggregateSeq_program {ps : List Step} (h : ∀ p ∈ ps, BusProgram c fun s => (p s).2) :
    BusProgram c fun s => (aggregateSeq ps s).2 := by
  induction ps with
  | nil => exact .nil
  | cons p ps ih =>
    exact ((h p (by simp)).comp (ih fun q hq => h q (by simp [hq]))).congr fun s _ => (aggregateSeq_cons p ps s).1

/-! #### The commands' sequences -/

theorem sleepOff_busPart : BusPart c sleepOff where
  program := abortSeq_program fun p hp => by
    rcases List.mem_pair.mp hp with rfl | rfl
    · exact memUpdate_busPart _ _ A_CTRL_le
    · exact settle_busPart _
  ends _ hs := congrArg Prod.fst (sleepOff_faultFree hs)

theorem setChannelBrightness_busPart (ch : Channel) (brt cur : Byte) :
    BusPart c (setChannelBrightness ch brt cur) where
  program := by
    have hsteps : ∀ p ∈ sleepOff :: channelSteps c ch brt cur, BusPart c p := List.forall_mem_cons.mpr
      ⟨sleepOff_busPart, forall_channelSteps (memWrite_busPart _ (brtAddr_le ch))
        (memUpdate_busPart _ _ (curAddr_le ch)) (memUpdate_busPart _ _ A_CTRL_le)⟩
    exact (abortSeq_program hsteps).congr fun s hs => by rw [setChannelBrightness_eq, hs]
  ends _ hs := congrArg Prod.fst (setChannelBrightness_faultFree ch brt cur hs)

theorem getChannelBrightness_program (ch : Channel) : BusProgram c fun s => (getChannelBrightness ch s).2 := by
  refine sleepOff_busPart.program.andThen (.read (brtAddr ch)) (fun s _ hfree => ?_) fun s _ => ?_
  · rw [getChannelBrightness, sleepOff_faultFree hfree]
  · rw [getChannelBrightness]
    rcases sleepOff s with ⟨_ | _, t⟩
    · exact .inl rfl
    · exact .inr rfl

theorem applySteps_program (tblIdx pct : Byte) : BusProgram c fun s => (abortSeq (applySteps c tblIdx pct) s).2 := by
  refine abortSeq_program fun p hp => ?_
  unfold applySteps at hp
  split at hp
  · rcases List.mem_pair.mp hp with rfl | rfl <;> exact setChannelBrightness_busPart _ _ _
  · simp only [blendSteps, List.mem_cons, List.not_mem_nil, or_false] at hp
    rcases hp with rfl | rfl | rfl | rfl | rfl
    · exact romRead_busPart
    · exact romRead_busPart
    · exact setChannelBrightness_busPart _ _ _
    · exact setChannelBrightness_busPart _ _ _
    · exact memUpdate_busPart _ _ A_CTRL_le

/-- applyPercentage through the table `tblIdx`. -/
theorem applyPercentage_program (tblIdx pct : Byte) :
    ∃ f, BusProgram c f ∧ ∀ s, s.cfg = c → s.tblIdx = tblIdx → (applyPercentage pct s).2 = f s := by
  by_cases hbad : 3 ≤ tblIdx ∨ PCT_MAX < pct
  · exact ⟨_, .nil, fun s _ htbl => by rw [applyPercentage_of_outOfRange (htbl ▸ hbad)]⟩
  · have hlast : BusProgram c (State.setLastPct pct) := .own .nil fun s _ => ⟨rfl, rfl, rfl, rfl, [], by simp, rfl⟩
    refine ⟨_, hlast.comp (applySteps_program tblIdx pct), fun s hs htbl => ?_⟩
    rw [applyPercentage_of_inRange (htbl ▸ hbad), applied_snd, hs, htbl]

theorem initSteps_program : BusProgram c fun s => (aggregateSeq (initSteps c) s).2 := by
  refine aggregateSeq_program fun p hp => ?_
  simp only [initSteps, List.mem_cons, List.not_mem_nil, or_false] at hp
  rcases hp with rfl | rfl | rfl | rfl | rfl | rfl | rfl | rfl | rfl | rfl
  · exact .write _ _
  · exact .update _ _ _
  · exact .write _ _
  · exact .write _ _
  · exact .write _ _
  · exact .update _ _ _
  · exact .update _ _ _
  · exact (settle_busPart _).program
  · exact .write _ _
  · exact .write _ _

theorem shutdownSteps_program : BusProgram c fun s => (aggregateSeq shutdownSteps s).2 :=
  aggregateSeq_program fun p hp => by
    rcases List.mem_pair.mp hp with rfl | rfl <;> exact .write _ _

theorem initStart_ownStep (s : State) : OwnStep s (initStart s) :=
  ⟨initStart_cfg s, initStart_chip s, initStart_answers s, initStart_answerRest s, _, initStart_trace s, rfl⟩

theorem setAttached_ownStep (v : Bool) (s : State) : OwnStep s (s.setAttached v) :=
  ⟨rfl, rfl, rfl, rfl, [], by simp, rfl⟩

theorem curveRead_program (pct : Byte) : BusProgram c (curveRead pct) := by
  by_cases h : pct = 0
  · exact BusProgram.nil.congr fun s _ => if_pos h
  · exact romRead_busPart.program.congr fun s _ => if_neg h

end

/-- What a command makes its sequence from: the configuration, and the register of the blender that it reads. -/
def seen : Instr → State → Config × Byte
  | .flsel _, s => (s.cfg, s.lastPct)
  | .flapply _, s | .vset _, s => (s.cfg, s.tblIdx)
  | _, s => (s.cfg, 0)

theorem seen_fst (i : Instr) (s : State) : (seen i s).1 = s.cfg := by cases i <;> rfl

/-- A command runs one program from all states in which it sees the same. -/
theorem commandSequence_program (i : Instr) (s : State) :
    ∃ f, BusProgram s.cfg f ∧ ∀ t, seen i t = seen i s → commandSequence i t = f t := by
  have hcfg : ∀ {t}, seen i t = seen i s → t.cfg = s.cfg := fun ht => by
    rw [← seen_fst i, ht, seen_fst]
  cases i with
  | rd a => exact ⟨_, .read a, fun _ _ => rfl⟩
  | wr a v => exact ⟨_, .write a v, fun _ _ => rfl⟩
  | upd a mask v => exact ⟨_, .update a mask v, fun _ _ => rfl⟩
  | init =>
    have hstart : BusProgram s.cfg initStart := .own .nil fun t _ => initStart_ownStep t
    refine ⟨commandSequence .init, (hstart.comp initSteps_program).own fun t ht => ?_, fun _ _ => rfl⟩
    rw [commandSequence_init, ht]
    split
    · exact setAttached_ownStep true _
    · exact .refl _
  | setch ch brt cur => exact ⟨_, (setChannelBrightness_busPart ch brt cur).program, fun _ _ => rfl⟩
  | getch ch | blget ch => exact ⟨_, getChannelBrightness_program ch, fun _ _ => rfl⟩
  | shutdown => exact ⟨_, shutdownSteps_program.own fun t _ => setAttached_ownStep false _, fun _ _ => rfl⟩
  | pct2raw ch pct => exact ⟨_, curveRead_program pct, fun _ _ => rfl⟩
  | flsel idx =>
    by_cases hidx : 3 ≤ idx
    · exact ⟨_, .nil, fun t _ => by rw [commandSequence_flsel, if_pos hidx]⟩
    · obtain ⟨f, hf, happly⟩ := applyPercentage_program (c := s.cfg) idx s.lastPct
      have htbl : BusProgram s.cfg (State.setTblIdx idx) :=
        .own .nil fun s _ => ⟨rfl, rfl, rfl, rfl, [], by simp, rfl⟩
      refine ⟨_, htbl.comp hf, fun t ht => ?_⟩
      have hlast : t.lastPct = s.lastPct := congrArg Prod.snd ht
      rw [commandSequence_flsel, if_neg hidx, selectTable, hlast]
      exact happly (t.setTblIdx idx) (hcfg (t := t) ht) rfl
  | flapply pct | vset pct =>
    obtain ⟨f, hf, happly⟩ := applyPercentage_program (c := s.cfg) s.tblIdx pct
    exact ⟨f, hf, fun t ht => happly t (hcfg ht) (congrArg Prod.snd ht)⟩
  | blset ch brt =>
    by_cases hmax : pick s.cfg.maxBrt ch < brt
    · exact ⟨_, .nil, fun t ht => by rw [commandSequence_blset, if_pos (hcfg ht ▸ hmax)]⟩
    · refine ⟨_, (setChannelBrightness_busPart ch brt (pick s.cfg.fullScale ch)).program, fun t ht => ?_⟩
      rw [commandSequence_blset, hcfg ht, if_neg hmax]
  | blpct ch pct =>
    by_cases hmax : pick s.cfg.maxBrt ch < percentToRaw s.cfg ch pct
    · exact ⟨_, curveRead_program pct, fun t ht => by rw [commandSequence_blpct, hcfg ht, if_pos hmax]⟩
    · refine ⟨_, (curveRead_program pct).comp (setChannelBrightness_busPart ch (percentToRaw s.cfg ch pct)
        (pick s.cfg.fullScale ch)).program, fun t ht => ?_⟩
      rw [commandSequence_blpct, hcfg ht, if_neg hmax]
  | stat | flidx | vget => exact ⟨_, .nil, fun _ _ => rfl⟩

end Sys2Proof.Machine

/-! ### A reset inside a command (O52)

The chip that a cut leaves is said by `CutRun`, for a cut anywhere in the command. That an in-flight transaction which is
taken equals an answered one takes that a write fails only by its draw (`Transacted`). -/

namespace Sys2Proof.Machine

/-! #### The draws behind the events (R46, R47) -/

/-- From `s` to `t` the transactions took their draws off the front, and a write failed only by its own. -/
structure Transacted (s t : State) : Prop where
  cfg : t.cfg = s.cfg
  chip_wf : Memory.wf s.chip = true → Memory.wf t.chip = true
  answerRest : t.answerRest = s.answerRest
  events : ∃ es, t.trace = s.trace ++ es ∧ t.answers = s.answers.drop (busEvents es).length ∧
    ∀ (k : Nat) (a v : Byte), (busEvents es)[k]? = some (.wr a v .fail) → (s.answers.getD k s.answerRest).fails = true

theorem OwnStep.transacted {s t : State} (h : OwnStep s t) : Transacted s t := by
  obtain ⟨es, hes, hbus⟩ := h.trace
  exact ⟨h.cfg, h.chip.symm ▸ id, h.answerRest, es, hes, by simp [hbus, h.answers], by simp [hbus]⟩

theorem Transacted.refl (s : State) : Transacted s s := (OwnStep.refl s).transacted

theorem Transacted.trans {s t u : State} (h : Transacted s t) (k : Transacted t u) : Transacted s u := by
  obtain ⟨es, hes, hdrop, hfail⟩ := h.events
  obtain ⟨fs, hfs, kdrop, kfail⟩ := k.events
  refine ⟨k.cfg.trans h.cfg, fun hwf => k.chip_wf (h.chip_wf hwf), k.answerRest.trans h.answerRest, es ++ fs,
    by rw [hfs, hes, List.append_assoc], ?_, fun n a v hn => ?_⟩
  · rw [kdrop, hdrop, busEvents_append, List.length_append, List.drop_drop]
  · rw [busEvents_append] at hn
    by_cases hlt : n < (busEvents es).length
    · rw [List.getElem?_append_left hlt] at hn
      exact hfail n a v hn
    · rw [List.getElem?_append_right (Nat.not_lt.mp hlt)] at hn
      have hdraw := kfail _ a v hn
      rw [hdrop, h.answerRest, List.getD_eq_getElem?_getD, List.getElem?_drop,
        Nat.add_sub_cancel' (Nat.not_lt.mp hlt), ← List.getD_eq_getElem?_getD] at hdraw
      exact hdraw

theorem busEvents_singleton {e : Event} (h : e.onBus = true) : busEvents [e] = [e] := List.filter_cons_of_pos h

theorem nextAnswer_eq_getD (s : State) : s.nextAnswer = s.answers.getD 0 s.answerRest := by
  rw [State.nextAnswer, List.headD_eq_head?_getD, List.head?_eq_getElem?, List.getD_eq_getElem?_getD]

/-- An access that is refused, with no transaction. -/
theorem transacted_logBusError (s : State) : Transacted s s.logBusError :=
  OwnStep.transacted ⟨rfl, rfl, rfl, rfl, [], by simp, rfl⟩

/-- An access that is one transaction. -/
theorem BusEffect.transacted {W : List Byte} {s t : State} (h : BusEffect W s t) {e : Event} (hbus : e.onBus = true)
    (htrace : t.trace = s.trace ++ [e]) (hanswers : t.answers = s.answers.tail)
    (hfail : ∀ a v, e = .wr a v .fail → s.nextAnswer.fails = true) : Transacted s t := by
  refine ⟨h.block.cfg, h.chip_wf, h.block.answerRest, [e], htrace, ?_, fun k a v hk => ?_⟩
  · rw [hanswers, busEvents_singleton hbus, List.length_singleton, List.drop_one]
  · rw [busEvents_singleton hbus, List.getElem?_singleton] at hk
    split at hk
    · next h0 =>
      rw [h0, ← nextAnswer_eq_getD]
      exact hfail a v (Option.some.inj hk)
    · cases hk

theorem memRead_transacted (a : Byte) (s : State) : Transacted s (memRead a s).2 := by
  by_cases ha : ADDR_MAX < a
  · rw [memRead_of_refused ha]
    exact transacted_logBusError s
  · have heffect := memRead_effect [] a s
    rcases memRead_cases (le_of_not_gt_addr ha) s with ⟨b, h⟩ | h <;> rw [h] at heffect ⊢
    · exact heffect.transacted (e := .rd a (.ok b)) rfl rfl rfl fun _ _ he => nomatch he
    · exact heffect.transacted (e := .rd a .fail) rfl rfl rfl fun _ _ he => nomatch he

theorem memWrite_transacted (a v : Byte) (s : State) : Transacted s (memWrite a v s).2 := by
  by_cases ha : ADDR_MAX < a
  · rw [memWrite_of_refused v ha]
    exact transacted_logBusError s
  · have hle := le_of_not_gt_addr ha
    refine (memWrite_effect v (List.mem_singleton_self a) s).transacted rfl (ran_write v hle s).trace
      (memWrite_answers v hle s) fun b w he => ?_
    cases hfails : s.nextAnswer.fails with
    | true => rfl
    | false =>
      rw [memWrite_of_succeeds v hle hfails] at he
      cases he

theorem memUpdate_transacted (a mask v : Byte) (s : State) : Transacted s (memUpdate a mask v s).2 := by
  have hread := memRead_transacted a s
  unfold memUpdate
  rcases hps : memRead a s with ⟨b | _, t⟩ <;> rw [hps] at hread
  · have htmp : OwnStep t (t.setTmp b) := ⟨rfl, rfl, rfl, rfl, [], by simp, rfl⟩
    exact (hread.trans htmp.transacted).trans (memWrite_transacted _ _ _)
  · exact hread

/-- Whatever fails. -/
theorem BusProgram.transacted {c : Config} {f : State → State} (hf : BusProgram c f) {s : State} (hs : s.cfg = c) :
    Transacted s (f s) := by
  induction hf generalizing s with
  | nil => exact .refl s
  | read a => exact memRead_transacted a s
  | write a v => exact memWrite_transacted a v s
  | update a mask v => exact memUpdate_transacted a mask v s
  | own _ hown ih => exact (ih hs).trans (hown s hs).transacted
  | andThen _ _ _ hany ihf ihg =>
    have hfirst := ihf hs
    rcases hany s hs with h | h <;> rw [h]
    · exact hfirst.trans (ihg (hfirst.cfg.trans hs))
    · exact hfirst

theorem commandSequence_transacted (i : Instr) (s : State) : Transacted s (commandSequence i s) := by
  obtain ⟨f, hf, hrun⟩ := commandSequence_program i s
  rw [hrun s rfl]
  exact hf.transacted rfl

theorem beforeResponse_transacted (i : Instr) (s : State) : Transacted s (beforeResponse i s) := by
  unfold beforeResponse
  split
  · exact commandSequence_transacted i s
  · exact .refl s

/-! #### The chip of a cut command (R190) -/

/-- The chip a cut leaves, wherever it falls. -/
theorem CutRun.chip_cut {α : Type} {p : State → α × State} {s : State} {es : List Event} (h : CutRun p s es)
    (n : Nat) (taken : Bool) (r : Option ResetInput) :
    (p (s.cut n taken r)).2.chip =
      chipInFlight taken (busEvents es)[n]? (chipAfter ((busEvents es).take n) s.answers s.answerRest s.chip) := by
  by_cases hn : n < (busEvents es).length
  · exact (h.inside n taken r hn).2
  · have hle := Nat.not_lt.mp hn
    rw [h.after n taken r hle, List.getElem?_eq_none hle, List.take_of_length_le hle]
    exact h.chip

theorem chipInFlight_not_taken (e : Option Event) (m : Memory) : chipInFlight false e m = m := by
  rcases e with _ | ⟨_ | _ | _ | _⟩ <;> rfl

/-- A transaction in flight that is taken does what it does when it is answered, unless it is a write that fails. -/
theorem chipInFlight_taken {es : List Event} {n : Nat} (hgood : ∀ a v, es[n]? ≠ some (.wr a v .fail))
    (xs : List Answer) (x : Answer) (m : Memory) :
    chipInFlight true es[n]? (chipAfter (es.take n) xs x m) = chipAfter (es.take (n + 1)) xs x m := by
  rw [List.take_add_one, chipAfter_append]
  rcases hn : es[n]? with _ | ⟨_ | _ | _ | ⟨a, v, _ | _⟩⟩
  case wr.fail => exact absurd hn (hgood a v)
  all_goals rfl

/-- A word runs to a part that a reset can cut, and a response. -/
theorem runWord_cuttable (w : CommandWord) :
    ∃ p : State → Unit × State, Cuttable p ∧ ∀ s, Transacted s (p s).2 ∧
      ∃ st v, runWord w s = .next ((p s).2.responded st v) := by
  unfold runWord
  cases decode w with
  | command i => exact ⟨_, beforeResponse_cuttable i, fun s => ⟨beforeResponse_transacted i s, exec_beforeResponse i s⟩⟩
  | illegal why => exact ⟨_, pure_cuttable (), fun s => ⟨.refl s, _, _, rfl⟩⟩

theorem step_of_during {s : State} {n : Nat} {taken : Bool} {w : CommandWord} {rest : List CommandWord}
    (hreset : s.resetIn = some (.during n taken)) (hbusy : s.busy = false) (hport : s.port = w :: rest) :
    step s = runCut n taken w (accept w rest s) := by
  rw [step, hreset, hbusy, hport]

/-- The command that `s` offers, uncut and cut: its events and its chip, and what a reset leaves that cuts it. -/
theorem step_cut {s : State} {w : CommandWord} {rest : List CommandWord} (hbusy : s.busy = false)
    (hport : s.port = w :: rest) :
    ∃ u es, step { s with resetIn := none } = .next u ∧ u.trace = s.trace ++ es ∧
      u.chip = chipAfter (busEvents es) s.answers s.answerRest s.chip ∧
      (∀ (k : Nat) (a v : Byte), (busEvents es)[k]? = some (.wr a v .fail) →
        (s.answers.getD k s.answerRest).fails = true) ∧
      ∀ n taken, ∃ x, step { s with resetIn := some (.during n taken) } = .next (blockReset x) ∧ x.port = rest ∧
        x.cfg = s.cfg ∧ x.chip =
          chipInFlight taken (busEvents es)[n]? (chipAfter ((busEvents es).take n) s.answers s.answerRest s.chip) := by
  obtain ⟨p, hcut, hrun⟩ := runWord_cuttable w
  obtain ⟨es, hes⟩ := hcut.run (accept w rest { s with resetIn := none })
  obtain ⟨htransacted, st, v, hend⟩ := hrun (accept w rest { s with resetIn := none })
  obtain ⟨fs, hfs, -, hfail⟩ := htransacted.events
  obtain rfl : es = fs := List.append_cancel_left (hes.trace.symm.trans hfs)
  have huncut := step_of_offered (s := { s with resetIn := none }) rfl hbusy hport
  refine ⟨_, es, huncut.trans hend, hes.trace, hes.chip, hfail, fun n taken => ?_⟩
  obtain ⟨-, st', v', hcutEnd⟩ :=
    hrun ((accept w rest { s with resetIn := none }).cut n taken (some (.during n taken)))
  have heffect := runWord_commandEffect hcutEnd
  have hreset := step_of_during (s := { s with resetIn := some (.during n taken) }) rfl hbusy hport
  refine ⟨_, hreset.trans (congrArg (resetAfterCut (s.answers.drop (n + 1)) s.answerRest) hcutEnd), heffect.port,
    heffect.cfg, hes.chip_cut n taken _⟩

/-- Settles O52: `step_cut`, whose chip formula a reset before the first transaction, one past the last, and one after
a transaction instead of inside it are cases of. -/
theorem resetCutsACommandAtATransaction : Obligations.ResetCutsACommandAtATransaction := by
  intro s w rest n hbusy hport
  obtain ⟨u, es, hu, htrace, hchip, hfail, hcut⟩ := step_cut hbusy hport
  refine ⟨fun taken => ?_, fun taken => ?_, fun t t' hgood ht ht' => ?_⟩
  · obtain ⟨x, hx, hxport, hxcfg, hxchip⟩ := hcut n taken
    refine ⟨_, hx, hxport, hxcfg, rfl, ⟨rfl, rfl⟩, rfl, rfl, rfl, rfl, rfl, rfl, ?_⟩
    rintro rfl rfl
    exact hxchip.trans (chipInFlight_not_taken _ _)
  · obtain ⟨x, hx, -, -, hxchip⟩ := hcut n taken
    refine ⟨_, u, es, hx, hu, htrace, hxchip, fun hn => hxchip.trans ?_⟩
    rw [List.getElem?_eq_none hn, List.take_of_length_le hn]
    exact hchip.symm
  · obtain ⟨x, hx, -, -, hxchip⟩ := hcut n true
    obtain ⟨x', hx', -, -, hxchip'⟩ := hcut (n + 1) false
    obtain rfl := Host.Outcome.next.inj (hx.symm.trans ht)
    obtain rfl := Host.Outcome.next.inj (hx'.symm.trans ht')
    have hwrite : ∀ a v, (busEvents es)[n]? ≠ some (.wr a v .fail) := fun a v h => by
      rw [hfail n a v h] at hgood
      cases hgood
    exact hxchip.trans ((chipInFlight_taken hwrite _ _ _).trans (hxchip'.trans (chipInFlight_not_taken _ _)).symm)

end Sys2Proof.Machine

/-! ### Re-issuing a command (O55)

Of every bit of the chip a command's program either never changes it, whatever fails, or leaves it the same from every
state when nothing fails. A run with failures therefore changes only bits that the repetition sets. -/

namespace Sys2Proof.Machine

/-! #### Every bit is kept or set (R92, R198) -/

/-- A state with the configuration `c`, a store in canonical form and the reference target. -/
structure PlainAt (c : Config) (s : State) : Prop where
  cfg : s.cfg = c
  chip : Memory.wf s.chip = true
  plain : PlainTarget s

/-- One in which no transaction fails. -/
structure UnfailingAt (c : Config) (s : State) : Prop extends PlainAt c s where
  free : FaultFree s

theorem Transacted.plainAt {c : Config} {s t : State} (h : Transacted s t) (hs : PlainAt c s) : PlainAt c t := by
  obtain ⟨es, -, hdrop, -⟩ := h.events
  obtain ⟨hcfg, hchip, hplain, hrest⟩ := hs
  refine ⟨h.cfg.trans hcfg, h.chip_wf hchip, fun x hx => hplain x ?_, h.answerRest ▸ hrest⟩
  rw [hdrop] at hx
  exact List.mem_of_mem_drop hx

theorem Transacted.unfailingAt {c : Config} {s t : State} (h : Transacted s t) (hs : UnfailingAt c s) :
    UnfailingAt c t := by
  obtain ⟨es, -, hdrop, -⟩ := h.events
  have ht := h.plainAt hs.toPlainAt
  obtain ⟨-, -, hgood, hrest⟩ := hs
  refine ⟨ht, ht.plain, fun x hx => hgood x ?_, h.answerRest ▸ hrest⟩
  rw [hdrop] at hx
  exact List.mem_of_mem_drop hx

/-- The bit `k` of the register `a`. -/
def State.bit (a : Byte) (k : Nat) (s : State) : Bool := (s.reg a).getLsbD k

/-- Whatever fails, the function leaves the bit as it was. -/
def KeepsBit (c : Config) (f : State → State) (a : Byte) (k : Nat) : Prop :=
  ∀ s, PlainAt c s → (f s).bit a k = s.bit a k

/-- When nothing fails, the function leaves the bit the same from every state. -/
def SetsBit (c : Config) (f : State → State) (a : Byte) (k : Nat) : Prop :=
  ∀ s t, UnfailingAt c s → UnfailingAt c t → (f s).bit a k = (f t).bit a k

theorem maskedByte_getLsbD (old mask new : Byte) {k : Nat} (hk : k < 8) :
    (maskedByte old mask new).getLsbD k = if mask.getLsbD k then new.getLsbD k else old.getLsbD k := by
  rw [maskedByte, BitVec.getLsbD_or, BitVec.getLsbD_and, BitVec.getLsbD_and, BitVec.getLsbD_not]
  cases mask.getLsbD k <;> simp [hk]

section
variable {c : Config} {a b : Byte} {k : Nat}

theorem keepsBit_of_reg {f : State → State} (h : ∀ s, (f s).reg a = s.reg a) : KeepsBit c f a k :=
  fun s _ => congrArg (BitVec.getLsbD · k) (h s)

theorem memWrite_keeps_or_sets (v : Byte) :
    KeepsBit c (fun s => (memWrite b v s).2) a k ∨ SetsBit c (fun s => (memWrite b v s).2) a k := by
  by_cases hb : ADDR_MAX < b
  · exact .inl (keepsBit_of_reg fun s => by rw [memWrite_of_refused v hb]; rfl)
  · by_cases hab : a = b
    · subst hab
      have hset : ∀ s, UnfailingAt c s → (memWrite a v s).2.reg a = v := fun s hs => by
        rw [memWrite_faultFree v hs.free (le_of_not_gt_addr hb), afterWrite_reg_same hs.chip]
      refine .inr fun s t hs ht => ?_
      simp only [State.bit, hset s hs, hset t ht]
    · refine .inl (keepsBit_of_reg fun s => ?_)
      exact (memWrite_effect v (List.mem_singleton_self b) s).others a (mt List.mem_singleton.mp hab)

theorem memUpdate_keeps_or_sets (mask v : Byte) (hk : k < 8) :
    KeepsBit c (fun s => (memUpdate b mask v s).2) a k ∨ SetsBit c (fun s => (memUpdate b mask v s).2) a k := by
  by_cases hb : ADDR_MAX < b
  · exact .inl (keepsBit_of_reg fun s => by rw [memUpdate_of_refused mask v hb]; rfl)
  · have hle := le_of_not_gt_addr hb
    by_cases hab : a = b
    · subst hab
      cases hmask : mask.getLsbD k with
      | false =>
        refine .inl fun s hs => ?_
        rcases memUpdate_reg_cases hs.chip hs.plain mask v hle with h | h
        · simp only [State.bit, h, maskedByte_getLsbD _ _ _ hk, hmask, Bool.false_eq_true, if_false]
        · simp only [State.bit, h]
      | true =>
        have hset : ∀ s, UnfailingAt c s → (memUpdate a mask v s).2.bit a k = v.getLsbD k := fun s hs => by
          have hreg : (afterUpdate a mask v s).reg a = maskedByte (s.reg a) mask v :=
            afterWrite_reg_same (s := (afterRead a s).setTmp (s.reg a)) hs.chip a _
          rw [memUpdate_faultFree mask v hs.free hle, State.bit, hreg, maskedByte_getLsbD _ _ _ hk, if_pos hmask]
        exact .inr fun s t hs ht => (hset s hs).trans (hset t ht).symm
    · refine .inl (keepsBit_of_reg fun s => ?_)
      exact (memUpdate_effect mask v (List.mem_singleton_self b) s).others a (mt List.mem_singleton.mp hab)

/-- What is done last to a bit counts: it is set by the last access that sets it, and kept if none does. -/
theorem BusProgram.keeps_or_sets {f : State → State} (hf : BusProgram c f) (hk : k < 8) :
    KeepsBit c f a k ∨ SetsBit c f a k := by
  induction hf with
  | nil => exact .inl fun _ _ => rfl
  | read b => exact .inl (keepsBit_of_reg fun s => (memRead_effect [] b s).others a List.not_mem_nil)
  | write b v => exact memWrite_keeps_or_sets v
  | update b mask v => exact memUpdate_keeps_or_sets mask v hk
  | @own f h _ hown ih =>
    have hbit : ∀ s, s.cfg = c → (h s).bit a k = (f s).bit a k := fun s hs => by
      simp only [State.bit, State.reg, (hown s hs).chip]
    exact ih.imp (fun hkeep s hs => (hbit s hs.cfg).trans (hkeep s hs))
      fun hset s t hs ht => by rw [hbit s hs.cfg, hbit t ht.cfg, hset s t hs ht]
  | @andThen f g h hf hg hall hany ihf ihg =>
    have hrun : ∀ s, UnfailingAt c s → h s = g (f s) := fun s hs => hall s hs.cfg hs.free
    have hmid : ∀ s, UnfailingAt c s → UnfailingAt c (f s) := fun s hs => (hf.transacted hs.cfg).unfailingAt hs
    rcases ihg with hkeep | hset
    · have hsame : ∀ s, PlainAt c s → (h s).bit a k = (f s).bit a k := fun s hs => by
        rcases hany s hs.cfg with heq | heq <;> rw [heq]
        exact hkeep _ ((hf.transacted hs.cfg).plainAt hs)
      refine ihf.imp (fun hkeep s hs => (hsame s hs).trans (hkeep s hs)) fun hset s t hs ht => ?_
      rw [hsame s hs.toPlainAt, hsame t ht.toPlainAt, hset s t hs ht]
    · refine .inr fun s t hs ht => ?_
      rw [hrun s hs, hrun t ht]
      exact hset _ _ (hmid s hs) (hmid t ht)

/-- Two unfailing runs leave the same registers if the chips they start from are at most one run apart, whatever failed
in that one. -/
theorem BusProgram.reg_eq {f : State → State} (hf : BusProgram c f) {s t u : State} (hs : PlainAt c s)
    (ht : UnfailingAt c t) (hu : UnfailingAt c u) (htchip : t.chip = s.chip ∨ t.chip = (f s).chip)
    (huchip : u.chip = s.chip) (a : Byte) : (f t).reg a = (f u).reg a := by
  refine BitVec.eq_of_getLsbD_eq fun k hk => ?_
  rcases hf.keeps_or_sets hk with hkeep | hset
  · have hbit : ∀ {x y : State}, x.chip = y.chip → x.bit a k = y.bit a k := fun h => by
      simp only [State.bit, State.reg, h]
    have htbit : t.bit a k = s.bit a k := htchip.elim hbit fun h => (hbit h).trans (hkeep s hs)
    exact (hkeep t ht.toPlainAt).trans (htbit.trans ((hbit huchip).symm.trans (hkeep u hu.toPlainAt).symm))
  · exact hset t u ht hu

end

/-! #### What the repetition finds (R165, R198) -/

/-- A command writes none of what it is made from, whatever fails. -/
theorem seen_of_exec {i : Instr} {s t : State} (ha : admitted i s = true) (h : exec i s = .next t) :
    seen i t = seen i s := by
  have hcfg : t.cfg = s.cfg := (exec_commandEffect h).cfg
  have hblock := exec_sameBlock_of_admitted ha h
  cases i
  case flsel idx =>
    have hlast : t.lastPct = s.lastPct := by
      rw [hblock.lastPct, registersWritten]
      split <;> rfl
    rw [seen, seen, hcfg, hlast]
  case flapply pct | vset pct =>
    have htbl : t.tblIdx = s.tblIdx := by
      rw [hblock.tblIdx, registersWritten]
      split <;> rfl
    rw [seen, seen, hcfg, htbl]
  all_goals exact congrArg (·, 0) hcfg

theorem admitted_congr (i : Instr) {s t : State} (h : t.attached = s.attached) : admitted i t = admitted i s := by
  rw [admitted, admitted, h]

/-- A sequence ends well in the one way exactly if it does in the other (10_state.md R14). -/
theorem abortSeq_eq_ok_iff {ps : List Step} {s t : State} :
    abortSeq ps s = (.ok, t) ↔ aggregateSeq ps s = (.ok, t) := by
  induction ps generalizing s with
  | nil => exact Iff.rfl
  | cons p ps ih =>
    rcases hps : p s with ⟨_ | _, u⟩
    · rw [abortSeq_cons_ok hps, aggregateSeq_cons_ok hps]
      exact ih
    · simp [abortSeq, aggregateSeq, hps]

theorem initSteps_stopsShort (c : Config) : StopsShort .fail (abortSeq (initSteps c)) := by
  refine abortSeq_stopsShort fun p hp => ?_
  simp only [initSteps, List.mem_cons, List.not_mem_nil, or_false] at hp
  rcases hp with rfl | rfl | rfl | rfl | rfl | rfl | rfl | rfl | rfl | rfl
  · exact memWrite_stopsShort _ _
  · exact memUpdate_stopsShort _ _ _
  · exact memWrite_stopsShort _ _
  · exact memWrite_stopsShort _ _
  · exact memWrite_stopsShort _ _
  · exact memUpdate_stopsShort _ _ _
  · exact memUpdate_stopsShort _ _ _
  · exact settle_stopsShort _
  · exact memWrite_stopsShort _ _
  · exact memWrite_stopsShort _ _

/-- An INIT that ended well did what it does with no failure to come. -/
theorem commandSequence_init_unfailing {s : State} (hs : PlainTarget s)
    (hok : (aggregateSeq (initSteps s.cfg) (initStart s)).1 = .ok) :
    (commandSequence .init s.unfailing).chip = (commandSequence .init s).chip := by
  have hrun : aggregateSeq (initSteps s.cfg) (initStart s) = (.ok, (aggregateSeq (initSteps s.cfg) (initStart s)).2) :=
    Prod.ext hok rfl
  have habort := abortSeq_eq_ok_iff.mpr hrun
  rcases (initSteps_stopsShort s.cfg).compare (initStart s) hs with hsame | ⟨hfail, -⟩
  · rw [habort] at hsame
    have hrun' : aggregateSeq (initSteps s.unfailing.cfg) (initStart s.unfailing) = _ := abortSeq_eq_ok_iff.mp hsame
    rw [commandSequence_init, commandSequence_init, if_pos hok, hrun', if_pos rfl]
    rfl
  · rw [habort] at hfail
    cases hfail

/-- A command but SHUTDOWN that was admitted is admitted again, but for an INIT that ended well. -/
theorem admitted_of_exec {i : Instr} {s t : State} (hi : i ≠ .shutdown) (ha : admitted i s = true)
    (h : exec i s = .next t) : admitted i t = true ∨
      i = .init ∧ admitted i t = false ∧ (aggregateSeq (initSteps s.cfg) (initStart s)).1 = .ok := by
  by_cases hinit : i = .init
  · subst hinit
    have hs : s.attached = false := by simpa using ha
    rcases exec_init_cases s hs with ⟨hok, hend⟩ | ⟨-, hend⟩
    · obtain rfl := Host.Outcome.next.inj (hend.symm.trans h)
      exact .inr ⟨rfl, rfl, hok⟩
    · obtain rfl := Host.Outcome.next.inj (hend.symm.trans h)
      have hdetached := (init_effect s.cfg (initStart s)).block.attached.trans hs
      exact .inl (by simp [hdetached])
  · refine .inl ((admitted_congr i ?_).trans ha)
    rw [(exec_sameBlock_of_admitted ha h).attached, registersWritten_attached hinit hi]

/-- The response writes no register. -/
theorem chip_of_exec {i : Instr} {s t : State} (ha : admitted i s = true) (h : exec i s = .next t) :
    t.chip = (commandSequence i s).chip := by
  obtain ⟨st, v, rfl⟩ := eq_responded_of_exec h
  rw [State.responded_chip, beforeResponse_of_admitted ha]

theorem chip_of_exec_of_not_admitted {i : Instr} {s t : State} (ha : admitted i s = false) (h : exec i s = .next t) :
    t.chip = s.chip := by
  obtain rfl := Host.Outcome.next.inj ((exec_of_not_admitted ha).symm.trans h)
  rfl

/-- The state with other draws. -/
def State.withDraws (xs : List Answer) (x : Answer) (s : State) : State := { s with answers := xs, answerRest := x }

theorem seen_withDraws (i : Instr) (xs : List Answer) (x : Answer) (s : State) :
    seen i (s.withDraws xs x) = seen i s := by cases i <;> rfl

theorem unfailingAt_withDraws {c : Config} {s t : State} {xs : List Answer} {x : Answer} (hcfg : s.cfg = c)
    (hwf : Memory.wf s.chip = true) (hfree : FaultFree (t.withDraws xs x)) : UnfailingAt c (s.withDraws xs x) :=
  have hfree' : FaultFree (s.withDraws xs x) := hfree.congr rfl rfl
  ⟨⟨hcfg, hwf, hfree'.1⟩, hfree'⟩

theorem faultFree_unfailing (s : State) : FaultFree s.unfailing := by
  simp [FaultFree, PlainTarget, State.unfailing, Answer.good]

/-- The repetition of an admitted command beside the command alone. -/
theorem reissue_reg_eq {i : Instr} {s t u v : State} {xs : List Answer} {x : Answer} (hi : i ≠ .shutdown)
    (ha : admitted i s = true) (hs : PlainAt s.cfg s) (hfree : FaultFree (s.withDraws xs x)) (ht : exec i s = .next t)
    (hu : exec i (t.withDraws xs x) = .next u) (hv : exec i (s.withDraws xs x) = .next v) (a : Byte) :
    u.reg a = v.reg a := by
  obtain ⟨f, hf, hrun⟩ := commandSequence_program i s
  have hreg : ∀ {y z : State}, y.chip = z.chip → y.reg a = z.reg a := congrArg (readCell · a.toNat)
  have halone := unfailingAt_withDraws rfl hs.chip hfree
  have htchip : t.chip = (f s).chip := (chip_of_exec ha ht).trans (congrArg State.chip (hrun s rfl))
  have hvchip : v.chip = (f (s.withDraws xs x)).chip := by
    rw [← hrun _ (seen_withDraws i xs x s)]
    exact chip_of_exec (s := s.withDraws xs x) ha hv
  rw [hreg hvchip]
  rcases admitted_of_exec hi ha ht with hagain | ⟨rfl, hagain, hok⟩
  · have heffect := exec_commandEffect ht
    have huchip : u.chip = (f (t.withDraws xs x)).chip := by
      rw [← hrun _ ((seen_withDraws i xs x t).trans (seen_of_exec ha ht))]
      exact chip_of_exec (s := t.withDraws xs x) hagain hu
    rw [hreg huchip]
    exact hf.reg_eq hs (unfailingAt_withDraws heffect.cfg (heffect.chip hs.chip) hfree) halone (.inr htchip) rfl a
  · -- An INIT that ended well is turned away the second time, and did what it does when nothing fails.
    have huchip : u.chip = (f s.unfailing).chip := by
      rw [chip_of_exec_of_not_admitted (s := t.withDraws xs x) hagain hu, ← hrun s.unfailing rfl,
        commandSequence_init_unfailing hs.plain hok, hrun s rfl]
      exact htchip
    rw [hreg huchip]
    exact hf.reg_eq hs (unfailingAt_withDraws rfl hs.chip (faultFree_unfailing s)) halone (.inl rfl) rfl a

/-- Settles O55: an admitted command is `reissue_reg_eq`; one that is turned away is turned away each time. -/
theorem reissueRepairsTheChip : Obligations.ReissueRepairsTheChip := by
  intro i s t u v draws rest hi hplain hwf hfree ht hu hv a
  cases ha : admitted i s with
  | true => exact reissue_reg_eq hi ha ⟨rfl, hwf, hplain⟩ hfree ht hu hv a
  | false =>
    obtain rfl := Host.Outcome.next.inj ((exec_of_not_admitted ha).symm.trans ht)
    have huchip := chip_of_exec_of_not_admitted (s := (rejected s 0x0500).withDraws draws rest) ha hu
    have hvchip := chip_of_exec_of_not_admitted (s := s.withDraws draws rest) ha hv
    exact congrArg (readCell · a.toNat) (huchip.trans hvchip.symm)

end Sys2Proof.Machine
